-- ==== Sys2Proof/Word.lean ====
section
/-! DEFINITION. The widths the spec gives its values (spec/00_scope.md R7 to R10). -/

namespace Sys2Proof

/-- One packet byte, one TX or RX buffer byte, one 8-bit operand. -/
abbrev Byte := BitVec 8

/-- One 16-bit value: a CRC, a length, a count. -/
abbrev Half := BitVec 16

/-- One 32-bit value: a command word, the data of a host access. -/
abbrev Word := BitVec 32

end Sys2Proof
end

