-- ==== Sys2Proof/Config.lean ====
section
/-! DEFINITION. The parameters of the block and of the host model (spec/00_scope.md R5, R6) and the free
values the spec leaves open (spec/93_implementation_defined.md U3, U6). -/

namespace Sys2Proof

/-- The two parameters of the block, `TX_BUF_BYTES` and `RX_BUF_BYTES` (R5). State holds them as a constant
(assumption log 1), so that a statement about every state is one about every configuration. -/
structure BufferSizes where
  txBytes : Nat
  rxBytes : Nat
  deriving DecidableEq, Repr

/-- The legal configurations of R6. -/
abbrev BufferSizes.Legal (z : BufferSizes) : Prop :=
  6 ≤ z.txBytes ∧ z.txBytes ≤ 16384 ∧ 6 ≤ z.rxBytes ∧ z.rxBytes ≤ 16384

/-- The reference configuration of R5: 64 bytes in each buffer. DESIGN CHOICE (log 1): it is the
configuration of `State.reset`, and no statement rests on it. -/
def BufferSizes.reference : BufferSizes := { txBytes := 64, rxBytes := 64 }

/-- The OPEN parameters of the host model (R5; spec/45_host_protocol.md R149; spec/20_memory.md R45). The
block depends on none of them. Assumption log 13. -/
structure HostParams where
  /-- `BLOCK_BASE`: where the platform maps the block's port. -/
  blockBase : Nat
  mtFcRequest : Byte
  mtFcReport : Byte
  mtNotReady : Byte
  mtErrorReport : Byte
  cidErrors : Byte
  cidExec : Byte
  cidScenStatus : Byte
  cidScience : Byte
  cidMcl : Byte
  cidScenCreate : Byte
  cidScenDelete : Byte
  subAdd : Byte
  subModify : Byte
  subDelete : Byte
  /-- `ERR_MAX`, the bound on the reported error codes (R150). -/
  errMax : Nat
  /-- `MCL_COUNT` and `MCL_ENTRY_BYTES` (R155). -/
  mclCount : Nat
  mclEntryBytes : Nat
  deriving DecidableEq, Repr

/-- The two type codes and the one command id the source's example fixes (R5, spec/30_encoding.md R85). -/
def mtHkRequest : Byte := 0x00#8
def mtHkReport : Byte := 0x01#8
def cidTemp : Byte := 0x01#8

/-- The six message-type codes are pairwise distinct (R5), and `BLOCK_BASE` is 4-byte aligned
(spec/92_eei_decisions.md D5). -/
abbrev HostParams.Legal (p : HostParams) : Prop :=
  [mtHkRequest, mtHkReport, p.mtFcRequest, p.mtFcReport, p.mtNotReady, p.mtErrorReport].Nodup ∧
    p.blockBase % 4 = 0

namespace Config

/-- FREE VALUE (log 2): what byte `i` of TX holds after the `n`-th reset while nothing has written it
(spec/70_reset_and_hazards.md R190: "unspecified: each byte any value"). -/
opaque freeTxByte (resets index : Nat) : Byte

/-- FREE VALUE (log 2): the same for RX. -/
opaque freeRxByte (resets index : Nat) : Byte

/-- FREE VALUES (log 14): the raw result of a host operation whose data is too short (U6: "any value for the
host model's typed result"), for the `draw`-th such reading. -/
opaque freeErrorCodes (draw : Nat) : List Byte
opaque freeTemperature (draw : Nat) : Half
opaque freeResultByte (draw : Nat) : Byte

end Config

end Sys2Proof
end

