-- ==== Sys2Proof/Syntax.lean ====
section
/-! DEFINITION. The commands of the block: one constructor per row of spec/opcode_table.json, with the operands
that the command word holds (spec/30_encoding.md R72). The operand that is not in the word, ENCODE's `n`, is
read from TXPLEN (R73). -/

namespace Sys2Proof

/-- The six commands (spec/30_encoding.md R74). -/
inductive Instr where
  /-- CRC_INIT, format N. -/
  | crcInit
  /-- CRC_BYTE, format B: DATA. -/
  | crcByte (data : Byte)
  /-- TRAILER_GEN, format K: COUNT. -/
  | trlGen (count : Half)
  /-- TRAILER_CHK, format K: COUNT. -/
  | trlChk (count : Half)
  /-- ENCODE, format P: TYPE and ID. -/
  | pktEnc (type id : Byte)
  /-- DECODE, format P: TYPE and ID. -/
  | pktDec (type id : Byte)
  deriving DecidableEq, Repr

end Sys2Proof
end

