-- ==== Sys2Proof/WellFormed.lean ====
section
/-! DEFINITION. What a well-formed line of assembler is (spec/30_encoding.md R79): every operand in its range. A
term of `Instr` holds operands of exactly the width of its fields, so each of them is a well-formed line. -/

namespace Sys2Proof

/-- A line of the assembler syntax of R79, its operands numbers as they are written. -/
inductive AsmLine where
  | crcInit
  | crcByte (b : Nat)
  | trlGen (k : Nat)
  | trlChk (k : Nat)
  | pktEnc (t i : Nat)
  | pktDec (t i : Nat)
  /-- `cmd w`, the raw word. -/
  | cmd (w : Nat)
  deriving DecidableEq, Repr

/-- The operand ranges of R79: "An operand outside its range is an assembler error." -/
def AsmLine.wellFormed : AsmLine → Bool
  | .crcInit => true
  | .crcByte b => decide (b ≤ 255)
  | .trlGen k => decide (k ≤ 65535)
  | .trlChk k => decide (k ≤ 65535)
  | .pktEnc t i => decide (t ≤ 255) && decide (i ≤ 255)
  | .pktDec t i => decide (t ≤ 255) && decide (i ≤ 255)
  | .cmd w => decide (w < 2 ^ 32)

/-- The line that writes a command. -/
def Instr.toAsm : Instr → AsmLine
  | .crcInit => .crcInit
  | .crcByte b => .crcByte b.toNat
  | .trlGen k => .trlGen k.toNat
  | .trlChk k => .trlChk k.toNat
  | .pktEnc t i => .pktEnc t.toNat i.toNat
  | .pktDec t i => .pktDec t.toNat i.toNat

/-- A command is well formed when its line is. -/
def Instr.wellFormed (i : Instr) : Bool := i.toAsm.wellFormed

/-- The 13 bytes of a Scenario Descriptor (spec/45_host_protocol.md R156: "only its length"). -/
def descriptorWellFormed (d : List Byte) : Bool := decide (d.length = 13)

end Sys2Proof
end

