-- ==== Sys2Proof/Decode.lean ====
section
/-! DEFINITION. The command word (spec/30_encoding.md Part A): the decoder, total on 32-bit words and rejecting by
name, the opcode map as match and mask, and after them the encoder and the assembler. -/

namespace Sys2Proof

/-- Why a command is rejected (spec/60_exceptions.md R171). Decoding raises the first two. -/
inductive CmdError where
  /-- Unassigned opcode, ERR bit 0. -/
  | eOpc
  /-- A reserved bit of the format is 1, ERR bit 1. -/
  | eRsv
  /-- A count or length would reach outside a buffer, ERR bit 2. -/
  | eRange
  deriving DecidableEq, Repr

/-- What a word decodes to: a command or a rejection (R76). -/
inductive Decoded where
  | command (i : Instr)
  | rejected (c : CmdError)
  deriving DecidableEq, Repr

/-- The four formats of R71. -/
inductive Format where
  | n | b | k | p
  deriving DecidableEq, Repr

/-- The assigned opcodes of R74. -/
inductive Opcode where
  | crcInit | crcByte | trlGen | trlChk | pktEnc | pktDec
  deriving DecidableEq, Repr

/-! The fields of a command word (R72). -/

def opField (w : Word) : Byte := w.extractLsb' 0 8
def dataField (w : Word) : Byte := w.extractLsb' 8 8
def countField (w : Word) : Half := w.extractLsb' 16 16
def typeField (w : Word) : Byte := w.extractLsb' 8 8
def idField (w : Word) : Byte := w.extractLsb' 16 8

/-- The opcode map (R74): 0x00 and 0x07 to 0xFF are unassigned. -/
def opcodeOf (op : Byte) : Option Opcode :=
  match op.toNat with
  | 0x01 => some .crcInit
  | 0x02 => some .crcByte
  | 0x03 => some .trlGen
  | 0x04 => some .trlChk
  | 0x05 => some .pktEnc
  | 0x06 => some .pktDec
  | _ => none

/-- The format of each opcode (R74). -/
def formatOf : Opcode → Format
  | .crcInit => .n
  | .crcByte => .b
  | .trlGen => .k
  | .trlChk => .k
  | .pktEnc => .p
  | .pktDec => .p

/-- The reserved bits of each format (R71). -/
def reservedBits : Format → Word
  | .n => 0xFFFFFF00#32
  | .b => 0xFFFF0000#32
  | .k => 0x0000FF00#32
  | .p => 0xFF000000#32

/-- The command of a word whose opcode is known (R70 step 4). -/
def commandOf (op : Opcode) (w : Word) : Instr :=
  match op with
  | .crcInit => .crcInit
  | .crcByte => .crcByte (dataField w)
  | .trlGen => .trlGen (countField w)
  | .trlChk => .trlChk (countField w)
  | .pktEnc => .pktEnc (typeField w) (idField w)
  | .pktDec => .pktDec (typeField w) (idField w)

/-- Decoding in the order of R70: the opcode, then the reserved bits, then the fields. -/
def decode (w : Word) : Decoded :=
  match opcodeOf (opField w) with
  | none => .rejected .eOpc
  | some op =>
    if w &&& reservedBits (formatOf op) = 0#32 then .command (commandOf op w) else .rejected .eRsv

/-- The command a word decodes to, if it is legal. -/
def Decoded.toOption : Decoded → Option Instr
  | .command i => some i
  | .rejected _ => none

/-- The instruction in a word given as a number whose low `nbits` bits are its bits, every bit above them 0
(assumption log 18). -/
def decodeTableWord (nbits w : Nat) : Option Instr :=
  if nbits ≤ 32 then (decode (BitVec.ofNat 32 (w % 2 ^ nbits))).toOption else none

/-- A row of R74's second table: a word is the row's command exactly when `w &&& mask = pattern`. -/
structure OpcodeRow where
  opcode : Opcode
  pattern : Word
  mask : Word
  deriving DecidableEq, Repr

/-- R74's match and mask over the whole word. -/
def opcodeRows : List OpcodeRow :=
  [ { opcode := .crcInit, pattern := 0x00000001#32, mask := 0xFFFFFFFF#32 },
    { opcode := .crcByte, pattern := 0x00000002#32, mask := 0xFFFF00FF#32 },
    { opcode := .trlGen, pattern := 0x00000003#32, mask := 0x0000FFFF#32 },
    { opcode := .trlChk, pattern := 0x00000004#32, mask := 0x0000FFFF#32 },
    { opcode := .pktEnc, pattern := 0x00000005#32, mask := 0xFF0000FF#32 },
    { opcode := .pktDec, pattern := 0x00000006#32, mask := 0xFF0000FF#32 } ]

/-- The word of a command (R79's table). -/
def encode : Instr → Word
  | .crcInit => 0x00000001#32
  | .crcByte b => (b.setWidth 32 <<< 8) ||| 0x02#32
  | .trlGen k => (k.setWidth 32 <<< 16) ||| 0x03#32
  | .trlChk k => (k.setWidth 32 <<< 16) ||| 0x04#32
  | .pktEnc t i => (i.setWidth 32 <<< 16) ||| (t.setWidth 32 <<< 8) ||| 0x05#32
  | .pktDec t i => (i.setWidth 32 <<< 16) ||| (t.setWidth 32 <<< 8) ||| 0x06#32

/-- The word a line of assembler emits (R79), none for an operand outside its range. -/
def assemble (l : AsmLine) : Option Word :=
  if l.wellFormed then
    match l with
    | .crcInit => some (encode .crcInit)
    | .crcByte b => some (encode (.crcByte (BitVec.ofNat 8 b)))
    | .trlGen k => some (encode (.trlGen (BitVec.ofNat 16 k)))
    | .trlChk k => some (encode (.trlChk (BitVec.ofNat 16 k)))
    | .pktEnc t i => some (encode (.pktEnc (BitVec.ofNat 8 t) (BitVec.ofNat 8 i)))
    | .pktDec t i => some (encode (.pktDec (BitVec.ofNat 8 t) (BitVec.ofNat 8 i)))
    | .cmd w => some (BitVec.ofNat 32 w)
  else none

end Sys2Proof
end

