-- ==== Sys2Proof/Machine/State.lean ====
section
/-! DEFINITION. The state of the block (spec/10_state.md R20), the host's side of its port as far as a run needs it,
and the reasons a run stops. -/

namespace Sys2Proof.Machine

/-- The four members of the Error Flag (spec/10_state.md R31). -/
inductive ErrorFlag where
  | none
  | checksumError
  | communicationError
  | notReady
  deriving DecidableEq, Repr

/-- One access of the host to the port (spec/20_memory.md R45, R51): its width in bits, its byte offset from
`BLOCK_BASE`, and for a write the value. Only 32-bit accesses are served, so the value of a write is kept in 32 bits
(assumption log 17). -/
inductive Access where
  | read (width offset : Nat)
  | write (width offset : Nat) (value : Word)
  deriving DecidableEq, Repr

/-- What can happen to the block (spec/45_host_protocol.md R145, spec/70_reset_and_hazards.md R190): a host access,
or the reset input, which acts between accesses. -/
inductive PortEvent where
  | access (a : Access)
  | reset
  deriving DecidableEq, Repr

/-- A packet buffer: the bytes written since the last reset, cells of byte index and byte, indices strictly rising.
A byte that is not listed has not been written since then (assumption logs 2 and 3). -/
abbrev Memory := List Host.Cell

/-- The canonical form of a buffer: indices strictly rise. -/
def Memory.wf : Memory → Bool
  | [] => true
  | [_] => true
  | c :: d :: rest => decide (c.1 < d.1) && Memory.wf (d :: rest)

/-- Every listed index is inside a buffer of `n` bytes. -/
def Memory.within (n : Nat) (m : Memory) : Bool := m.all fun c => decide (c.1 < n)

/-- The machine. The fields from `crc` to `rx` are all the state the spec gives the block (spec/10_state.md R20).
`sizes` is the constant configuration (R36; assumption log 1). The last three are the model's own (logs 4, 5, 7). -/
structure State where
  /-- `TX_BUF_BYTES` and `RX_BUF_BYTES`; no step changes them. -/
  sizes : BufferSizes
  /-- CRC.CRC (R23). -/
  crc : Half
  /-- TXPLEN.N (R26). -/
  txplen : Half
  /-- TXLEN.TOTAL (R27). -/
  txlen : Half
  /-- RXDLEN.DLEN (R28). -/
  rxdlen : Half
  /-- RXDECL.L (R29). -/
  rxdecl : Half
  /-- RESULT.EFLAG (R30, R31). -/
  eflag : ErrorFlag
  /-- RESULT.LENBAD (R32). -/
  lenbad : Bool
  /-- RESULT.CHKOK (R33). -/
  chkok : Bool
  /-- ERR.E_OPC (R34). -/
  errOpc : Bool
  /-- ERR.E_RSV (R34). -/
  errRsv : Bool
  /-- ERR.E_RANGE (R34). -/
  errRange : Bool
  /-- ERRCMD.WORD (R35). -/
  errcmd : Word
  /-- The TX packet buffer (R37). -/
  tx : Memory
  /-- The RX packet buffer (R38). -/
  rx : Memory
  /-- How many resets have acted since power-on: the free bytes of the buffers are drawn from it. -/
  resets : Nat
  /-- What the host and the reset input will do, oldest first. -/
  pending : List PortEvent
  /-- The values the port has given back to the host, newest first. -/
  reads : List Word
  deriving DecidableEq, Repr

/-- Why the port answers an access with a bus error (spec/20_memory.md R51). -/
inductive BusErrorCause where
  /-- The access is not 32 bits wide. -/
  | width
  /-- The offset is no multiple of 4. -/
  | misaligned
  /-- The offset is at or above 0x40000. -/
  | outside
  /-- The offset lies in a reserved range of R46. -/
  | reserved
  deriving DecidableEq, Repr

/-- The faults of a run. -/
inductive Fault where
  /-- Raised by `takeEvent` for an access that the port does not serve. SAFE: R54 itself says that a model treats a
  bus error as a fault, which gives a run no meaning past it. -/
  | busError (cause : BusErrorCause)
  deriving DecidableEq, Repr

/-- The refusals of a run. -/
inductive Refusal where
  /-- Raised by no arm of `exec` (every command has its meaning). SAFE. -/
  | notModelled (mnemonic : String)
  /-- Raised by `step` for sizes that spec/00_scope.md R6 does not allow. SAFE: R6 says that a model refuses an
  illegal configuration. -/
  | illegalConfiguration
  deriving DecidableEq, Repr

/-- The block right after reset for any configuration (spec/70_reset_and_hazards.md R190): every register at its
reset value, and nothing listed in the buffers, whose bytes are unspecified. -/
def State.resetWith (sizes : BufferSizes) : State :=
  { sizes := sizes
    crc := 0x0000#16
    txplen := 0x0000#16
    txlen := 0x0000#16
    rxdlen := 0x0000#16
    rxdecl := 0x0000#16
    eflag := .none
    lenbad := false
    chkok := false
    errOpc := false
    errRsv := false
    errRange := false
    errcmd := 0x00000000#32
    tx := []
    rx := []
    resets := 0
    pending := []
    reads := [] }

/-- The machine right after reset, in the reference configuration (assumption log 1), before the host has done
anything. -/
def State.reset : State := State.resetWith BufferSizes.reference

end Sys2Proof.Machine
end

