-- ==== Sys2Proof/Machine/Crc.lean ====
section
/-! DEFINITION. The lookup table (spec/10_state.md R24) and the CRC functions (spec/40_crc_engine.md R90 to R92). -/

namespace Sys2Proof.Machine

/-- One round of R24's table construction: bit 15 is tested before the shift (assumption log 19). -/
def crcRound (c : Half) : Half :=
  if c.getLsbD 15 then (c <<< 1) ^^^ 0x8005#16 else c <<< 1

/-- `n` rounds. -/
def crcRounds : Nat → Half → Half
  | 0, c => c
  | n + 1, c => crcRounds n (crcRound c)

/-- `TABLE[i]` (R24): 8 rounds from `i << 8`. TABLE is a constant (R25). -/
def tableEntry (i : Byte) : Half := crcRounds 8 ((i.setWidth 16 : Half) <<< 8)

/-- `crc_step(c, b)` (R90). -/
def crcStep (c : Half) (b : Byte) : Half :=
  tableEntry (b ^^^ c.extractLsb' 8 8) ^^^ (c <<< 8)

/-- `foldl crc_step c B` (R97). -/
def crcFrom (c : Half) (bytes : List Byte) : Half := bytes.foldl crcStep c

/-- `crc16(B)` (R91). -/
def crc16 (bytes : List Byte) : Half := crcFrom 0x0000#16 bytes

/-- The bit-serial form of R92. -/
def crcSerial (bytes : List Byte) : Half :=
  bytes.foldl (fun c b => crcRounds 8 (c ^^^ ((b.setWidth 16 : Half) <<< 8))) 0x0000#16

end Sys2Proof.Machine
end

