-- ==== Sys2Proof/Machine/Ops.lean ====
section
/-! DEFINITION. The named operations on the buffers and registers, the rejection of a command
(spec/60_exceptions.md R170), the clearing of ERR, and reset (spec/70_reset_and_hazards.md R190). -/

namespace Sys2Proof.Machine

/-- The listed byte at an index. -/
def Memory.get? : Memory → Nat → Option Byte
  | [], _ => none
  | (a, b) :: rest, i => if i = a then some b else Memory.get? rest i

/-- Writes one byte, keeping the indices strictly rising. -/
def Memory.set : Memory → Nat → Byte → Memory
  | [], i, v => [(i, v)]
  | (a, b) :: rest, i, v =>
    if i < a then (i, v) :: (a, b) :: rest
    else if i = a then (i, v) :: rest
    else (a, b) :: Memory.set rest i v

/-- `TX[i]` (spec/00_scope.md R10): a byte not written since reset is a free value (R190). -/
def State.txByte (s : State) (i : Nat) : Byte := (s.tx.get? i).getD (Config.freeTxByte s.resets i)

/-- `RX[i]` (spec/00_scope.md R10). -/
def State.rxByte (s : State) (i : Nat) : Byte := (s.rx.get? i).getD (Config.freeRxByte s.resets i)

/-- `TX[i] <- b` (spec/00_scope.md R11). -/
def State.setTxByte (s : State) (i : Nat) (b : Byte) : State := { s with tx := s.tx.set i b }

/-- `RX[i] <- b` (spec/00_scope.md R11). -/
def State.setRxByte (s : State) (i : Nat) (b : Byte) : State := { s with rx := s.rx.set i b }

/-- `CRC.CRC <- c`. -/
def State.setCrc (s : State) (c : Half) : State := { s with crc := c }

/-- `TXPLEN.N <- n`. -/
def State.setTxplen (s : State) (n : Half) : State := { s with txplen := n }

/-- `TXLEN.TOTAL <- n`. -/
def State.setTxlen (s : State) (n : Half) : State := { s with txlen := n }

/-- `RXDECL.L <- l`. -/
def State.setRxdecl (s : State) (l : Half) : State := { s with rxdecl := l }

/-- `RESULT.CHKOK <- b`. -/
def State.setChkok (s : State) (b : Bool) : State := { s with chkok := b }

/-- `raise CmdError(c)` for the command word `w` (R170): the cause's bit of ERR and ERRCMD, and nothing else. -/
def State.raiseCmdError (s : State) (c : CmdError) (w : Word) : State :=
  { s with
    errOpc := s.errOpc || decide (c = .eOpc)
    errRsv := s.errRsv || decide (c = .eRsv)
    errRange := s.errRange || decide (c = .eRange)
    errcmd := w }

/-- A host write of `v` to ERR (spec/10_state.md R34): each bit written with 1 is cleared. The block has no return
from an error (R177): this is the only way back. -/
def State.clearErr (s : State) (v : Word) : State :=
  { s with
    errOpc := s.errOpc && !v.getLsbD 0
    errRsv := s.errRsv && !v.getLsbD 1
    errRange := s.errRange && !v.getLsbD 2 }

/-- A command that a check of its own rejects. The word is the command's encoding, the only word that decodes to it
(assumption log 10). -/
def rejectCommand (c : CmdError) (i : Instr) (s : State) : Host.Outcome State Fault Refusal :=
  .next (s.raiseCmdError c (encode i))

/-- The reset input (R190): every register at its reset value, every buffer byte unspecified anew. What the host
will do and what it got back are the host's. -/
def State.applyReset (s : State) : State :=
  { State.resetWith s.sizes with
    resets := s.resets + 1
    pending := s.pending
    reads := s.reads }

/-- The host's queue after its next event is taken. -/
def State.setPending (s : State) (es : List PortEvent) : State := { s with pending := es }

/-- The port gives a value back to the host. -/
def State.logRead (s : State) (v : Word) : State := { s with reads := v :: s.reads }

end Sys2Proof.Machine
end

