-- ==== Sys2Proof/Machine/Operands.lean ====
section
/-! DEFINITION. How the commands form their operands: byte sequences of a buffer, 16-bit values in two bytes, the
packet layout (spec/00_scope.md R8, R10; spec/30_encoding.md R72, R73, R82 to R84), and the range checks. -/

namespace Sys2Proof.Machine

/-- `{a, b}` (R8): `a` is the high byte. -/
def pair (a b : Byte) : Half := a ++ b

/-- `c[15:8]`. -/
def hiByte (c : Half) : Byte := c.extractLsb' 8 8

/-- `c[7:0]`. -/
def loByte (c : Half) : Byte := c.extractLsb' 0 8

/-- `be16(c)` (R10): the high byte first. -/
def be16 (c : Half) : List Byte := [hiByte c, loByte c]

/-- `TX[a..a+len)` (R10). -/
def State.txBytesFrom (s : State) (a : Nat) : Nat → List Byte
  | 0 => []
  | len + 1 => s.txByte a :: s.txBytesFrom (a + 1) len

/-- `RX[a..a+len)` (R10). -/
def State.rxBytesFrom (s : State) (a : Nat) : Nat → List Byte
  | 0 => []
  | len + 1 => s.rxByte a :: s.rxBytesFrom (a + 1) len

/-- `TX[i] <- b0`, `TX[i+1] <- b1`, and so on. -/
def State.setTxBytes (s : State) (i : Nat) : List Byte → State
  | [] => s
  | b :: bs => (s.setTxByte i b).setTxBytes (i + 1) bs

/-- ENCODE's `n` (R73): TXPLEN.N as an unbounded number. -/
def State.encodeCount (s : State) : Nat := s.txplen.toNat

/-- The declared length L of the packet in RX: `{RX[1], RX[2]}`, big-endian (R82). -/
def State.declaredLength (s : State) : Half := pair (s.rxByte 1) (s.rxByte 2)

/-- The length field of a packet with `n` bytes of operation data (R83): `n + 3`. -/
def lengthField (n : Nat) : Half := BitVec.ofNat 16 (n + 3)

/-- Bytes 0 to 3 of a packet: the type, the length field and the command id (R82). -/
def packetHead (type id : Byte) (n : Nat) : List Byte :=
  [type, hiByte (lengthField n), loByte (lengthField n), id]

/-- The whole packet of a type, an id and operation data (R82 to R84). -/
def packetBytes (type id : Byte) (data : List Byte) : List Byte :=
  packetHead type id data.length ++ data ++ be16 (crc16 (packetHead type id data.length ++ data))

/-- TRAILER_GEN's range check on unbounded numbers (R8): `k + 2 <= TX_BUF_BYTES`. -/
abbrev trlGenInRange (z : BufferSizes) (k : Half) : Prop := k.toNat + 2 ≤ z.txBytes

/-- TRAILER_CHK's range check: `2 <= k` and `k <= RX_BUF_BYTES`. -/
abbrev trlChkInRange (z : BufferSizes) (k : Half) : Prop := 2 ≤ k.toNat ∧ k.toNat ≤ z.rxBytes

/-- ENCODE's range check: `n + 6 <= TX_BUF_BYTES`. -/
abbrev encodeInRange (z : BufferSizes) (n : Nat) : Prop := n + 6 ≤ z.txBytes

/-- DECODE's length check (spec/43_deframer.md R127): `3 <= L` and `L + 3 <= RX_BUF_BYTES`. -/
abbrev lengthInRange (z : BufferSizes) (l : Half) : Prop := 3 ≤ l.toNat ∧ l.toNat + 3 ≤ z.rxBytes

end Sys2Proof.Machine
end

