-- ==== Sys2Proof/Machine/Flags.lean ====
section
/-! DEFINITION. The block's only flags (spec/10_state.md R40): RESULT.EFLAG, LENBAD and CHKOK, and the ERR bits, with
the words the host reads them as (assumption log 11), and how DECODE computes its verdict (spec/43_deframer.md R125). -/

namespace Sys2Proof.Machine

/-- The code of an Error Flag (R31). -/
def errorFlagCode : ErrorFlag → BitVec 2
  | .none => 0b00#2
  | .checksumError => 0b01#2
  | .communicationError => 0b10#2
  | .notReady => 0b11#2

/-- The Error Flag of a code (R31). -/
def errorFlagOf (c : BitVec 2) : ErrorFlag :=
  if c = 0b00#2 then .none
  else if c = 0b01#2 then .checksumError
  else if c = 0b10#2 then .communicationError
  else .notReady

/-- RESULT as the host reads it (R30): EFLAG in bits 1:0, LENBAD in bit 2, CHKOK in bit 3, the rest 0. -/
def State.resultWord (s : State) : Word :=
  (BitVec.ofBool s.chkok ++ BitVec.ofBool s.lenbad ++ errorFlagCode s.eflag).setWidth 32

/-- ERR as the host reads it (R34): E_OPC in bit 0, E_RSV in bit 1, E_RANGE in bit 2, the rest 0. -/
def State.errWord (s : State) : Word :=
  (BitVec.ofBool s.errRange ++ BitVec.ofBool s.errRsv ++ BitVec.ofBool s.errOpc).setWidth 32

/-- CHKOK of a remainder (R33). -/
def chkokOf (c : Half) : Bool := decide (c = 0x0000#16)

/-- What one DECODE reports: EFLAG, LENBAD, RXDLEN, and the remainder where the checksum step ran. -/
structure Verdict where
  eflag : ErrorFlag
  lenbad : Bool
  dlen : Half
  remainder : Option Half
  deriving DecidableEq, Repr

/-- Step 2 and step 3 of DECODE for a remainder `c` and the declared length (spec/43_deframer.md R128, R129). -/
def remainderVerdict (l c : Half) : Verdict :=
  if c = 0x0000#16 then { eflag := .none, lenbad := false, dlen := l - 3#16, remainder := some c }
  else { eflag := .checksumError, lenbad := false, dlen := 0#16, remainder := some c }

/-- DECODE's verdict, in the priority of R131: type and id, then the length, then the remainder. -/
def decodeVerdict (type id : Byte) (s : State) : Verdict :=
  if s.rxByte 0 ≠ type ∨ s.rxByte 3 ≠ id then
    { eflag := .communicationError, lenbad := false, dlen := 0#16, remainder := none }
  else if lengthInRange s.sizes s.declaredLength then
    remainderVerdict s.declaredLength (crc16 (s.rxBytesFrom 0 (s.declaredLength.toNat + 3)))
  else { eflag := .checksumError, lenbad := true, dlen := 0#16, remainder := none }

/-- Writes a verdict: EFLAG, LENBAD and RXDLEN always, CRC only where the checksum step ran (spec/10_state.md R39). -/
def State.setVerdict (s : State) (v : Verdict) : State :=
  { s with eflag := v.eflag, lenbad := v.lenbad, rxdlen := v.dlen, crc := v.remainder.getD s.crc }

end Sys2Proof.Machine
end

