-- ==== Sys2Proof/Machine/CrcEngine.lean ====
section
/-! DEFINITION. The byte-stream engine: CRC_INIT and CRC_BYTE (spec/40_crc_engine.md R93, R94). -/

namespace Sys2Proof.Machine

/-- CRC_INIT (R93): CRC becomes 0x0000. -/
def execCrcInit (s : State) : Host.Outcome State Fault Refusal := .next (s.setCrc 0x0000#16)

/-- CRC_BYTE (R94): CRC becomes `crc_step(CRC, b)`. -/
def execCrcByte (data : Byte) (s : State) : Host.Outcome State Fault Refusal :=
  .next (s.setCrc (crcStep s.crc data))

end Sys2Proof.Machine
end

