-- ==== Sys2Proof/Machine/Deframer.lean ====
section
/-! DEFINITION. DECODE (spec/43_deframer.md R125). -/

namespace Sys2Proof.Machine

/-- DECODE (R125): RXDECL, and the verdict on the packet in RX. It raises no command error (R173). -/
def execPktDec (type id : Byte) (s : State) : Host.Outcome State Fault Refusal :=
  .next ((s.setRxdecl s.declaredLength).setVerdict (decodeVerdict type id s))

end Sys2Proof.Machine
end

