-- ==== Sys2Proof/Machine/Framer.lean ====
section
/-! DEFINITION. ENCODE (spec/42_framer.md R115). -/

namespace Sys2Proof.Machine

/-- ENCODE (R115): the header and the id to `TX[0..4)`, then the CRC over them and the `n` data bytes, as the
trailer at `TX[4+n..6+n)` and in CRC, and the total length in TXLEN. -/
def execPktEnc (type id : Byte) (s : State) : Host.Outcome State Fault Refusal :=
  let n := s.encodeCount
  if encodeInRange s.sizes n then
    let h := s.setTxBytes 0 (packetHead type id n)
    let c := crc16 (h.txBytesFrom 0 (4 + n))
    .next (((h.setTxBytes (4 + n) (be16 c)).setCrc c).setTxlen (BitVec.ofNat 16 (n + 6)))
  else rejectCommand .eRange (.pktEnc type id) s

end Sys2Proof.Machine
end

