-- ==== Sys2Proof/Machine/Trailer.lean ====
section
/-! DEFINITION. TRAILER_GEN and TRAILER_CHK (spec/41_trailer.md R105, R106). -/

namespace Sys2Proof.Machine

/-- TRAILER_GEN (R105): the CRC of `TX[0..k)`, big-endian at `TX[k]` and `TX[k+1]`, and in CRC. -/
def execTrlGen (count : Half) (s : State) : Host.Outcome State Fault Refusal :=
  if trlGenInRange s.sizes count then
    let c := crc16 (s.txBytesFrom 0 count.toNat)
    .next ((s.setTxBytes count.toNat (be16 c)).setCrc c)
  else rejectCommand .eRange (.trlGen count) s

/-- TRAILER_CHK (R106): the remainder of `RX[0..k)` in CRC, and CHKOK. -/
def execTrlChk (count : Half) (s : State) : Host.Outcome State Fault Refusal :=
  if trlChkInRange s.sizes count then
    let c := crc16 (s.rxBytesFrom 0 count.toNat)
    .next ((s.setCrc c).setChkok (chkokOf c))
  else rejectCommand .eRange (.trlChk count) s

end Sys2Proof.Machine
end

