-- ==== Sys2Proof/Machine/Dispatch.lean ====
section
/-! DEFINITION. One arm per command. -/

namespace Sys2Proof.Machine

def exec (i : Instr) (s : State) : Host.Outcome State Fault Refusal :=
  match i with
  | .crcInit => Sys2Proof.Machine.execCrcInit s
  | .crcByte data => Sys2Proof.Machine.execCrcByte data s
  | .trlGen count => Sys2Proof.Machine.execTrlGen count s
  | .trlChk count => Sys2Proof.Machine.execTrlChk count s
  | .pktEnc type id => Sys2Proof.Machine.execPktEnc type id s
  | .pktDec type id => Sys2Proof.Machine.execPktDec type id s

end Sys2Proof.Machine
end

