-- ==== Sys2Proof/Machine/Port.lean ====
section
/-! DEFINITION. The host port (spec/20_memory.md): the address map, which accesses are served, what a read gives and a
write does, the running of a command word, and one event of the port. -/

namespace Sys2Proof.Machine

/-- The control registers (R47). -/
inductive Reg where
  | cmd | crc | txplen | txlen | result | rxdlen | rxdecl | err | errcmd | param
  deriving DecidableEq, Repr

/-- What a mapped word is (R46). -/
inductive Target where
  | reg (r : Reg)
  | table (i : Byte)
  | tx (i : Nat)
  | rx (i : Nat)
  deriving DecidableEq, Repr

/-- The register offsets (R47). -/
def regAt (offset : Nat) : Option Reg :=
  match offset with
  | 0x000 => some .cmd
  | 0x004 => some .crc
  | 0x008 => some .txplen
  | 0x00C => some .txlen
  | 0x010 => some .result
  | 0x014 => some .rxdlen
  | 0x018 => some .rxdecl
  | 0x01C => some .err
  | 0x020 => some .errcmd
  | 0x024 => some .param
  | _ => none

/-- Where the windows begin (R46, spec/30_encoding.md R80). -/
def tableBase : Nat := 0x00400
def txBase : Nat := 0x10000
def rxBase : Nat := 0x20000

/-- The address map (R46) at an aligned offset: none is a reserved range. -/
def targetAt (z : BufferSizes) (offset : Nat) : Option Target :=
  if offset < 0x00028 then (regAt offset).map .reg
  else if tableBase ≤ offset ∧ offset < 0x00800 then
    some (.table (BitVec.ofNat 8 ((offset - tableBase) / 4)))
  else if txBase ≤ offset ∧ offset < txBase + 4 * z.txBytes then some (.tx ((offset - txBase) / 4))
  else if rxBase ≤ offset ∧ offset < rxBase + 4 * z.rxBytes then some (.rx ((offset - rxBase) / 4))
  else none

/-- Whether the port serves an access, and the word it is for (R51). The order in which the causes are looked at is
the model's (assumption log 8). -/
def locate (z : BufferSizes) (width offset : Nat) : Except BusErrorCause Target :=
  if width ≠ 32 then .error .width
  else if offset % 4 ≠ 0 then .error .misaligned
  else if 0x40000 ≤ offset then .error .outside
  else
    match targetAt z offset with
    | some t => .ok t
    | none => .error .reserved

/-- The value of a register as the host reads it (R55): reserved bits 0, CMD 0, PARAM its constant. -/
def State.regWord (s : State) (r : Reg) : Word :=
  match r with
  | .cmd => 0x00000000#32
  | .crc => s.crc.setWidth 32
  | .txplen => s.txplen.setWidth 32
  | .txlen => s.txlen.setWidth 32
  | .result => s.resultWord
  | .rxdlen => s.rxdlen.setWidth 32
  | .rxdecl => s.rxdecl.setWidth 32
  | .err => s.errWord
  | .errcmd => s.errcmd
  | .param => BitVec.ofNat 16 s.sizes.rxBytes ++ BitVec.ofNat 16 s.sizes.txBytes

/-- The value of a mapped word as the host reads it (R48 to R50, R55). -/
def State.portWord (s : State) (t : Target) : Word :=
  match t with
  | .reg r => s.regWord r
  | .table i => (tableEntry i).setWidth 32
  | .tx i => (s.txByte i).setWidth 32
  | .rx i => (s.rxByte i).setWidth 32

/-- A word written to CMD (R56; spec/30_encoding.md R70): its command runs, or it is rejected
(spec/60_exceptions.md R170, R172). -/
def runCommandWord (w : Word) (s : State) : Host.Outcome State Fault Refusal :=
  match decode w with
  | .command i => exec i s
  | .rejected c => .next (s.raiseCmdError c w)

/-- A write of `v` to a mapped word (R56). Read-only targets ignore it. -/
def writeTarget (t : Target) (v : Word) (s : State) : Host.Outcome State Fault Refusal :=
  match t with
  | .reg .cmd => runCommandWord v s
  | .reg .txplen => .next (s.setTxplen (v.extractLsb' 0 16))
  | .reg .err => .next (s.clearErr v)
  | .reg .crc => .next s
  | .reg .txlen => .next s
  | .reg .result => .next s
  | .reg .rxdlen => .next s
  | .reg .rxdecl => .next s
  | .reg .errcmd => .next s
  | .reg .param => .next s
  | .table _ => .next s
  | .tx i => .next (s.setTxByte i (v.extractLsb' 0 8))
  | .rx i => .next (s.setRxByte i (v.extractLsb' 0 8))

/-- What the port answers an access with: the data of a read, an error response, and the block's state after it. -/
structure Reply where
  rdata : Option Word
  error : Option BusErrorCause
  block : State
  deriving DecidableEq, Repr

/-- A bus error (R54): no state changes, a read returns 0, and the host gets an error response. -/
def busErrorReply (a : Access) (c : BusErrorCause) (s : State) : Reply :=
  match a with
  | .read _ _ => { rdata := some 0x00000000#32, error := some c, block := s }
  | .write _ _ _ => { rdata := none, error := some c, block := s }

/-- One access, one indivisible transition (R60). -/
def serveAccess (a : Access) (s : State) : Host.Outcome Reply Fault Refusal :=
  match a with
  | .read width offset =>
    match locate s.sizes width offset with
    | .error c => .next (busErrorReply a c s)
    | .ok t => .next { rdata := some (s.portWord t), error := none, block := s }
  | .write width offset v =>
    match locate s.sizes width offset with
    | .error c => .next (busErrorReply a c s)
    | .ok t =>
      match writeTarget t v s with
      | .next s' => .next { rdata := none, error := none, block := s' }
      | .fault f => .fault f
      | .refused r => .refused r

/-- The run after the port's answer: a bus error is a fault of the run (R54), and the data of a read goes to the
host. -/
def afterReply (r : Reply) : Host.Outcome State Fault Refusal :=
  match r.error, r.rdata with
  | some c, _ => .fault (.busError c)
  | none, some v => .next (r.block.logRead v)
  | none, none => .next r.block

/-- One event of the port. -/
def takeEvent (e : PortEvent) (s : State) : Host.Outcome State Fault Refusal :=
  match e with
  | .reset => .next s.applyReset
  | .access a =>
    match serveAccess a s with
    | .next r => afterReply r
    | .fault f => .fault f
    | .refused r => .refused r

/-- One step of the machine: the oldest pending event. While none is pending the block keeps its state (assumption
log 6). An illegal configuration is refused (spec/00_scope.md R6). -/
def stepMachine (s : State) : Host.Outcome State Fault Refusal :=
  if s.sizes.Legal then
    match s.pending with
    | [] => .next s
    | e :: rest => takeEvent e (s.setPending rest)
  else .refused .illegalConfiguration

/-- The host access that runs a command word: one aligned 32-bit write to CMD (R52). -/
def cmdWrite (w : Word) : PortEvent := .access (.write 32 0x000 w)

end Sys2Proof.Machine
end

