-- ==== Sys2Proof/Machine/Step.lean ====
section
/-! DEFINITION. The step of the machine, and how a command is placed so that the next step runs it. -/

namespace Sys2Proof.Machine

/-- One step (spec/20_memory.md R60): one host access, one reset, or none. -/
def step (s : State) : Host.Outcome State Fault Refusal := stepMachine s

/-- The machine whose next event is the host's write to CMD of the word whose low `nbits` bits are `w`'s, the bits
above them 0. The block fetches nothing (spec/10_state.md R21): a command reaches it only so (assumption log 5). -/
def State.withFetchWord (s : State) (nbits w : Nat) : State :=
  s.setPending (cmdWrite (BitVec.ofNat 32 (w % 2 ^ nbits)) :: s.pending)

end Sys2Proof.Machine
end

