-- ==== Sys2Proof/Machine/HostAccess.lean ====
section
/-! DEFINITION. The host's side of the port: the host-access and pseudo-instruction syntax (spec/30_encoding.md R80,
R81), the source's Encode as a host sequence (spec/42_framer.md R117), and host programs, which issue accesses and go
on from what they read (spec/10_state.md R21). None of it is part of the block. -/

namespace Sys2Proof.Machine

/-- The offset of a register (spec/20_memory.md R47, spec/30_encoding.md R80). -/
def regOffset : Reg → Nat
  | .cmd => 0x000
  | .crc => 0x004
  | .txplen => 0x008
  | .txlen => 0x00C
  | .result => 0x010
  | .rxdlen => 0x014
  | .rxdecl => 0x018
  | .err => 0x01C
  | .errcmd => 0x020
  | .param => 0x024

/-- `wr OFF, v` (R80). -/
def wr (offset : Nat) (v : Word) : PortEvent := .access (.write 32 offset v)

/-- `rd OFF` (R80). -/
def rd (offset : Nat) : PortEvent := .access (.read 32 offset)

/-- The access the block sees for a host address (spec/20_memory.md R45): its offset from `BLOCK_BASE`. Below
`BLOCK_BASE` the platform sends no access to the block. -/
def portOffset (p : HostParams) (address : Nat) : Option Nat :=
  if p.blockBase ≤ address then some (address - p.blockBase) else none

/-- `BusWrite(addr, v)` and `BusRead(addr)` (R80). -/
def busWrite (p : HostParams) (address : Nat) (v : Word) : Option PortEvent :=
  (portOffset p address).map fun o => wr o v

def busRead (p : HostParams) (address : Nat) : Option PortEvent :=
  (portOffset p address).map rd

/-! Pseudo-instructions (R81). -/

/-- `crc.bytes b0, ..., bk`. -/
def crcBytesEvents (bs : List Byte) : List PortEvent := bs.map fun b => cmdWrite (encode (.crcByte b))

/-- `crc.seq b0, ..., bk`. -/
def crcSeqEvents (bs : List Byte) : List PortEvent := cmdWrite (encode .crcInit) :: crcBytesEvents bs

/-- `tx.fill j, b0, ..., bk`. -/
def txFillEvents (j : Nat) : List Byte → List PortEvent
  | [] => []
  | b :: bs => wr (txBase + 4 * j) (b.setWidth 32) :: txFillEvents (j + 1) bs

/-- `rx.fill j, b0, ..., bk`. -/
def rxFillEvents (j : Nat) : List Byte → List PortEvent
  | [] => []
  | b :: bs => wr (rxBase + 4 * j) (b.setWidth 32) :: rxFillEvents (j + 1) bs

/-- `pkt.frame t, i, b0, ..., bm`, which is also the source's `Encode(t, i, data)` (spec/42_framer.md R117): the
data, its length, then ENCODE. -/
def pktFrameEvents (t i : Byte) (data : List Byte) : List PortEvent :=
  txFillEvents 4 data ++
    [wr (regOffset .txplen) (BitVec.ofNat 32 data.length), cmdWrite (encode (.pktEnc t i))]

/-- `pkt.frame0 t, i`. -/
def pktFrame0Events (t i : Byte) : List PortEvent :=
  [wr (regOffset .txplen) 0#32, cmdWrite (encode (.pktEnc t i))]

/-- `err.clr`. -/
def errClrEvents : List PortEvent := [wr (regOffset .err) 0x00000007#32]

/-! Host programs (spec/45_host_protocol.md R145; assumption log 5). -/

/-- What a host does with the port: its next access may depend on what it has read. -/
inductive HostProgram (α : Type) where
  /-- The host has its result. -/
  | done (result : α)
  /-- One event of the port from which the host wants nothing back. -/
  | issue (e : PortEvent) (next : HostProgram α)
  /-- `rd OFF -> x` (R80): the host goes on with the value read. -/
  | read (offset : Nat) (next : Word → HostProgram α)

/-- Runs a host program on the block, one step for each of its accesses: its result and the block's state, or the
first fault or refusal. Its next access is the port's next event; other events that are pending stay so. -/
def HostProgram.run {α : Type} : HostProgram α → State → Host.Outcome (α × State) Fault Refusal
  | .done r, s => .next (r, s)
  | .issue e next, s =>
    match step (s.setPending (e :: s.pending)) with
    | .next t => next.run t
    | .fault f => .fault f
    | .refused r => .refused r
  | .read offset next, s =>
    match step (s.setPending (rd offset :: s.pending)) with
    | .next t => (next (t.reads.headD 0#32)).run t
    | .fault f => .fault f
    | .refused r => .refused r

/-- A list of events, in order. -/
def issueAll {α : Type} : List PortEvent → HostProgram α → HostProgram α
  | [], next => next
  | e :: es, next => .issue e (issueAll es next)

/-- `rd` of the `len` words of a buffer window from index `j`: one byte of the buffer each. -/
def readBytes {α : Type} (base j : Nat) : Nat → (List Byte → HostProgram α) → HostProgram α
  | 0, next => next []
  | len + 1, next =>
    .read (base + 4 * j) fun v => readBytes base (j + 1) len fun bs => next (v.extractLsb' 0 8 :: bs)

/-- The CRC service (R146) over a stream: the CRC of a byte sequence. -/
def hostCrc (bs : List Byte) : HostProgram Half :=
  issueAll (crcSeqEvents bs) (.read (regOffset .crc) fun v => .done (v.extractLsb' 0 16))

/-- The CRC service (R146) over RX: bytes copied there from index 0, and whether their last two are their trailer. -/
def hostCheck (bs : List Byte) : HostProgram Bool :=
  issueAll (rxFillEvents 0 bs ++ [cmdWrite (encode (.trlChk (BitVec.ofNat 16 bs.length)))])
    (.read (regOffset .result) fun v => .done (v.getLsbD 3))

/-- The CRC service (R146) over TX: bytes placed there from index 0, and the trailer put after them. -/
def hostTrailer (bs : List Byte) : HostProgram (List Byte) :=
  issueAll (txFillEvents 0 bs ++ [cmdWrite (encode (.trlGen (BitVec.ofNat 16 bs.length)))])
    (readBytes txBase bs.length 2 .done)

/-- The errors row of R146: the cause bits and the last rejected word, and the bits seen are cleared. -/
def hostErrors : HostProgram (Word × Word) :=
  .read (regOffset .err) fun bits => .read (regOffset .errcmd) fun w =>
    .issue (wr (regOffset .err) bits) (.done (bits, w))

end Sys2Proof.Machine
end

