-- ==== Sys2Proof/Machine/HostApi.lean ====
section
/-! DEFINITION. The Command API at the block's boundary (spec/45_host_protocol.md R146 to R161): the eight operations,
their typed results, and a call as a host program. None of it is part of the block. -/

namespace Sys2Proof.Machine

/-! Message types (spec/30_encoding.md R85, R86). -/

inductive MessageType where
  | hkRequest | hkReport | fcRequest | fcReport | notReady | errorReport
  deriving DecidableEq, Repr

/-- The code of a message type (R85). -/
def MessageType.code (p : HostParams) : MessageType → Byte
  | .hkRequest => mtHkRequest
  | .hkReport => mtHkReport
  | .fcRequest => p.mtFcRequest
  | .fcReport => p.mtFcReport
  | .notReady => p.mtNotReady
  | .errorReport => p.mtErrorReport

/-- The report counterpart (R86): no other type has one. -/
def MessageType.report : MessageType → Option MessageType
  | .hkRequest => some .hkReport
  | .fcRequest => some .fcReport
  | .hkReport => none
  | .fcReport => none
  | .notReady => none
  | .errorReport => none

/-! The eight operations (spec/45_host_protocol.md R149). -/

inductive Operation where
  | getErrorCodes
  | getTemperature
  | executeMeasurement
  | getScenarioStatus
  | getScienceData
  | getMclChanges
  | createScenario (id slot : Byte) (descriptor : List Byte)
  | deleteScenario (id : Byte)
  deriving DecidableEq, Repr

/-- The two request families (R149). -/
inductive Family where
  | housekeeping | functionCall
  deriving DecidableEq, Repr

def Family.requestType : Family → MessageType
  | .housekeeping => .hkRequest
  | .functionCall => .fcRequest

def Family.reportType : Family → MessageType
  | .housekeeping => .hkReport
  | .functionCall => .fcReport

/-- R149's request type of each operation. -/
def Operation.family : Operation → Family
  | .getErrorCodes => .housekeeping
  | .getTemperature => .housekeeping
  | .executeMeasurement => .functionCall
  | .getScenarioStatus => .functionCall
  | .getScienceData => .functionCall
  | .getMclChanges => .functionCall
  | .createScenario _ _ _ => .functionCall
  | .deleteScenario _ => .functionCall

/-- R149's command id of each operation. -/
def Operation.commandId (p : HostParams) : Operation → Byte
  | .getErrorCodes => p.cidErrors
  | .getTemperature => cidTemp
  | .executeMeasurement => p.cidExec
  | .getScenarioStatus => p.cidScenStatus
  | .getScienceData => p.cidScience
  | .getMclChanges => p.cidMcl
  | .createScenario _ _ _ => p.cidScenCreate
  | .deleteScenario _ => p.cidScenDelete

/-- R149's request data, after the command id (R156, R157). -/
def Operation.requestData (p : HostParams) : Operation → List Byte
  | .getErrorCodes => []
  | .getTemperature => []
  | .executeMeasurement => []
  | .getScenarioStatus => []
  | .getScienceData => []
  | .getMclChanges => []
  | .createScenario id slot descriptor => [p.subAdd, id, slot] ++ descriptor
  | .deleteScenario id => [p.subDelete, id]

/-- A scenario's descriptor has its 13 bytes (R156). -/
def Operation.wellFormed : Operation → Bool
  | .createScenario _ _ descriptor => descriptorWellFormed descriptor
  | .getErrorCodes => true
  | .getTemperature => true
  | .executeMeasurement => true
  | .getScenarioStatus => true
  | .getScienceData => true
  | .getMclChanges => true
  | .deleteScenario _ => true

/-- The bytes of an operation's request packet (R161). -/
def Operation.requestSize (p : HostParams) (op : Operation) : Nat := (op.requestData p).length + 6

/-- A configuration that runs an operation whose response maximum is `respMax` (R161). -/
abbrev Operation.Fits (p : HostParams) (z : BufferSizes) (respMax : Nat) (op : Operation) : Prop :=
  op.requestSize p ≤ z.txBytes ∧ respMax ≤ z.rxBytes

/-- The TYPE and ID given to DECODE (R148). -/
def Operation.expectedType (p : HostParams) (op : Operation) : Byte := op.family.reportType.code p

/-- A typed result (R149). -/
inductive TypedResult where
  | errorCodes (codes : List Byte)
  | temperature (value : Int)
  | executedScenario (id : Int)
  | scenarioStatus (status : Int)
  | scienceData (bytes : List Byte) (length : Nat)
  | mclChanges (bytes : List Byte)
  | acknowledgment (value : Nat)
  deriving DecidableEq, Repr

/-- The first byte of the data, or a free value where there is none (U6). -/
def resultByte (draw : Nat) : List Byte → Byte
  | [] => Config.freeResultByte draw
  | b :: _ => b

/-- The count-prefixed list of R150, at most `ERR_MAX` codes, or a free value where the data is too short (U6). -/
def errorCodesOf (errMax draw : Nat) : List Byte → List Byte
  | [] => Config.freeErrorCodes draw
  | count :: codes =>
    if count.toNat ≤ codes.length then (codes.take count.toNat).take errMax else Config.freeErrorCodes draw

/-- R151: the first two bytes of the data, big-endian, or a free value where the data is too short (U6). -/
def temperatureOf (draw : Nat) : List Byte → Half
  | hi :: lo :: _ => pair hi lo
  | [_] => Config.freeTemperature draw
  | [] => Config.freeTemperature draw

/-- The typed result of the operation data of a report (R150 to R157). `draw` numbers the reading for its free
value (assumption log 14). -/
def Operation.resultOf (p : HostParams) (draw : Nat) (data : List Byte) : Operation → TypedResult
  | .getErrorCodes => .errorCodes (errorCodesOf p.errMax draw data)
  | .getTemperature => .temperature (temperatureOf draw data).toInt
  | .executeMeasurement => .executedScenario (resultByte draw data).toInt
  | .getScenarioStatus => .scenarioStatus (resultByte draw data).toInt
  | .getScienceData => .scienceData data data.length
  | .getMclChanges => .mclChanges data
  | .createScenario _ _ _ => .acknowledgment (resultByte draw data).toNat
  | .deleteScenario _ => .acknowledgment (resultByte draw data).toNat

/-- The failure value (R158): 0 or empty. -/
def Operation.sentinel : Operation → TypedResult
  | .getErrorCodes => .errorCodes []
  | .getTemperature => .temperature 0
  | .executeMeasurement => .executedScenario 0
  | .getScenarioStatus => .scenarioStatus 0
  | .getScienceData => .scienceData [] 0
  | .getMclChanges => .mclChanges []
  | .createScenario _ _ _ => .acknowledgment 0
  | .deleteScenario _ => .acknowledgment 0

/-- What a call gives its caller (R158): the typed value, or the Error Flag with the sentinel. -/
inductive CallResult where
  | ok (r : TypedResult)
  | failed (flag : ErrorFlag) (sentinel : TypedResult)
  deriving DecidableEq, Repr

/-! One Command API call as a host program (R146, R147). The locks of its steps 1 and 6 are outside (log 15). -/

/-- Place, frame and send (R147 steps 2 and 3): the host goes on with the `TX[0..TXLEN)` that it reads, TXLEN as it
reads it. -/
def Operation.send {α : Type} (p : HostParams) (op : Operation) (next : List Byte → HostProgram α) : HostProgram α :=
  issueAll (pktFrameEvents (op.family.requestType.code p) (op.commandId p) (op.requestData p))
    (.read (regOffset .txlen) fun n => readBytes txBase 0 n.toNat next)

/-- Receive and deframe (R147 steps 3 and 4): up to `respMax` bytes of the reply, any bytes, are copied to RX from
index 0, and DECODE runs. No transport status is looked at (R160). -/
def Operation.receiveEvents (p : HostParams) (respMax : Nat) (reply : List Byte) (op : Operation) : List PortEvent :=
  rxFillEvents 0 (reply.take respMax) ++
    [cmdWrite (encode (.pktDec (op.expectedType p) (op.commandId p)))]

/-- Extract (R147 step 5): the host reads RESULT, and only where EFLAG is None, RXDLEN and `RX[4..4+RXDLEN)`. -/
def Operation.extract (p : HostParams) (draw : Nat) (op : Operation) : HostProgram CallResult :=
  .read (regOffset .result) fun r =>
    match errorFlagOf (r.extractLsb' 0 2) with
    | .none =>
      .read (regOffset .rxdlen) fun len =>
        readBytes rxBase 4 len.toNat fun data => .done (.ok (op.resultOf p draw data))
    | .checksumError => .done (.failed .checksumError op.sentinel)
    | .communicationError => .done (.failed .communicationError op.sentinel)
    | .notReady => .done (.failed .notReady op.sentinel)

/-- One Command API call: one request and one response attempt, no retry (R147, R159). `exchange` is the Transport
Port with the device behind it: what comes back for the request bytes, under no law (R145). -/
def Operation.call (p : HostParams) (respMax draw : Nat) (exchange : List Byte → List Byte) (op : Operation) :
    HostProgram CallResult :=
  op.send p fun request => issueAll (op.receiveEvents p respMax (exchange request)) (op.extract p draw)

/-! The same results read off the state, for what the claims say of a call. -/

/-- The operation data of the decoded report, `RX[4..4+RXDLEN)` (R146). -/
def State.payload (s : State) : List Byte := s.rxBytesFrom 4 s.rxdlen.toNat

/-- The typed result of what RX and RXDLEN hold. -/
def Operation.typedResult (p : HostParams) (draw : Nat) (s : State) (op : Operation) : TypedResult :=
  op.resultOf p draw s.payload

/-- The result of a call, read after its DECODE: EFLAG first (R146, R158). -/
def Operation.callResult (p : HostParams) (draw : Nat) (s : State) (op : Operation) : CallResult :=
  match s.eflag with
  | .none => .ok (op.typedResult p draw s)
  | .checksumError => .failed .checksumError op.sentinel
  | .communicationError => .failed .communicationError op.sentinel
  | .notReady => .failed .notReady op.sentinel

end Sys2Proof.Machine
end

