-- ==== Sys2Proof/Safety.lean ====
section
/-! DEFINITION. What the claims speak of: the invariant of the machine, the accesses the port serves, and the
bit patterns and written sets the spec's laws name. -/

namespace Sys2Proof.Machine

/-- The invariant of the machine: it holds at reset and every step keeps it. -/
structure State.Inv (s : State) : Prop where
  /-- spec/00_scope.md R6. -/
  sizesLegal : s.sizes.Legal
  /-- The buffers are in their canonical form and inside their sizes (spec/20_memory.md R67). -/
  txCanonical : s.tx.wf = true
  txWithin : s.tx.within s.sizes.txBytes = true
  rxCanonical : s.rx.wf = true
  rxWithin : s.rx.within s.sizes.rxBytes = true
  /-- spec/10_state.md R31, spec/43_deframer.md R130. -/
  notReadyNever : s.eflag ≠ .notReady
  /-- spec/10_state.md R32. -/
  lenbadRefinesChecksum : s.lenbad = true → s.eflag = .checksumError
  /-- spec/10_state.md R28: RXDLEN is 0 after any DECODE whose EFLAG is not None. -/
  dlenZeroOnFailure : s.eflag ≠ .none → s.rxdlen = 0#16
  /-- spec/10_state.md R28, R29: after a successful DECODE, RXDLEN = RXDECL - 3; before any DECODE both are 0. -/
  dlenOfDeclared : s.eflag = .none →
    s.rxdlen.toNat + 3 = s.rxdecl.toNat ∨ (s.rxdlen = 0#16 ∧ s.rxdecl = 0#16)
  /-- The usable data lies inside RX. -/
  dlenFits : s.rxdlen.toNat + 6 ≤ s.sizes.rxBytes
  /-- spec/10_state.md R27: no packet yet, or the total of one that fits TX. -/
  txlenFits : s.txlen = 0#16 ∨ (6 ≤ s.txlen.toNat ∧ s.txlen.toNat ≤ s.sizes.txBytes)

/-- The mapped ranges of spec/20_memory.md R46. -/
abbrev Mapped (z : BufferSizes) (offset : Nat) : Prop :=
  offset ≤ 0x00027 ∨ (0x00400 ≤ offset ∧ offset ≤ 0x007FF) ∨
    (0x10000 ≤ offset ∧ offset ≤ 0x10000 + 4 * z.txBytes - 1) ∨
    (0x20000 ≤ offset ∧ offset ≤ 0x20000 + 4 * z.rxBytes - 1)

/-- The accesses the port serves (spec/20_memory.md R51). -/
abbrev Servable (z : BufferSizes) (width offset : Nat) : Prop :=
  width = 32 ∧ offset % 4 = 0 ∧ Mapped z offset

/-- The width and the offset of an access. -/
def Access.width : Access → Nat
  | .read w _ => w
  | .write w _ _ => w

def Access.offset : Access → Nat
  | .read _ o => o
  | .write _ o _ => o

/-- A safe next step: the oldest pending event, if there is one, is a reset or an access that the port serves. -/
def State.Safe (s : State) : Prop :=
  ∀ a rest, s.pending = .access a :: rest → Servable s.sizes a.width a.offset

/-- `A xor B`, byte by byte (spec/40_crc_engine.md R98). -/
def xorBytes (a b : List Byte) : List Byte := List.zipWith (· ^^^ ·) a b

/-- How many bits of a byte are 1. -/
def byteWeight (b : Byte) : Nat := ((List.range 8).filter fun k => b.getLsbD k).length

/-- How many bits of an error pattern are 1 (spec/40_crc_engine.md R100). -/
def weight (e : List Byte) : Nat := (e.map byteWeight).sum

/-- The states agree on everything but the six flags (spec/10_state.md R40). -/
structure SameButFlags (s t : State) : Prop where
  sizes : t.sizes = s.sizes
  crc : t.crc = s.crc
  txplen : t.txplen = s.txplen
  txlen : t.txlen = s.txlen
  rxdlen : t.rxdlen = s.rxdlen
  rxdecl : t.rxdecl = s.rxdecl
  errcmd : t.errcmd = s.errcmd
  tx : t.tx = s.tx
  rx : t.rx = s.rx
  resets : t.resets = s.resets
  pending : t.pending = s.pending
  reads : t.reads = s.reads

/-- `n` steps, stopping at the first fault or refusal. -/
def runSteps : Nat → State → Host.Outcome State Fault Refusal
  | 0, s => .next s
  | n + 1, s =>
    match step s with
    | .next t => runSteps n t
    | .fault f => .fault f
    | .refused r => .refused r

/-- The next event is the reset input. -/
def State.NextIsReset (s : State) : Prop := ∃ rest, s.pending = .reset :: rest

/-- The next event is a served write of `v` at an offset. -/
def State.NextWrites (s : State) (offset : Nat) (v : Word) : Prop :=
  ∃ rest, s.pending = .access (.write 32 offset v) :: rest

/-- The next event runs a command: a write to CMD of a legal word. -/
def State.NextRuns (s : State) (i : Instr) : Prop := ∃ w, s.NextWrites 0x000 w ∧ decode w = .command i

/-- The range checks of spec/60_exceptions.md R171, which a legal command word may still fail. -/
def OutOfRange (s : State) : Instr → Prop
  | .crcInit => False
  | .crcByte _ => False
  | .trlGen k => s.sizes.txBytes < k.toNat + 2
  | .trlChk k => k.toNat < 2 ∨ s.sizes.rxBytes < k.toNat
  | .pktEnc _ _ => s.sizes.txBytes < s.txplen.toNat + 6
  | .pktDec _ _ => False

/-- The opcodes that the map leaves unassigned (spec/30_encoding.md R74). -/
abbrev UnassignedOp (w : Word) : Prop := (w.extractLsb' 0 8) = 0x00#8 ∨ 7 ≤ (w.extractLsb' 0 8).toNat

/-- A word with an assigned opcode and a 1 in a reserved bit of its format (spec/30_encoding.md R71, R78). -/
abbrev ReservedBitSet (w : Word) : Prop :=
  (w.extractLsb' 0 8 = 0x01#8 ∧ w.extractLsb' 8 24 ≠ 0#24) ∨
  (w.extractLsb' 0 8 = 0x02#8 ∧ w.extractLsb' 16 16 ≠ 0#16) ∨
  (w.extractLsb' 0 8 = 0x03#8 ∧ w.extractLsb' 8 8 ≠ 0#8) ∨
  (w.extractLsb' 0 8 = 0x04#8 ∧ w.extractLsb' 8 8 ≠ 0#8) ∨
  (w.extractLsb' 0 8 = 0x05#8 ∧ w.extractLsb' 24 8 ≠ 0#8) ∨
  (w.extractLsb' 0 8 = 0x06#8 ∧ w.extractLsb' 24 8 ≠ 0#8)

/-- A word written to CMD in this state is rejected (spec/60_exceptions.md R171). -/
def Rejected (s : State) (w : Word) : Prop :=
  (∃ c, decode w = .rejected c) ∨ ∃ i, decode w = .command i ∧ OutOfRange s i

/-- Every register at the reset value of spec/70_reset_and_hazards.md R190. -/
structure AtReset (s : State) : Prop where
  crc : s.crc = 0x0000#16
  txplen : s.txplen = 0x0000#16
  txlen : s.txlen = 0x0000#16
  rxdlen : s.rxdlen = 0x0000#16
  rxdecl : s.rxdecl = 0x0000#16
  eflag : errorFlagCode s.eflag = 0b00#2
  lenbad : s.lenbad = false
  chkok : s.chkok = false
  errOpc : s.errOpc = false
  errRsv : s.errRsv = false
  errRange : s.errRange = false
  errcmd : s.errcmd = 0x00000000#32

end Sys2Proof.Machine
end

