-- ==== Sys2Proof/Certificates/Slice0/Obligations.lean ====
section
/-! DEFINITION. The statements for the provers, by the numbered rules of spec/. -/

open Sys2Proof Sys2Proof.Machine

/-! The command word (spec/30_encoding.md). -/

/-- Decoding the word of any command, every operand at every value, gives that command back. -/
def Obligations.DecodeOfEncodeIsTheCommand : Prop :=
  ∀ i : Instr, i.wellFormed = true ∧ decode (encode i) = .command i

/-- A legal word is the word of its command: no bit of it is dropped. -/
def Obligations.EncodeOfDecodedWordIsTheWord : Prop :=
  ∀ (w : Word) (i : Instr), decode w = .command i → encode i = w

/-- R72: OP and every operand are these unsigned bit-slices of the word. -/
def Obligations.OperandsAreTheBitSlicesOfTheWord : Prop :=
  (∀ w, decode w = .command .crcInit → w.extractLsb' 0 8 = 0x01#8) ∧
  (∀ w b, decode w = .command (.crcByte b) → w.extractLsb' 0 8 = 0x02#8 ∧ b = w.extractLsb' 8 8) ∧
  (∀ w k, decode w = .command (.trlGen k) → w.extractLsb' 0 8 = 0x03#8 ∧ k = w.extractLsb' 16 16) ∧
  (∀ w k, decode w = .command (.trlChk k) → w.extractLsb' 0 8 = 0x04#8 ∧ k = w.extractLsb' 16 16) ∧
  (∀ w t d, decode w = .command (.pktEnc t d) →
    w.extractLsb' 0 8 = 0x05#8 ∧ t = w.extractLsb' 8 8 ∧ d = w.extractLsb' 16 8) ∧
  (∀ w t d, decode w = .command (.pktDec t d) →
    w.extractLsb' 0 8 = 0x06#8 ∧ t = w.extractLsb' 8 8 ∧ d = w.extractLsb' 16 8)

/-- R74: the opcode map, as match and mask over the whole word, and the unassigned opcodes. -/
def Obligations.LegalWordsAreTheRowsOfTheOpcodeMap : Prop :=
  ∀ w : Word,
    (decode w = .command .crcInit ↔ w &&& 0xFFFFFFFF#32 = 0x00000001#32) ∧
    ((∃ b, decode w = .command (.crcByte b)) ↔ w &&& 0xFFFF00FF#32 = 0x00000002#32) ∧
    ((∃ k, decode w = .command (.trlGen k)) ↔ w &&& 0x0000FFFF#32 = 0x00000003#32) ∧
    ((∃ k, decode w = .command (.trlChk k)) ↔ w &&& 0x0000FFFF#32 = 0x00000004#32) ∧
    ((∃ t d, decode w = .command (.pktEnc t d)) ↔ w &&& 0xFF0000FF#32 = 0x00000005#32) ∧
    ((∃ t d, decode w = .command (.pktDec t d)) ↔ w &&& 0xFF0000FF#32 = 0x00000006#32) ∧
    (decode w = .rejected .eOpc ↔ UnassignedOp w) ∧
    (decode w = .rejected .eRsv ↔ ReservedBitSet w)

/-- R77: a word with OP 0x00 or 0x07 to 0xFF raises CmdError(E_OPC); every word is legal or rejected. -/
def Obligations.UnassignedOpcodeRaisesEOpc : Prop :=
  (∀ (w : Word) (s : State), UnassignedOp w →
    runCommandWord w s = .next { s with errOpc := true, errcmd := w }) ∧
  (∀ w : Word, (∃ i, decode w = .command i ∧ encode i = w) ∨ decode w = .rejected .eOpc ∨
    decode w = .rejected .eRsv)

/-- R78: a word with an assigned OP and a reserved bit of its format set raises CmdError(E_RSV). -/
def Obligations.ReservedBitRaisesERsv : Prop :=
  ∀ (w : Word) (s : State), ReservedBitSet w →
    runCommandWord w s = .next { s with errRsv := true, errcmd := w }

/-- R79: the word each line of assembler emits, and none for an operand outside its range. -/
def Obligations.AssemblerEmitsTheWordsOfItsSyntax : Prop :=
  assemble .crcInit = some 0x00000001#32 ∧
  (∀ b, assemble (.crcByte b) = if b ≤ 255 then some (BitVec.ofNat 32 ((b <<< 8) ||| 0x02)) else none) ∧
  (∀ k, assemble (.trlGen k) = if k ≤ 65535 then some (BitVec.ofNat 32 ((k <<< 16) ||| 0x03)) else none) ∧
  (∀ k, assemble (.trlChk k) = if k ≤ 65535 then some (BitVec.ofNat 32 ((k <<< 16) ||| 0x04)) else none) ∧
  (∀ t i, assemble (.pktEnc t i) =
    if t ≤ 255 ∧ i ≤ 255 then some (BitVec.ofNat 32 ((i <<< 16) ||| (t <<< 8) ||| 0x05)) else none) ∧
  (∀ t i, assemble (.pktDec t i) =
    if t ≤ 255 ∧ i ≤ 255 then some (BitVec.ofNat 32 ((i <<< 16) ||| (t <<< 8) ||| 0x06)) else none) ∧
  (∀ w, assemble (.cmd w) = if w < 2 ^ 32 then some (BitVec.ofNat 32 w) else none)

/-- A few words written out from the spec's encodings, one of each command and one of each rejection. -/
def Obligations.WordsOfTheSpecDecode : Prop :=
  decode 0x00000001#32 = .command .crcInit ∧
  decode 0x00000102#32 = .command (.crcByte 0x01#8) ∧
  decode 0x00040003#32 = .command (.trlGen 4#16) ∧
  decode 0x00060004#32 = .command (.trlChk 6#16) ∧
  decode 0x00220205#32 = .command (.pktEnc 0x02#8 0x22#8) ∧
  decode 0x00220306#32 = .command (.pktDec 0x03#8 0x22#8) ∧
  decode 0x00000007#32 = .rejected .eOpc ∧
  decode 0x01000005#32 = .rejected .eRsv

/-! The CRC functions (spec/40_crc_engine.md). -/

/-- R91: the CRC of a byte sequence, from 0x0000, one `crc_step` a byte, in order. -/
def Obligations.CrcAppliesTheStepToEachByte : Prop :=
  crc16 [] = 0x0000#16 ∧ (∀ (bs : List Byte) (b : Byte), crc16 (bs ++ [b]) = crcStep (crc16 bs) b) ∧
  ∀ bs : List Byte, crc16 bs = bs.foldl crcStep 0x0000#16

/-- R92: the table form equals the bit-serial form. -/
def Obligations.TableFormEqualsBitSerialForm : Prop :=
  ∀ bs : List Byte, crc16 bs = crcSerial bs

/-- R95: appending the CRC big-endian gives remainder zero. -/
def Obligations.AppendedCrcVerifies : Prop :=
  ∀ bs : List Byte, crc16 (bs ++ [(crc16 bs).extractLsb' 8 8, (crc16 bs).extractLsb' 0 8]) = 0x0000#16

/-- R96: the remainder over the whole packet is zero exactly when the trailer is the CRC of what precedes it. -/
def Obligations.ZeroRemainderIsTrailerMatch : Prop :=
  ∀ p : List Byte, 2 ≤ p.length →
    (crc16 p = 0x0000#16 ↔
      crc16 (p.take (p.length - 2)) = pair (p.getD (p.length - 2) 0#8) (p.getD (p.length - 1) 0#8))

/-- R97: a run of CRC_BYTE commands folds its bytes in, from whatever CRC holds; after CRC_INIT it gives `crc16`. -/
def Obligations.CrcByteRunFoldsTheBytes : Prop :=
  (∀ (s : State) (bs : List Byte) (rest : List PortEvent), s.sizes.Legal →
    s.pending = crcBytesEvents bs ++ rest →
    runSteps bs.length s = .next { s with crc := bs.foldl crcStep s.crc, pending := rest }) ∧
  (∀ (s : State) (bs : List Byte) (rest : List PortEvent), s.sizes.Legal →
    s.pending = crcSeqEvents bs ++ rest →
    runSteps (bs.length + 1) s = .next { s with crc := crc16 bs, pending := rest }) ∧
  (∀ a b : List Byte, crc16 (a ++ b) = b.foldl crcStep (crc16 a)) ∧
  (∀ z : BufferSizes, (State.resetWith z).crc = 0x0000#16)

/-- R98: the table and the CRC are linear. -/
def Obligations.CrcIsLinear : Prop :=
  (∀ i j : Byte, tableEntry (i ^^^ j) = tableEntry i ^^^ tableEntry j) ∧
  (∀ a b : List Byte, a.length = b.length → crc16 (xorBytes a b) = crc16 a ^^^ crc16 b)

/-- R99: zero bytes. Leading zeros do not change a CRC, zeros have CRC zero, and a zero region passes TRAILER_CHK. -/
def Obligations.ZeroBytesLeaveTheCrcZero : Prop :=
  tableEntry 0x00#8 = 0x0000#16 ∧ crcStep 0x0000#16 0x00#8 = 0x0000#16 ∧
  (∀ (n : Nat) (bs : List Byte), crc16 (List.replicate n 0x00#8 ++ bs) = crc16 bs) ∧
  (∀ n : Nat, crc16 (List.replicate n 0x00#8) = 0x0000#16) ∧
  (∀ (k : Half) (s : State), 2 ≤ k.toNat → k.toNat ≤ s.sizes.rxBytes →
    (∀ i, i < k.toNat → s.rxByte i = 0x00#8) →
    exec (.trlChk k) s = .next { s with crc := 0x0000#16, chkok := true })

/-- R100: flipping one bit of a well-formed packet is always detected, and so is every odd number of flips. -/
def Obligations.OddBitErrorsAreDetected : Prop :=
  (∀ (p : List Byte) (j k : Nat) (h : j < p.length), k < 8 → crc16 p = 0x0000#16 →
    crc16 (p.set j (p[j] ^^^ (0x01#8 <<< k))) ≠ 0x0000#16) ∧
  (∀ p e : List Byte, p.length = e.length → crc16 p = 0x0000#16 → weight e % 2 = 1 →
    crc16 (xorBytes p e) ≠ 0x0000#16)

/-- R101: the check value. -/
def Obligations.CheckValueOfTheNineDigits : Prop :=
  crc16 [0x31#8, 0x32#8, 0x33#8, 0x34#8, 0x35#8, 0x36#8, 0x37#8, 0x38#8, 0x39#8] = 0xFEE8#16

/-! The six commands. -/

/-- R93: CRC_INIT. The next state is written out, so all else is unchanged. -/
def Obligations.CrcInitLoadsZero : Prop :=
  (∀ s : State, exec .crcInit s = .next { s with crc := 0x0000#16 }) ∧
  (∀ w : Word, decode w = .command .crcInit ↔ w = 0x00000001#32) ∧
  (∀ w : Word, w.extractLsb' 0 8 = 0x01#8 → w.extractLsb' 8 24 ≠ 0#24 → decode w = .rejected .eRsv)

/-- R94, R90: CRC_BYTE. Only CRC changes, in every state. -/
def Obligations.CrcByteFoldsOneByte : Prop :=
  (∀ (b : Byte) (s : State), exec (.crcByte b) s =
    .next { s with crc := tableEntry (b ^^^ s.crc.extractLsb' 8 8) ^^^ BitVec.ofNat 16 (s.crc.toNat * 256) }) ∧
  (∀ w : Word, w &&& 0xFFFF00FF#32 = 0x00000002#32 → decode w = .command (.crcByte (w.extractLsb' 8 8))) ∧
  (∀ w : Word, w.extractLsb' 0 8 = 0x02#8 → w.extractLsb' 16 16 ≠ 0#16 → decode w = .rejected .eRsv)

/-- R105: TRAILER_GEN, with its frame: every TX byte but the two of the trailer, and every field but TX and CRC (and
so all of RX), is unchanged. -/
def Obligations.TrailerGenAppendsTheCrc : Prop :=
  (∀ (k : Half) (s : State), k.toNat + 2 ≤ s.sizes.txBytes →
    ∃ t, exec (.trlGen k) s = .next t ∧
      t.crc = crc16 (s.txBytesFrom 0 k.toNat) ∧
      t.txByte k.toNat = t.crc.extractLsb' 8 8 ∧
      t.txByte (k.toNat + 1) = t.crc.extractLsb' 0 8 ∧
      (∀ i, i ≠ k.toNat → i ≠ k.toNat + 1 → t.txByte i = s.txByte i) ∧
      (∀ i, t.rxByte i = s.rxByte i) ∧
      t = { s with tx := t.tx, crc := t.crc }) ∧
  (∀ (k : Half) (s : State), s.sizes.txBytes < k.toNat + 2 →
    exec (.trlGen k) s = .next { s with errRange := true, errcmd := encode (.trlGen k) }) ∧
  (∀ w : Word, w &&& 0x0000FFFF#32 = 0x00000003#32 → decode w = .command (.trlGen (w.extractLsb' 16 16))) ∧
  (∀ w : Word, w.extractLsb' 0 8 = 0x03#8 → w.extractLsb' 8 8 ≠ 0#8 → decode w = .rejected .eRsv)

/-- R106: TRAILER_CHK, with its frame: the next state is written out. -/
def Obligations.TrailerChkReportsTheRemainder : Prop :=
  (∀ (k : Half) (s : State), 2 ≤ k.toNat → k.toNat ≤ s.sizes.rxBytes →
    exec (.trlChk k) s = .next { s with
      crc := crc16 (s.rxBytesFrom 0 k.toNat),
      chkok := decide (crc16 (s.rxBytesFrom 0 k.toNat) = 0x0000#16) }) ∧
  (∀ (k : Half) (s : State), k.toNat < 2 ∨ s.sizes.rxBytes < k.toNat →
    exec (.trlChk k) s = .next { s with errRange := true, errcmd := encode (.trlChk k) }) ∧
  (∀ w : Word, w &&& 0x0000FFFF#32 = 0x00000004#32 → decode w = .command (.trlChk (w.extractLsb' 16 16))) ∧
  (∀ w : Word, w.extractLsb' 0 8 = 0x04#8 → w.extractLsb' 8 8 ≠ 0#8 → decode w = .rejected .eRsv) ∧
  (∀ (k : Half) (s : State), 2 ≤ k.toNat →
    (crc16 (s.rxBytesFrom 0 k.toNat) = 0x0000#16 ↔
      pair (s.rxByte (k.toNat - 2)) (s.rxByte (k.toNat - 1)) = crc16 (s.rxBytesFrom 0 (k.toNat - 2))))

/-- The spec's own inferences on a generated trailer ("Afterwards `crc16(TX[0..k+2)) = 0x0000`", and "TRAILER_GEN and
TRAILER_CHK are inverses across a faithful copy"): its bytes and the trailer have remainder zero, a faithful copy passes
TRAILER_CHK, and a copy with exactly one bit changed fails it. -/
def Obligations.TrailerChkAcceptsACopyAndDetectsOneChangedBit : Prop :=
  ∀ (k : Half) (s t u : State), k.toNat + 2 ≤ s.sizes.txBytes → exec (.trlGen k) s = .next t →
    u.sizes.Legal → k.toNat + 2 ≤ u.sizes.rxBytes →
    crc16 (t.txBytesFrom 0 (k.toNat + 2)) = 0x0000#16 ∧
    ((∀ i, i < k.toNat + 2 → u.rxByte i = t.txByte i) →
      exec (.trlChk (k + 2#16)) u = .next { u with crc := 0x0000#16, chkok := true }) ∧
    (∀ j b, j < k.toNat + 2 → b < 8 →
      (∀ i, i < k.toNat + 2 → u.rxByte i = if i = j then t.txByte i ^^^ (0x01#8 <<< b) else t.txByte i) →
      ∃ v, exec (.trlChk (k + 2#16)) u = .next v ∧ v.chkok = false)

/-- R115: ENCODE, with its frame: every TX byte but the head and the trailer, and every field but TX, CRC and TXLEN
(and so all of RX), is unchanged. -/
def Obligations.EncodeFramesThePacket : Prop :=
  (∀ (ty id : Byte) (s : State), s.sizes.Legal → s.txplen.toNat + 6 ≤ s.sizes.txBytes →
    ∃ t, exec (.pktEnc ty id) s = .next t ∧
      t.txByte 0 = ty ∧
      t.txByte 1 = (BitVec.ofNat 16 (s.txplen.toNat + 3)).extractLsb' 8 8 ∧
      t.txByte 2 = (BitVec.ofNat 16 (s.txplen.toNat + 3)).extractLsb' 0 8 ∧
      t.txByte 3 = id ∧
      t.crc = crc16 (t.txBytesFrom 0 (4 + s.txplen.toNat)) ∧
      t.txByte (4 + s.txplen.toNat) = t.crc.extractLsb' 8 8 ∧
      t.txByte (5 + s.txplen.toNat) = t.crc.extractLsb' 0 8 ∧
      t.txlen.toNat = s.txplen.toNat + 6 ∧
      (∀ i, 4 ≤ i → i < 4 + s.txplen.toNat → t.txByte i = s.txByte i) ∧
      (∀ i, s.txplen.toNat + 6 ≤ i → t.txByte i = s.txByte i) ∧
      (∀ i, t.rxByte i = s.rxByte i) ∧
      t = { s with tx := t.tx, crc := t.crc, txlen := t.txlen }) ∧
  (∀ (ty id : Byte) (s : State), s.sizes.txBytes < s.txplen.toNat + 6 →
    exec (.pktEnc ty id) s = .next { s with errRange := true, errcmd := encode (.pktEnc ty id) }) ∧
  (∀ w : Word, w &&& 0xFF0000FF#32 = 0x00000005#32 →
    decode w = .command (.pktEnc (w.extractLsb' 8 8) (w.extractLsb' 16 8))) ∧
  (∀ w : Word, w.extractLsb' 0 8 = 0x05#8 → w.extractLsb' 24 8 ≠ 0#8 → decode w = .rejected .eRsv)

/-- R116: ENCODE's output is a well-formed packet, which passes TRAILER_CHK and DECODE once it is copied to RX. -/
def Obligations.EncodeOutputIsAWellFormedPacket : Prop :=
  ∀ (ty id : Byte) (s t : State), s.sizes.Legal → s.txplen.toNat + 6 ≤ s.sizes.txBytes →
    exec (.pktEnc ty id) s = .next t →
    t.txBytesFrom 0 t.txlen.toNat = packetBytes ty id (s.txBytesFrom 4 s.txplen.toNat) ∧
    (pair (t.txByte 1) (t.txByte 2)).toNat + 3 = t.txlen.toNat ∧
    crc16 (t.txBytesFrom 0 t.txlen.toNat) = 0x0000#16 ∧
    t.crc = pair (t.txByte (t.txlen.toNat - 2)) (t.txByte (t.txlen.toNat - 1)) ∧
    (∀ u : State, t.txlen.toNat ≤ u.sizes.rxBytes →
      (∀ i, i < t.txlen.toNat → u.rxByte i = t.txByte i) →
      exec (.trlChk t.txlen) u = .next { u with crc := 0x0000#16, chkok := true } ∧
      ∃ v, exec (.pktDec ty id) u = .next v ∧ v.eflag = .none)

/-- R125, with its frame: each next state is written out, so CHKOK, TXLEN, TX and RX are unchanged, and CRC but on
the checksum path. No form of DECODE raises E_RANGE. -/
def Obligations.DecodeReportsTheVerdict : Prop :=
  (∀ (ty id : Byte) (s : State), s.rxByte 0 ≠ ty ∨ s.rxByte 3 ≠ id →
    exec (.pktDec ty id) s = .next { s with
      rxdecl := pair (s.rxByte 1) (s.rxByte 2), eflag := .communicationError, lenbad := false, rxdlen := 0#16 }) ∧
  (∀ (ty id : Byte) (s : State) (l : Half), l = pair (s.rxByte 1) (s.rxByte 2) →
    s.rxByte 0 = ty → s.rxByte 3 = id → l.toNat < 3 ∨ s.sizes.rxBytes < l.toNat + 3 →
    exec (.pktDec ty id) s = .next { s with
      rxdecl := l, eflag := .checksumError, lenbad := true, rxdlen := 0#16 }) ∧
  (∀ (ty id : Byte) (s : State) (l c : Half), l = pair (s.rxByte 1) (s.rxByte 2) →
    c = crc16 (s.rxBytesFrom 0 (l.toNat + 3)) →
    s.rxByte 0 = ty → s.rxByte 3 = id → 3 ≤ l.toNat → l.toNat + 3 ≤ s.sizes.rxBytes → c ≠ 0x0000#16 →
    exec (.pktDec ty id) s = .next { s with
      rxdecl := l, eflag := .checksumError, lenbad := false, rxdlen := 0#16, crc := c }) ∧
  (∀ (ty id : Byte) (s : State) (l : Half), l = pair (s.rxByte 1) (s.rxByte 2) →
    crc16 (s.rxBytesFrom 0 (l.toNat + 3)) = 0x0000#16 →
    s.rxByte 0 = ty → s.rxByte 3 = id → 3 ≤ l.toNat → l.toNat + 3 ≤ s.sizes.rxBytes →
    exec (.pktDec ty id) s = .next { s with
      rxdecl := l, eflag := .none, lenbad := false, rxdlen := BitVec.ofNat 16 (l.toNat - 3), crc := 0x0000#16 }) ∧
  (∀ w : Word, w &&& 0xFF0000FF#32 = 0x00000006#32 →
    decode w = .command (.pktDec (w.extractLsb' 8 8) (w.extractLsb' 16 8))) ∧
  (∀ w : Word, w.extractLsb' 0 8 = 0x06#8 → w.extractLsb' 24 8 ≠ 0#8 → decode w = .rejected .eRsv)

/-- R126: a type or id mismatch is CommunicationError whatever else the packet holds, its length and checksum too. -/
def Obligations.MismatchIsCommunicationErrorWhateverTheChecksum : Prop :=
  ∀ (ty id : Byte) (s : State),
    ∃ t, exec (.pktDec ty id) s = .next t ∧
      (t.eflag = .communicationError ↔ (s.rxByte 0 ≠ ty ∨ s.rxByte 3 ≠ id))

/-- R128: on the checksum path, None is reported exactly when the trailer at `RX[L+1..L+3)` is the CRC of
`RX[0..L+1)`, and the remainder is left in CRC. -/
def Obligations.DecodeAcceptsExactlyAMatchingTrailer : Prop :=
  ∀ (ty id : Byte) (s : State) (l : Half), l = pair (s.rxByte 1) (s.rxByte 2) →
    s.rxByte 0 = ty → s.rxByte 3 = id → 3 ≤ l.toNat → l.toNat + 3 ≤ s.sizes.rxBytes →
    ∃ t, exec (.pktDec ty id) s = .next t ∧ t.crc = crc16 (s.rxBytesFrom 0 (l.toNat + 3)) ∧
      (t.eflag = .none ∨ t.eflag = .checksumError) ∧
      (t.eflag = .none ↔
        pair (s.rxByte (l.toNat + 1)) (s.rxByte (l.toNat + 2)) = crc16 (s.rxBytesFrom 0 (l.toNat + 1)))

/-- R130: DECODE never writes NotReady, whatever TYPE and ID it is given, and the host never reads 0b11. -/
def Obligations.DecodeNeverReportsNotReady : Prop :=
  ∀ (ty id : Byte) (s : State), ∃ t, exec (.pktDec ty id) s = .next t ∧ t.eflag ≠ .notReady ∧
    (t.regWord .result).extractLsb' 0 2 ≠ 0b11#2

/-- R134: DECODE's results depend only on TYPE, ID, `RX[0..4)` and, on the checksum path, `RX[0..L+3)`. -/
def Obligations.DecodeReadsOnlyThePacket : Prop :=
  ∀ (ty id : Byte) (s u : State), u.sizes = s.sizes → u.crc = s.crc →
    (∀ i, i < 4 → u.rxByte i = s.rxByte i) →
    (s.rxByte 0 = ty → s.rxByte 3 = id → 3 ≤ (pair (s.rxByte 1) (s.rxByte 2)).toNat →
      (pair (s.rxByte 1) (s.rxByte 2)).toNat + 3 ≤ s.sizes.rxBytes →
      ∀ i, i < (pair (s.rxByte 1) (s.rxByte 2)).toNat + 3 → u.rxByte i = s.rxByte i) →
    ∃ t v, exec (.pktDec ty id) s = .next t ∧ exec (.pktDec ty id) u = .next v ∧
      v.eflag = t.eflag ∧ v.lenbad = t.lenbad ∧ v.rxdlen = t.rxdlen ∧ v.rxdecl = t.rxdecl ∧ v.crc = t.crc

/-- R133: what ENCODE frames, copied to RX, DECODE gives back. -/
def Obligations.DecodeRecoversWhatEncodeFramed : Prop :=
  ∀ (ty id : Byte) (s t u : State), s.sizes.Legal → s.txplen.toNat + 6 ≤ s.sizes.txBytes →
    exec (.pktEnc ty id) s = .next t →
    s.txplen.toNat + 6 ≤ u.sizes.rxBytes → (∀ i, i < t.txlen.toNat → u.rxByte i = t.txByte i) →
    ∃ v, exec (.pktDec ty id) u = .next v ∧ v.eflag = .none ∧ v.rxdlen = s.txplen ∧
      v.rxBytesFrom 4 s.txplen.toNat = s.txBytesFrom 4 s.txplen.toNat

/-- TRAILER_GEN and ENCODE run twice leave what they left the first time: every byte and every field. -/
def Obligations.FramingTwiceIsFramingOnce : Prop :=
  (∀ (k : Half) (s t : State), k.toNat + 2 ≤ s.sizes.txBytes → exec (.trlGen k) s = .next t →
    ∃ u, exec (.trlGen k) t = .next u ∧ (∀ i, u.txByte i = t.txByte i) ∧ u = { t with tx := u.tx }) ∧
  (∀ (ty id : Byte) (s t : State), s.sizes.Legal → s.txplen.toNat + 6 ≤ s.sizes.txBytes →
    exec (.pktEnc ty id) s = .next t →
    ∃ u, exec (.pktEnc ty id) t = .next u ∧ (∀ i, u.txByte i = t.txByte i) ∧ u = { t with tx := u.tx })

/-! Command errors and flags (spec/60_exceptions.md, spec/10_state.md). -/

/-- R170, R171: a write to CMD that is rejected, for any cause, sets the cause's ERR bit, records the word, and changes
nothing else of the block; the host's write completes. -/
def Obligations.RejectionWritesOnlyErrAndErrcmd : Prop :=
  ∀ (s : State) (w : Word) (rest : List PortEvent), s.sizes.Legal →
    s.pending = .access (.write 32 0x000 w) :: rest →
    (UnassignedOp w → step s = .next { s with pending := rest, errOpc := true, errcmd := w }) ∧
    (ReservedBitSet w → step s = .next { s with pending := rest, errRsv := true, errcmd := w }) ∧
    (∀ k, decode w = .command (.trlGen k) → s.sizes.txBytes < k.toNat + 2 →
      step s = .next { s with pending := rest, errRange := true, errcmd := w }) ∧
    (∀ k, decode w = .command (.trlChk k) → k.toNat < 2 ∨ s.sizes.rxBytes < k.toNat →
      step s = .next { s with pending := rest, errRange := true, errcmd := w }) ∧
    (∀ t d, decode w = .command (.pktEnc t d) → s.sizes.txBytes < s.txplen.toNat + 6 →
      step s = .next { s with pending := rest, errRange := true, errcmd := w }) ∧
    (∀ i t, decode w = .command i → ¬ OutOfRange s i → step s = .next t →
      t.errOpc = s.errOpc ∧ t.errRsv = s.errRsv ∧ t.errRange = s.errRange ∧ t.errcmd = s.errcmd)

/-- R172: from a clear ERR, the bit that a word sets is that of the first cause that applies, and no other. -/
def Obligations.ExactlyTheFirstCauseIsReported : Prop :=
  ∀ (w : Word) (s t : State), s.errOpc = false → s.errRsv = false → s.errRange = false →
    runCommandWord w s = .next t →
    (t.errOpc = true ↔ UnassignedOp w) ∧
    (t.errRsv = true ↔ ¬ UnassignedOp w ∧ ReservedBitSet w) ∧
    (t.errRange = true ↔ ¬ UnassignedOp w ∧ ¬ ReservedBitSet w ∧ ∃ i, decode w = .command i ∧ OutOfRange s i)

/-- R177: an ERR bit stays set until a write to ERR clears it or until reset, and ERRCMD stays until the next
rejection or reset. A rejection sets its own bit, leaves the bits already set, and overwrites ERRCMD. A set bit stops
no command: what a legal word does to everything but ERR does not depend on ERR. -/
def Obligations.ErrorsAreStickyAndNeverBlock : Prop :=
  (∀ s t : State, step s = .next t → ¬ s.NextIsReset →
    ((∀ v, ¬ s.NextWrites 0x01C v) →
      (s.errOpc = true → t.errOpc = true) ∧ (s.errRsv = true → t.errRsv = true) ∧
      (s.errRange = true → t.errRange = true)) ∧
    ((∀ w, s.NextWrites 0x000 w → ¬ Rejected s w) → t.errcmd = s.errcmd)) ∧
  (∀ (s : State) (w : Word), Rejected s w → ∃ t, runCommandWord w s = .next t ∧ t.errcmd = w ∧
    (UnassignedOp w → t.errOpc = true) ∧ (ReservedBitSet w → t.errRsv = true) ∧
    ((∃ i, decode w = .command i ∧ OutOfRange s i) → t.errRange = true) ∧
    (s.errOpc = true → t.errOpc = true) ∧ (s.errRsv = true → t.errRsv = true) ∧
    (s.errRange = true → t.errRange = true)) ∧
  (∀ (i : Instr) (s : State) (a b c : Bool), ¬ OutOfRange s i → ∃ t, exec i s = .next t ∧
    exec i { s with errOpc := a, errRsv := b, errRange := c } = .next { t with errOpc := a, errRsv := b, errRange := c })

/-- R40: no command reads a flag. Two states that differ only in the six flags go to states that differ only in them,
and each flag is either written alike in both or kept in both. -/
def Obligations.NoCommandReadsAFlag : Prop :=
  ∀ (i : Instr) (s u : State), SameButFlags s u →
    ∃ t v, exec i s = .next t ∧ exec i u = .next v ∧ SameButFlags t v ∧
      (v.eflag = t.eflag ∨ (t.eflag = s.eflag ∧ v.eflag = u.eflag)) ∧
      (v.lenbad = t.lenbad ∨ (t.lenbad = s.lenbad ∧ v.lenbad = u.lenbad)) ∧
      (v.chkok = t.chkok ∨ (t.chkok = s.chkok ∧ v.chkok = u.chkok)) ∧
      (v.errOpc = t.errOpc ∨ (t.errOpc = s.errOpc ∧ v.errOpc = u.errOpc)) ∧
      (v.errRsv = t.errRsv ∨ (t.errRsv = s.errRsv ∧ v.errRsv = u.errRsv)) ∧
      (v.errRange = t.errRange ∨ (t.errRange = s.errRange ∧ v.errRange = u.errRange))

/-- R39: the operations that can write each piece of state; a step of any other kind leaves it. -/
def Obligations.StateIsWrittenOnlyByItsOperations : Prop :=
  ∀ s t : State, step s = .next t → ¬ s.NextIsReset →
    (t.crc ≠ s.crc → ∃ i, s.NextRuns i ∧ ¬ OutOfRange s i) ∧
    (t.txlen ≠ s.txlen → ∃ ty id, s.NextRuns (.pktEnc ty id) ∧ ¬ OutOfRange s (.pktEnc ty id)) ∧
    (t.chkok ≠ s.chkok → ∃ k, s.NextRuns (.trlChk k) ∧ ¬ OutOfRange s (.trlChk k)) ∧
    (t.eflag ≠ s.eflag ∨ t.lenbad ≠ s.lenbad ∨ t.rxdlen ≠ s.rxdlen ∨ t.rxdecl ≠ s.rxdecl →
      ∃ ty id, s.NextRuns (.pktDec ty id)) ∧
    (t.txplen ≠ s.txplen → ∃ v, s.NextWrites 0x008 v) ∧
    (t.errcmd ≠ s.errcmd → ∃ w, s.NextWrites 0x000 w ∧ Rejected s w) ∧
    (t.errOpc ≠ s.errOpc ∨ t.errRsv ≠ s.errRsv ∨ t.errRange ≠ s.errRange →
      (∃ v, s.NextWrites 0x01C v) ∨ ∃ w, s.NextWrites 0x000 w ∧ Rejected s w) ∧
    (∀ j, t.txByte j ≠ s.txByte j →
      (∃ v, s.NextWrites (0x10000 + 4 * j) v) ∨
      (∃ k, s.NextRuns (.trlGen k) ∧ ¬ OutOfRange s (.trlGen k) ∧ (j = k.toNat ∨ j = k.toNat + 1)) ∨
      (∃ ty id, s.NextRuns (.pktEnc ty id) ∧ ¬ OutOfRange s (.pktEnc ty id) ∧
        (j < 4 ∨ j = 4 + s.txplen.toNat ∨ j = 5 + s.txplen.toNat))) ∧
    (∀ j, t.rxByte j ≠ s.rxByte j → ∃ v, s.NextWrites (0x20000 + 4 * j) v)

/-! The port (spec/20_memory.md). -/

/-- A write to CMD of a word that decodes to a command runs that command: the step is `exec` of it, once the access is
taken off the host's queue. -/
def Obligations.StepRunsTheDecodedCommand : Prop :=
  ∀ (s : State) (w : Word) (i : Instr) (rest : List PortEvent), s.sizes.Legal →
    s.pending = .access (.write 32 0x000 w) :: rest → decode w = .command i →
    step s = exec i { s with pending := rest }

/-- Each step takes exactly the oldest event of the queue, and no step takes more: a step that is a reset keeps the
rest too. The queue is the model's own (assumption log 5), and so is that a reset keeps it (assumption log 12). -/
def Obligations.EachStepTakesTheOldestEvent : Prop :=
  ∀ s t : State, step s = .next t → t.pending = s.pending.tail

/-- R51: the port serves the aligned 32-bit accesses to mapped words, and every other access gets a bus error. -/
def Obligations.OnlyAlignedMappedWordsAreServed : Prop :=
  ∀ (s : State) (a : Access) (rest : List PortEvent), s.sizes.Legal → s.pending = .access a :: rest →
    (Servable s.sizes a.width a.offset → ∃ t, step s = .next t) ∧
    (¬ Servable s.sizes a.width a.offset → ∃ c, step s = .fault (.busError c))

/-- Nothing stops the block but an access that its port does not serve: no command, whatever its word, its operands and
the packet, and no reset. -/
def Obligations.OnlyABusErrorStopsTheBlock : Prop :=
  ∀ s : State, s.sizes.Legal →
    (s.Safe ↔ ∃ t, step s = .next t) ∧ (¬ s.Safe → ∃ c, step s = .fault (.busError c))

/-- R54: a bus error changes no state of the block, returns 0 on a read, signals an error response, and is a fault of
the run. -/
def Obligations.BusErrorChangesNothing : Prop :=
  ∀ (s : State) (a : Access), s.sizes.Legal → ¬ Servable s.sizes a.width a.offset →
    ∃ r c, serveAccess a s = .next r ∧ r.block = s ∧ r.error = some c ∧
      (∀ w o, a = .read w o → r.rdata = some 0x00000000#32) ∧
      takeEvent (.access a) s = .fault (.busError c)

/-- R55: a read has no side effect on the block, and gives the current value of each mapped word. -/
def Obligations.ReadsGiveCurrentValuesWithoutSideEffect : Prop :=
  (∀ (s t : State) (width offset : Nat) (rest : List PortEvent),
    s.pending = .access (.read width offset) :: rest → step s = .next t →
    ∃ v, t = { s with pending := rest, reads := v :: s.reads }) ∧
  (∀ (s : State) (rest : List PortEvent) (offset : Nat) (v : Word), s.sizes.Legal →
    ((∃ i, i < 256 ∧ offset = 0x00400 + 4 * i ∧ v = 0#16 ++ tableEntry (BitVec.ofNat 8 i)) ∨
     (∃ i, i < s.sizes.txBytes ∧ offset = 0x10000 + 4 * i ∧ v = 0#24 ++ s.txByte i) ∨
     (∃ i, i < s.sizes.rxBytes ∧ offset = 0x20000 + 4 * i ∧ v = 0#24 ++ s.rxByte i) ∨
     (offset, v) ∈
      [ (0x000, 0#32), (0x004, 0#16 ++ s.crc), (0x008, 0#16 ++ s.txplen), (0x00C, 0#16 ++ s.txlen),
        (0x010, 0#28 ++ BitVec.ofBool s.chkok ++ BitVec.ofBool s.lenbad ++ errorFlagCode s.eflag),
        (0x014, 0#16 ++ s.rxdlen), (0x018, 0#16 ++ s.rxdecl),
        (0x01C, 0#29 ++ BitVec.ofBool s.errRange ++ BitVec.ofBool s.errRsv ++ BitVec.ofBool s.errOpc),
        (0x020, s.errcmd),
        (0x024, BitVec.ofNat 32 (s.sizes.rxBytes * 65536 + s.sizes.txBytes)) ]) →
    s.pending = .access (.read 32 offset) :: rest →
    step s = .next { s with pending := rest, reads := v :: s.reads })

/-- R48: the TABLE window. -/
def Obligations.TableWindowReadsTheTable : Prop :=
  ∀ (s : State) (i : Nat) (rest : List PortEvent), s.sizes.Legal → i < 256 →
    (s.pending = .access (.read 32 (0x00400 + 4 * i)) :: rest →
      step s = .next { s with pending := rest, reads := (0#16 ++ tableEntry (BitVec.ofNat 8 i)) :: s.reads }) ∧
    (∀ v, s.pending = .access (.write 32 (0x00400 + 4 * i) v) :: rest →
      step s = .next { s with pending := rest })

/-- R49: the TX window. -/
def Obligations.TxWindowHoldsOneByteAWord : Prop :=
  ∀ (s : State) (i : Nat) (rest : List PortEvent), s.sizes.Legal → i < s.sizes.txBytes →
    (s.pending = .access (.read 32 (0x10000 + 4 * i)) :: rest →
      step s = .next { s with pending := rest, reads := (0#24 ++ s.txByte i) :: s.reads }) ∧
    (∀ v : Word, s.pending = .access (.write 32 (0x10000 + 4 * i) v) :: rest →
      ∃ t, step s = .next t ∧ t.txByte i = v.extractLsb' 0 8 ∧ (∀ j, j ≠ i → t.txByte j = s.txByte j) ∧
        t = { s with pending := rest, tx := t.tx })

/-- R50: the RX window. -/
def Obligations.RxWindowHoldsOneByteAWord : Prop :=
  ∀ (s : State) (i : Nat) (rest : List PortEvent), s.sizes.Legal → i < s.sizes.rxBytes →
    (s.pending = .access (.read 32 (0x20000 + 4 * i)) :: rest →
      step s = .next { s with pending := rest, reads := (0#24 ++ s.rxByte i) :: s.reads }) ∧
    (∀ v : Word, s.pending = .access (.write 32 (0x20000 + 4 * i) v) :: rest →
      ∃ t, step s = .next t ∧ t.rxByte i = v.extractLsb' 0 8 ∧ (∀ j, j ≠ i → t.rxByte j = s.rxByte j) ∧
        t = { s with pending := rest, rx := t.rx })

/-- R56: host writes: TXPLEN stores its low half, ERR clears the bits written with 1, CMD runs the word, a buffer word
stores its low byte, and the read-only registers and the TABLE window ignore the write. -/
def Obligations.WritesHaveTheirEffect : Prop :=
  ∀ (s : State) (v : Word) (rest : List PortEvent), s.sizes.Legal →
    (s.pending = .access (.write 32 0x008 v) :: rest →
      step s = .next { s with pending := rest, txplen := v.extractLsb' 0 16 }) ∧
    (s.pending = .access (.write 32 0x01C v) :: rest →
      step s = .next { s with
        pending := rest,
        errOpc := if v.getLsbD 0 then false else s.errOpc,
        errRsv := if v.getLsbD 1 then false else s.errRsv,
        errRange := if v.getLsbD 2 then false else s.errRange }) ∧
    (s.pending = .access (.write 32 0x000 v) :: rest →
      step s = runCommandWord v { s with pending := rest }) ∧
    (∀ offset, offset ∈ [0x004, 0x00C, 0x010, 0x014, 0x018, 0x020, 0x024] →
      s.pending = .access (.write 32 offset v) :: rest → step s = .next { s with pending := rest }) ∧
    (∀ i, i < 256 → s.pending = .access (.write 32 (0x00400 + 4 * i) v) :: rest →
      step s = .next { s with pending := rest }) ∧
    (∀ i, i < s.sizes.txBytes → s.pending = .access (.write 32 (0x10000 + 4 * i) v) :: rest →
      ∃ t, step s = .next t ∧ t.txByte i = v.extractLsb' 0 8 ∧ (∀ j, j ≠ i → t.txByte j = s.txByte j) ∧
        t = { s with pending := rest, tx := t.tx }) ∧
    (∀ i, i < s.sizes.rxBytes → s.pending = .access (.write 32 (0x20000 + 4 * i) v) :: rest →
      ∃ t, step s = .next t ∧ t.rxByte i = v.extractLsb' 0 8 ∧ (∀ j, j ≠ i → t.rxByte j = s.rxByte j) ∧
        t = { s with pending := rest, rx := t.rx })

/-- R57: a host moves `n` bytes into RX with `n` writes, to consecutive words, and they change those bytes alone. -/
def Obligations.RxFillPlacesItsBytes : Prop :=
  ∀ (s : State) (j : Nat) (bs : List Byte) (rest : List PortEvent), s.sizes.Legal →
    j + bs.length ≤ s.sizes.rxBytes → s.pending = rxFillEvents j bs ++ rest →
    ∃ t, runSteps bs.length s = .next t ∧ t.rxBytesFrom j bs.length = bs ∧
      (∀ i, i < j ∨ j + bs.length ≤ i → t.rxByte i = s.rxByte i) ∧
      t = { s with pending := rest, rx := t.rx }

/-- R6: a run of an illegal configuration is refused, and one of a legal configuration never for that reason. -/
def Obligations.IllegalConfigurationIsRefused : Prop :=
  ∀ s : State,
    (6 ≤ s.sizes.txBytes ∧ s.sizes.txBytes ≤ 16384 ∧ 6 ≤ s.sizes.rxBytes ∧ s.sizes.rxBytes ≤ 16384 →
      step s ≠ .refused .illegalConfiguration) ∧
    (s.sizes.txBytes < 6 ∨ 16384 < s.sizes.txBytes ∨ s.sizes.rxBytes < 6 ∨ 16384 < s.sizes.rxBytes →
      step s = .refused .illegalConfiguration)

/-- With no access and no reset pending, the block keeps its state. The model's choice: assumption log 6. -/
def Obligations.IdleBlockKeepsItsState : Prop :=
  ∀ s : State, s.sizes.Legal → s.pending = [] → step s = .next s

/-! Reset and invariants (spec/70_reset_and_hazards.md). -/

/-- R190: right after power-on, and after the reset input from any state, every register has its reset value, and PARAM
and TABLE are as they were. Of the buffers, which are unspecified, it says nothing. -/
def Obligations.ResetSetsEveryRegister : Prop :=
  (∀ z : BufferSizes, AtReset (State.resetWith z) ∧ (State.resetWith z).sizes = z) ∧
  (∀ (s : State) (rest : List PortEvent), s.sizes.Legal → s.pending = .reset :: rest →
    ∃ t, step s = .next t ∧ AtReset t ∧ t.regWord .param = s.regWord .param ∧
      ∀ i, t.portWord (.table i) = s.portWord (.table i))

/-- The reset input, from any state: the state right after reset of the same configuration, one more reset counted, and
each byte of the buffers a free value of that count, as it is at power-on. The free values are assumption log 2's, the
counter is log 4's, and that the host's queue and what it read are kept is log 12's: the model's choices. -/
def Obligations.ResetInputRestoresTheResetState : Prop :=
  (∀ (s : State) (rest : List PortEvent), s.sizes.Legal → s.pending = .reset :: rest →
    ∃ t, step s = .next t ∧
      t = { State.resetWith s.sizes with resets := s.resets + 1, pending := rest, reads := s.reads } ∧
      ∀ i, t.txByte i = Config.freeTxByte (s.resets + 1) i ∧ t.rxByte i = Config.freeRxByte (s.resets + 1) i) ∧
  (∀ (z : BufferSizes) (i : Nat),
    (State.resetWith z).txByte i = Config.freeTxByte 0 i ∧ (State.resetWith z).rxByte i = Config.freeRxByte 0 i)

/-- R36: PARAM holds the two sizes and never changes. -/
def Obligations.ConfigurationNeverChanges : Prop :=
  (∀ s t : State, step s = .next t → t.sizes = s.sizes ∧ t.regWord .param = s.regWord .param) ∧
  (∀ s : State, s.sizes.Legal →
    ((s.regWord .param).extractLsb' 0 16).toNat = s.sizes.txBytes ∧
    ((s.regWord .param).extractLsb' 16 16).toNat = s.sizes.rxBytes)

/-- The invariant holds right after reset, in every legal configuration and in the model's `State.reset`. -/
def Obligations.InvariantHoldsAtReset : Prop :=
  (∀ z : BufferSizes, z.Legal → (State.resetWith z).Inv) ∧ State.reset.Inv

/-- Every step keeps the invariant. -/
def Obligations.EveryStepKeepsTheInvariant : Prop :=
  ∀ s t : State, s.Inv → step s = .next t → t.Inv

/-! The host's recipes (spec/42_framer.md, spec/45_host_protocol.md). -/

/-- R117: the host sequence of `Encode` leaves the packet in `TX[0..TXLEN.TOTAL)`. -/
def Obligations.EncodeRecipeBuildsThePacket : Prop :=
  ∀ (s : State) (ty id : Byte) (data : List Byte) (rest : List PortEvent), s.sizes.Legal →
    data.length + 6 ≤ s.sizes.txBytes → s.pending = pktFrameEvents ty id data ++ rest →
    ∃ t, runSteps (data.length + 2) s = .next t ∧ t.pending = rest ∧ t.txplen.toNat = data.length ∧
      t.txlen.toNat = data.length + 6 ∧ t.txBytesFrom 0 t.txlen.toNat = packetBytes ty id data

/-- The host sends exactly TXLEN bytes: what it hands to the transport is `TX[0..TXLEN)` as they stand after ENCODE.
Where ENCODE is in range that is the request packet; where it is rejected TXLEN is the one from before. -/
def Obligations.SendHandsOverExactlyTxlenBytes : Prop :=
  ∀ (s : State) (p : HostParams) (op : Operation), s.Inv → (op.requestData p).length + 4 ≤ s.sizes.txBytes →
    ∃ t, (op.send p HostProgram.done).run s = .next (t.txBytesFrom 0 t.txlen.toNat, t) ∧ t.pending = s.pending ∧
      (op.requestSize p ≤ s.sizes.txBytes →
        t.txlen.toNat = op.requestSize p ∧
        t.txBytesFrom 0 t.txlen.toNat =
          packetBytes (op.family.requestType.code p) (op.commandId p) (op.requestData p)) ∧
      (s.sizes.txBytes < op.requestSize p → t.txlen = s.txlen ∧ t.errRange = true)

/-- A whole Command API call, whatever comes back from the exchange, completes: RX holds what came back, and the call's
result, which the host has from its own reads, is the one that EFLAG, RXDLEN and RX hold at the end. -/
def Obligations.EveryCallEndsWithItsVerdict : Prop :=
  ∀ (s : State) (p : HostParams) (op : Operation) (respMax draw : Nat) (exchange : List Byte → List Byte)
    (reply : List Byte), s.sizes.Legal → op.Fits p s.sizes respMax →
    reply = (exchange (packetBytes (op.family.requestType.code p) (op.commandId p) (op.requestData p))).take respMax →
    ∃ t, (op.call p respMax draw exchange).run s = .next (op.callResult p draw t, t) ∧ t.pending = s.pending ∧
      t.rxBytesFrom 0 reply.length = reply ∧ (∀ i, reply.length ≤ i → t.rxByte i = s.rxByte i)

/-- A whole Command API call answered by the matching report with any data: the call ends with that data decoded, and
its result is the typed one of that data. -/
def Obligations.MatchedCallDeliversTheData : Prop :=
  ∀ (s : State) (p : HostParams) (op : Operation) (respMax draw : Nat) (exchange : List Byte → List Byte)
    (data : List Byte), s.sizes.Legal → op.Fits p s.sizes respMax → data.length + 6 ≤ respMax →
    exchange (packetBytes (op.family.requestType.code p) (op.commandId p) (op.requestData p)) =
      packetBytes (op.expectedType p) (op.commandId p) data →
    ∃ t, (op.call p respMax draw exchange).run s = .next (.ok (op.resultOf p draw data), t) ∧
      t.pending = s.pending ∧ t.eflag = .none ∧ t.payload = data ∧ op.typedResult p draw t = op.resultOf p draw data

/-- The sizes of the request packets, which the spec infers ("the sizes follow from" ENCODE's rule), and the value of
each of the eight operations when its call fails, 0 or empty, which is the spec's choice (assumption log 14). -/
def Obligations.RequestSizesAndFailureValue : Prop :=
  (∀ (p : HostParams) (id slot : Byte) (d : List Byte), (Operation.createScenario id slot d).wellFormed = true →
    (Operation.createScenario id slot d).requestSize p = 22) ∧
  (∀ (p : HostParams) (id : Byte), (Operation.deleteScenario id).requestSize p = 8) ∧
  (∀ (p : HostParams) (op : Operation), op.requestData p = [] → op.requestSize p = 6) ∧
  (∀ (p : HostParams) (draw : Nat) (s : State), s.eflag ≠ .none →
    Operation.callResult p draw s .getErrorCodes = .failed s.eflag (.errorCodes []) ∧
    Operation.callResult p draw s .getTemperature = .failed s.eflag (.temperature 0) ∧
    Operation.callResult p draw s .executeMeasurement = .failed s.eflag (.executedScenario 0) ∧
    Operation.callResult p draw s .getScenarioStatus = .failed s.eflag (.scenarioStatus 0) ∧
    Operation.callResult p draw s .getScienceData = .failed s.eflag (.scienceData [] 0) ∧
    Operation.callResult p draw s .getMclChanges = .failed s.eflag (.mclChanges []) ∧
    (∀ id slot d, Operation.callResult p draw s (.createScenario id slot d) = .failed s.eflag (.acknowledgment 0)) ∧
    (∀ id, Operation.callResult p draw s (.deleteScenario id) = .failed s.eflag (.acknowledgment 0)))

/-- R150 to R157: the typed result of each of the eight operations, read from what RX and RXDLEN hold, where the data is
long enough, and the request data of the two that have some. Shorter data, and a list of more than ERR_MAX codes, are
assumption log 14's. -/
def Obligations.TypedResultsReadThePayload : Prop :=
  ∀ (p : HostParams) (draw : Nat) (s : State),
    ((s.rxByte 4).toNat + 1 ≤ s.rxdlen.toNat → (s.rxByte 4).toNat ≤ p.errMax →
      Operation.typedResult p draw s .getErrorCodes = .errorCodes (s.rxBytesFrom 5 (s.rxByte 4).toNat)) ∧
    (2 ≤ s.rxdlen.toNat → Operation.typedResult p draw s .getTemperature =
      .temperature (pair (s.rxByte 4) (s.rxByte 5)).toInt) ∧
    (1 ≤ s.rxdlen.toNat → Operation.typedResult p draw s .executeMeasurement = .executedScenario (s.rxByte 4).toInt) ∧
    (1 ≤ s.rxdlen.toNat → Operation.typedResult p draw s .getScenarioStatus = .scenarioStatus (s.rxByte 4).toInt) ∧
    Operation.typedResult p draw s .getScienceData =
      .scienceData (s.rxBytesFrom 4 s.rxdlen.toNat) s.rxdlen.toNat ∧
    Operation.typedResult p draw s .getMclChanges = .mclChanges (s.rxBytesFrom 4 s.rxdlen.toNat) ∧
    (∀ id slot d, (Operation.createScenario id slot d).requestData p = [p.subAdd, id, slot] ++ d ∧
      (1 ≤ s.rxdlen.toNat →
        Operation.typedResult p draw s (.createScenario id slot d) = .acknowledgment (s.rxByte 4).toNat)) ∧
    (∀ id, (Operation.deleteScenario id).requestData p = [p.subDelete, id] ∧
      (Operation.deleteScenario id).requestSize p = 8 ∧
      (1 ≤ s.rxdlen.toNat → Operation.typedResult p draw s (.deleteScenario id) = .acknowledgment (s.rxByte 4).toNat))
end

