-- ==== Sys2Proof/Laws/State.lean ====
section
/-! SUPPORT. One lemma per field per update of the state: what each named operation writes and what it leaves. -/

namespace Sys2Proof.Machine

/-! `setCrc`. -/

@[simp] theorem State.setCrc_sizes (s : State) (c : Half) : (s.setCrc c).sizes = s.sizes := rfl
@[simp] theorem State.setCrc_crc (s : State) (c : Half) : (s.setCrc c).crc = c := rfl
@[simp] theorem State.setCrc_txplen (s : State) (c : Half) : (s.setCrc c).txplen = s.txplen := rfl
@[simp] theorem State.setCrc_txlen (s : State) (c : Half) : (s.setCrc c).txlen = s.txlen := rfl
@[simp] theorem State.setCrc_rxdlen (s : State) (c : Half) : (s.setCrc c).rxdlen = s.rxdlen := rfl
@[simp] theorem State.setCrc_rxdecl (s : State) (c : Half) : (s.setCrc c).rxdecl = s.rxdecl := rfl
@[simp] theorem State.setCrc_eflag (s : State) (c : Half) : (s.setCrc c).eflag = s.eflag := rfl
@[simp] theorem State.setCrc_lenbad (s : State) (c : Half) : (s.setCrc c).lenbad = s.lenbad := rfl
@[simp] theorem State.setCrc_chkok (s : State) (c : Half) : (s.setCrc c).chkok = s.chkok := rfl
@[simp] theorem State.setCrc_errOpc (s : State) (c : Half) : (s.setCrc c).errOpc = s.errOpc := rfl
@[simp] theorem State.setCrc_errRsv (s : State) (c : Half) : (s.setCrc c).errRsv = s.errRsv := rfl
@[simp] theorem State.setCrc_errRange (s : State) (c : Half) : (s.setCrc c).errRange = s.errRange := rfl
@[simp] theorem State.setCrc_errcmd (s : State) (c : Half) : (s.setCrc c).errcmd = s.errcmd := rfl
@[simp] theorem State.setCrc_tx (s : State) (c : Half) : (s.setCrc c).tx = s.tx := rfl
@[simp] theorem State.setCrc_rx (s : State) (c : Half) : (s.setCrc c).rx = s.rx := rfl
@[simp] theorem State.setCrc_resets (s : State) (c : Half) : (s.setCrc c).resets = s.resets := rfl
@[simp] theorem State.setCrc_pending (s : State) (c : Half) : (s.setCrc c).pending = s.pending := rfl
@[simp] theorem State.setCrc_reads (s : State) (c : Half) : (s.setCrc c).reads = s.reads := rfl

/-! `setTxplen`. -/

@[simp] theorem State.setTxplen_sizes (s : State) (n : Half) : (s.setTxplen n).sizes = s.sizes := rfl
@[simp] theorem State.setTxplen_crc (s : State) (n : Half) : (s.setTxplen n).crc = s.crc := rfl
@[simp] theorem State.setTxplen_txplen (s : State) (n : Half) : (s.setTxplen n).txplen = n := rfl
@[simp] theorem State.setTxplen_txlen (s : State) (n : Half) : (s.setTxplen n).txlen = s.txlen := rfl
@[simp] theorem State.setTxplen_rxdlen (s : State) (n : Half) : (s.setTxplen n).rxdlen = s.rxdlen := rfl
@[simp] theorem State.setTxplen_rxdecl (s : State) (n : Half) : (s.setTxplen n).rxdecl = s.rxdecl := rfl
@[simp] theorem State.setTxplen_eflag (s : State) (n : Half) : (s.setTxplen n).eflag = s.eflag := rfl
@[simp] theorem State.setTxplen_lenbad (s : State) (n : Half) : (s.setTxplen n).lenbad = s.lenbad := rfl
@[simp] theorem State.setTxplen_chkok (s : State) (n : Half) : (s.setTxplen n).chkok = s.chkok := rfl
@[simp] theorem State.setTxplen_errOpc (s : State) (n : Half) : (s.setTxplen n).errOpc = s.errOpc := rfl
@[simp] theorem State.setTxplen_errRsv (s : State) (n : Half) : (s.setTxplen n).errRsv = s.errRsv := rfl
@[simp] theorem State.setTxplen_errRange (s : State) (n : Half) : (s.setTxplen n).errRange = s.errRange := rfl
@[simp] theorem State.setTxplen_errcmd (s : State) (n : Half) : (s.setTxplen n).errcmd = s.errcmd := rfl
@[simp] theorem State.setTxplen_tx (s : State) (n : Half) : (s.setTxplen n).tx = s.tx := rfl
@[simp] theorem State.setTxplen_rx (s : State) (n : Half) : (s.setTxplen n).rx = s.rx := rfl
@[simp] theorem State.setTxplen_resets (s : State) (n : Half) : (s.setTxplen n).resets = s.resets := rfl
@[simp] theorem State.setTxplen_pending (s : State) (n : Half) : (s.setTxplen n).pending = s.pending := rfl
@[simp] theorem State.setTxplen_reads (s : State) (n : Half) : (s.setTxplen n).reads = s.reads := rfl

/-! `setTxlen`. -/

@[simp] theorem State.setTxlen_sizes (s : State) (n : Half) : (s.setTxlen n).sizes = s.sizes := rfl
@[simp] theorem State.setTxlen_crc (s : State) (n : Half) : (s.setTxlen n).crc = s.crc := rfl
@[simp] theorem State.setTxlen_txplen (s : State) (n : Half) : (s.setTxlen n).txplen = s.txplen := rfl
@[simp] theorem State.setTxlen_txlen (s : State) (n : Half) : (s.setTxlen n).txlen = n := rfl
@[simp] theorem State.setTxlen_rxdlen (s : State) (n : Half) : (s.setTxlen n).rxdlen = s.rxdlen := rfl
@[simp] theorem State.setTxlen_rxdecl (s : State) (n : Half) : (s.setTxlen n).rxdecl = s.rxdecl := rfl
@[simp] theorem State.setTxlen_eflag (s : State) (n : Half) : (s.setTxlen n).eflag = s.eflag := rfl
@[simp] theorem State.setTxlen_lenbad (s : State) (n : Half) : (s.setTxlen n).lenbad = s.lenbad := rfl
@[simp] theorem State.setTxlen_chkok (s : State) (n : Half) : (s.setTxlen n).chkok = s.chkok := rfl
@[simp] theorem State.setTxlen_errOpc (s : State) (n : Half) : (s.setTxlen n).errOpc = s.errOpc := rfl
@[simp] theorem State.setTxlen_errRsv (s : State) (n : Half) : (s.setTxlen n).errRsv = s.errRsv := rfl
@[simp] theorem State.setTxlen_errRange (s : State) (n : Half) : (s.setTxlen n).errRange = s.errRange := rfl
@[simp] theorem State.setTxlen_errcmd (s : State) (n : Half) : (s.setTxlen n).errcmd = s.errcmd := rfl
@[simp] theorem State.setTxlen_tx (s : State) (n : Half) : (s.setTxlen n).tx = s.tx := rfl
@[simp] theorem State.setTxlen_rx (s : State) (n : Half) : (s.setTxlen n).rx = s.rx := rfl
@[simp] theorem State.setTxlen_resets (s : State) (n : Half) : (s.setTxlen n).resets = s.resets := rfl
@[simp] theorem State.setTxlen_pending (s : State) (n : Half) : (s.setTxlen n).pending = s.pending := rfl
@[simp] theorem State.setTxlen_reads (s : State) (n : Half) : (s.setTxlen n).reads = s.reads := rfl

/-! `setRxdecl`. -/

@[simp] theorem State.setRxdecl_sizes (s : State) (l : Half) : (s.setRxdecl l).sizes = s.sizes := rfl
@[simp] theorem State.setRxdecl_crc (s : State) (l : Half) : (s.setRxdecl l).crc = s.crc := rfl
@[simp] theorem State.setRxdecl_txplen (s : State) (l : Half) : (s.setRxdecl l).txplen = s.txplen := rfl
@[simp] theorem State.setRxdecl_txlen (s : State) (l : Half) : (s.setRxdecl l).txlen = s.txlen := rfl
@[simp] theorem State.setRxdecl_rxdlen (s : State) (l : Half) : (s.setRxdecl l).rxdlen = s.rxdlen := rfl
@[simp] theorem State.setRxdecl_rxdecl (s : State) (l : Half) : (s.setRxdecl l).rxdecl = l := rfl
@[simp] theorem State.setRxdecl_eflag (s : State) (l : Half) : (s.setRxdecl l).eflag = s.eflag := rfl
@[simp] theorem State.setRxdecl_lenbad (s : State) (l : Half) : (s.setRxdecl l).lenbad = s.lenbad := rfl
@[simp] theorem State.setRxdecl_chkok (s : State) (l : Half) : (s.setRxdecl l).chkok = s.chkok := rfl
@[simp] theorem State.setRxdecl_errOpc (s : State) (l : Half) : (s.setRxdecl l).errOpc = s.errOpc := rfl
@[simp] theorem State.setRxdecl_errRsv (s : State) (l : Half) : (s.setRxdecl l).errRsv = s.errRsv := rfl
@[simp] theorem State.setRxdecl_errRange (s : State) (l : Half) : (s.setRxdecl l).errRange = s.errRange := rfl
@[simp] theorem State.setRxdecl_errcmd (s : State) (l : Half) : (s.setRxdecl l).errcmd = s.errcmd := rfl
@[simp] theorem State.setRxdecl_tx (s : State) (l : Half) : (s.setRxdecl l).tx = s.tx := rfl
@[simp] theorem State.setRxdecl_rx (s : State) (l : Half) : (s.setRxdecl l).rx = s.rx := rfl
@[simp] theorem State.setRxdecl_resets (s : State) (l : Half) : (s.setRxdecl l).resets = s.resets := rfl
@[simp] theorem State.setRxdecl_pending (s : State) (l : Half) : (s.setRxdecl l).pending = s.pending := rfl
@[simp] theorem State.setRxdecl_reads (s : State) (l : Half) : (s.setRxdecl l).reads = s.reads := rfl

/-! `setChkok`. -/

@[simp] theorem State.setChkok_sizes (s : State) (b : Bool) : (s.setChkok b).sizes = s.sizes := rfl
@[simp] theorem State.setChkok_crc (s : State) (b : Bool) : (s.setChkok b).crc = s.crc := rfl
@[simp] theorem State.setChkok_txplen (s : State) (b : Bool) : (s.setChkok b).txplen = s.txplen := rfl
@[simp] theorem State.setChkok_txlen (s : State) (b : Bool) : (s.setChkok b).txlen = s.txlen := rfl
@[simp] theorem State.setChkok_rxdlen (s : State) (b : Bool) : (s.setChkok b).rxdlen = s.rxdlen := rfl
@[simp] theorem State.setChkok_rxdecl (s : State) (b : Bool) : (s.setChkok b).rxdecl = s.rxdecl := rfl
@[simp] theorem State.setChkok_eflag (s : State) (b : Bool) : (s.setChkok b).eflag = s.eflag := rfl
@[simp] theorem State.setChkok_lenbad (s : State) (b : Bool) : (s.setChkok b).lenbad = s.lenbad := rfl
@[simp] theorem State.setChkok_chkok (s : State) (b : Bool) : (s.setChkok b).chkok = b := rfl
@[simp] theorem State.setChkok_errOpc (s : State) (b : Bool) : (s.setChkok b).errOpc = s.errOpc := rfl
@[simp] theorem State.setChkok_errRsv (s : State) (b : Bool) : (s.setChkok b).errRsv = s.errRsv := rfl
@[simp] theorem State.setChkok_errRange (s : State) (b : Bool) : (s.setChkok b).errRange = s.errRange := rfl
@[simp] theorem State.setChkok_errcmd (s : State) (b : Bool) : (s.setChkok b).errcmd = s.errcmd := rfl
@[simp] theorem State.setChkok_tx (s : State) (b : Bool) : (s.setChkok b).tx = s.tx := rfl
@[simp] theorem State.setChkok_rx (s : State) (b : Bool) : (s.setChkok b).rx = s.rx := rfl
@[simp] theorem State.setChkok_resets (s : State) (b : Bool) : (s.setChkok b).resets = s.resets := rfl
@[simp] theorem State.setChkok_pending (s : State) (b : Bool) : (s.setChkok b).pending = s.pending := rfl
@[simp] theorem State.setChkok_reads (s : State) (b : Bool) : (s.setChkok b).reads = s.reads := rfl

/-! `setTxByte`. -/

@[simp] theorem State.setTxByte_sizes (s : State) (i : Nat) (b : Byte) : (s.setTxByte i b).sizes = s.sizes := rfl
@[simp] theorem State.setTxByte_crc (s : State) (i : Nat) (b : Byte) : (s.setTxByte i b).crc = s.crc := rfl
@[simp] theorem State.setTxByte_txplen (s : State) (i : Nat) (b : Byte) : (s.setTxByte i b).txplen = s.txplen := rfl
@[simp] theorem State.setTxByte_txlen (s : State) (i : Nat) (b : Byte) : (s.setTxByte i b).txlen = s.txlen := rfl
@[simp] theorem State.setTxByte_rxdlen (s : State) (i : Nat) (b : Byte) : (s.setTxByte i b).rxdlen = s.rxdlen := rfl
@[simp] theorem State.setTxByte_rxdecl (s : State) (i : Nat) (b : Byte) : (s.setTxByte i b).rxdecl = s.rxdecl := rfl
@[simp] theorem State.setTxByte_eflag (s : State) (i : Nat) (b : Byte) : (s.setTxByte i b).eflag = s.eflag := rfl
@[simp] theorem State.setTxByte_lenbad (s : State) (i : Nat) (b : Byte) : (s.setTxByte i b).lenbad = s.lenbad := rfl
@[simp] theorem State.setTxByte_chkok (s : State) (i : Nat) (b : Byte) : (s.setTxByte i b).chkok = s.chkok := rfl
@[simp] theorem State.setTxByte_errOpc (s : State) (i : Nat) (b : Byte) : (s.setTxByte i b).errOpc = s.errOpc := rfl
@[simp] theorem State.setTxByte_errRsv (s : State) (i : Nat) (b : Byte) : (s.setTxByte i b).errRsv = s.errRsv := rfl
@[simp] theorem State.setTxByte_errRange (s : State) (i : Nat) (b : Byte) : (s.setTxByte i b).errRange = s.errRange := rfl
@[simp] theorem State.setTxByte_errcmd (s : State) (i : Nat) (b : Byte) : (s.setTxByte i b).errcmd = s.errcmd := rfl
@[simp] theorem State.setTxByte_tx (s : State) (i : Nat) (b : Byte) : (s.setTxByte i b).tx = s.tx.set i b := rfl
@[simp] theorem State.setTxByte_rx (s : State) (i : Nat) (b : Byte) : (s.setTxByte i b).rx = s.rx := rfl
@[simp] theorem State.setTxByte_resets (s : State) (i : Nat) (b : Byte) : (s.setTxByte i b).resets = s.resets := rfl
@[simp] theorem State.setTxByte_pending (s : State) (i : Nat) (b : Byte) : (s.setTxByte i b).pending = s.pending := rfl
@[simp] theorem State.setTxByte_reads (s : State) (i : Nat) (b : Byte) : (s.setTxByte i b).reads = s.reads := rfl

/-! `setRxByte`. -/

@[simp] theorem State.setRxByte_sizes (s : State) (i : Nat) (b : Byte) : (s.setRxByte i b).sizes = s.sizes := rfl
@[simp] theorem State.setRxByte_crc (s : State) (i : Nat) (b : Byte) : (s.setRxByte i b).crc = s.crc := rfl
@[simp] theorem State.setRxByte_txplen (s : State) (i : Nat) (b : Byte) : (s.setRxByte i b).txplen = s.txplen := rfl
@[simp] theorem State.setRxByte_txlen (s : State) (i : Nat) (b : Byte) : (s.setRxByte i b).txlen = s.txlen := rfl
@[simp] theorem State.setRxByte_rxdlen (s : State) (i : Nat) (b : Byte) : (s.setRxByte i b).rxdlen = s.rxdlen := rfl
@[simp] theorem State.setRxByte_rxdecl (s : State) (i : Nat) (b : Byte) : (s.setRxByte i b).rxdecl = s.rxdecl := rfl
@[simp] theorem State.setRxByte_eflag (s : State) (i : Nat) (b : Byte) : (s.setRxByte i b).eflag = s.eflag := rfl
@[simp] theorem State.setRxByte_lenbad (s : State) (i : Nat) (b : Byte) : (s.setRxByte i b).lenbad = s.lenbad := rfl
@[simp] theorem State.setRxByte_chkok (s : State) (i : Nat) (b : Byte) : (s.setRxByte i b).chkok = s.chkok := rfl
@[simp] theorem State.setRxByte_errOpc (s : State) (i : Nat) (b : Byte) : (s.setRxByte i b).errOpc = s.errOpc := rfl
@[simp] theorem State.setRxByte_errRsv (s : State) (i : Nat) (b : Byte) : (s.setRxByte i b).errRsv = s.errRsv := rfl
@[simp] theorem State.setRxByte_errRange (s : State) (i : Nat) (b : Byte) : (s.setRxByte i b).errRange = s.errRange := rfl
@[simp] theorem State.setRxByte_errcmd (s : State) (i : Nat) (b : Byte) : (s.setRxByte i b).errcmd = s.errcmd := rfl
@[simp] theorem State.setRxByte_tx (s : State) (i : Nat) (b : Byte) : (s.setRxByte i b).tx = s.tx := rfl
@[simp] theorem State.setRxByte_rx (s : State) (i : Nat) (b : Byte) : (s.setRxByte i b).rx = s.rx.set i b := rfl
@[simp] theorem State.setRxByte_resets (s : State) (i : Nat) (b : Byte) : (s.setRxByte i b).resets = s.resets := rfl
@[simp] theorem State.setRxByte_pending (s : State) (i : Nat) (b : Byte) : (s.setRxByte i b).pending = s.pending := rfl
@[simp] theorem State.setRxByte_reads (s : State) (i : Nat) (b : Byte) : (s.setRxByte i b).reads = s.reads := rfl

/-! `raiseCmdError`. -/

@[simp] theorem State.raiseCmdError_sizes (s : State) (c : CmdError) (w : Word) : (s.raiseCmdError c w).sizes = s.sizes := rfl
@[simp] theorem State.raiseCmdError_crc (s : State) (c : CmdError) (w : Word) : (s.raiseCmdError c w).crc = s.crc := rfl
@[simp] theorem State.raiseCmdError_txplen (s : State) (c : CmdError) (w : Word) : (s.raiseCmdError c w).txplen = s.txplen := rfl
@[simp] theorem State.raiseCmdError_txlen (s : State) (c : CmdError) (w : Word) : (s.raiseCmdError c w).txlen = s.txlen := rfl
@[simp] theorem State.raiseCmdError_rxdlen (s : State) (c : CmdError) (w : Word) : (s.raiseCmdError c w).rxdlen = s.rxdlen := rfl
@[simp] theorem State.raiseCmdError_rxdecl (s : State) (c : CmdError) (w : Word) : (s.raiseCmdError c w).rxdecl = s.rxdecl := rfl
@[simp] theorem State.raiseCmdError_eflag (s : State) (c : CmdError) (w : Word) : (s.raiseCmdError c w).eflag = s.eflag := rfl
@[simp] theorem State.raiseCmdError_lenbad (s : State) (c : CmdError) (w : Word) : (s.raiseCmdError c w).lenbad = s.lenbad := rfl
@[simp] theorem State.raiseCmdError_chkok (s : State) (c : CmdError) (w : Word) : (s.raiseCmdError c w).chkok = s.chkok := rfl
@[simp] theorem State.raiseCmdError_errOpc (s : State) (c : CmdError) (w : Word) : (s.raiseCmdError c w).errOpc = (s.errOpc || decide (c = .eOpc)) := rfl
@[simp] theorem State.raiseCmdError_errRsv (s : State) (c : CmdError) (w : Word) : (s.raiseCmdError c w).errRsv = (s.errRsv || decide (c = .eRsv)) := rfl
@[simp] theorem State.raiseCmdError_errRange (s : State) (c : CmdError) (w : Word) : (s.raiseCmdError c w).errRange = (s.errRange || decide (c = .eRange)) := rfl
@[simp] theorem State.raiseCmdError_errcmd (s : State) (c : CmdError) (w : Word) : (s.raiseCmdError c w).errcmd = w := rfl
@[simp] theorem State.raiseCmdError_tx (s : State) (c : CmdError) (w : Word) : (s.raiseCmdError c w).tx = s.tx := rfl
@[simp] theorem State.raiseCmdError_rx (s : State) (c : CmdError) (w : Word) : (s.raiseCmdError c w).rx = s.rx := rfl
@[simp] theorem State.raiseCmdError_resets (s : State) (c : CmdError) (w : Word) : (s.raiseCmdError c w).resets = s.resets := rfl
@[simp] theorem State.raiseCmdError_pending (s : State) (c : CmdError) (w : Word) : (s.raiseCmdError c w).pending = s.pending := rfl
@[simp] theorem State.raiseCmdError_reads (s : State) (c : CmdError) (w : Word) : (s.raiseCmdError c w).reads = s.reads := rfl

/-! `clearErr`. -/

@[simp] theorem State.clearErr_sizes (s : State) (v : Word) : (s.clearErr v).sizes = s.sizes := rfl
@[simp] theorem State.clearErr_crc (s : State) (v : Word) : (s.clearErr v).crc = s.crc := rfl
@[simp] theorem State.clearErr_txplen (s : State) (v : Word) : (s.clearErr v).txplen = s.txplen := rfl
@[simp] theorem State.clearErr_txlen (s : State) (v : Word) : (s.clearErr v).txlen = s.txlen := rfl
@[simp] theorem State.clearErr_rxdlen (s : State) (v : Word) : (s.clearErr v).rxdlen = s.rxdlen := rfl
@[simp] theorem State.clearErr_rxdecl (s : State) (v : Word) : (s.clearErr v).rxdecl = s.rxdecl := rfl
@[simp] theorem State.clearErr_eflag (s : State) (v : Word) : (s.clearErr v).eflag = s.eflag := rfl
@[simp] theorem State.clearErr_lenbad (s : State) (v : Word) : (s.clearErr v).lenbad = s.lenbad := rfl
@[simp] theorem State.clearErr_chkok (s : State) (v : Word) : (s.clearErr v).chkok = s.chkok := rfl
@[simp] theorem State.clearErr_errOpc (s : State) (v : Word) : (s.clearErr v).errOpc = (s.errOpc && !v.getLsbD 0) := rfl
@[simp] theorem State.clearErr_errRsv (s : State) (v : Word) : (s.clearErr v).errRsv = (s.errRsv && !v.getLsbD 1) := rfl
@[simp] theorem State.clearErr_errRange (s : State) (v : Word) : (s.clearErr v).errRange = (s.errRange && !v.getLsbD 2) := rfl
@[simp] theorem State.clearErr_errcmd (s : State) (v : Word) : (s.clearErr v).errcmd = s.errcmd := rfl
@[simp] theorem State.clearErr_tx (s : State) (v : Word) : (s.clearErr v).tx = s.tx := rfl
@[simp] theorem State.clearErr_rx (s : State) (v : Word) : (s.clearErr v).rx = s.rx := rfl
@[simp] theorem State.clearErr_resets (s : State) (v : Word) : (s.clearErr v).resets = s.resets := rfl
@[simp] theorem State.clearErr_pending (s : State) (v : Word) : (s.clearErr v).pending = s.pending := rfl
@[simp] theorem State.clearErr_reads (s : State) (v : Word) : (s.clearErr v).reads = s.reads := rfl

/-! `setVerdict`. -/

@[simp] theorem State.setVerdict_sizes (s : State) (v : Verdict) : (s.setVerdict v).sizes = s.sizes := rfl
@[simp] theorem State.setVerdict_crc (s : State) (v : Verdict) : (s.setVerdict v).crc = v.remainder.getD s.crc := rfl
@[simp] theorem State.setVerdict_txplen (s : State) (v : Verdict) : (s.setVerdict v).txplen = s.txplen := rfl
@[simp] theorem State.setVerdict_txlen (s : State) (v : Verdict) : (s.setVerdict v).txlen = s.txlen := rfl
@[simp] theorem State.setVerdict_rxdlen (s : State) (v : Verdict) : (s.setVerdict v).rxdlen = v.dlen := rfl
@[simp] theorem State.setVerdict_rxdecl (s : State) (v : Verdict) : (s.setVerdict v).rxdecl = s.rxdecl := rfl
@[simp] theorem State.setVerdict_eflag (s : State) (v : Verdict) : (s.setVerdict v).eflag = v.eflag := rfl
@[simp] theorem State.setVerdict_lenbad (s : State) (v : Verdict) : (s.setVerdict v).lenbad = v.lenbad := rfl
@[simp] theorem State.setVerdict_chkok (s : State) (v : Verdict) : (s.setVerdict v).chkok = s.chkok := rfl
@[simp] theorem State.setVerdict_errOpc (s : State) (v : Verdict) : (s.setVerdict v).errOpc = s.errOpc := rfl
@[simp] theorem State.setVerdict_errRsv (s : State) (v : Verdict) : (s.setVerdict v).errRsv = s.errRsv := rfl
@[simp] theorem State.setVerdict_errRange (s : State) (v : Verdict) : (s.setVerdict v).errRange = s.errRange := rfl
@[simp] theorem State.setVerdict_errcmd (s : State) (v : Verdict) : (s.setVerdict v).errcmd = s.errcmd := rfl
@[simp] theorem State.setVerdict_tx (s : State) (v : Verdict) : (s.setVerdict v).tx = s.tx := rfl
@[simp] theorem State.setVerdict_rx (s : State) (v : Verdict) : (s.setVerdict v).rx = s.rx := rfl
@[simp] theorem State.setVerdict_resets (s : State) (v : Verdict) : (s.setVerdict v).resets = s.resets := rfl
@[simp] theorem State.setVerdict_pending (s : State) (v : Verdict) : (s.setVerdict v).pending = s.pending := rfl
@[simp] theorem State.setVerdict_reads (s : State) (v : Verdict) : (s.setVerdict v).reads = s.reads := rfl

/-! `setPending`. -/

@[simp] theorem State.setPending_sizes (s : State) (es : List PortEvent) : (s.setPending es).sizes = s.sizes := rfl
@[simp] theorem State.setPending_crc (s : State) (es : List PortEvent) : (s.setPending es).crc = s.crc := rfl
@[simp] theorem State.setPending_txplen (s : State) (es : List PortEvent) : (s.setPending es).txplen = s.txplen := rfl
@[simp] theorem State.setPending_txlen (s : State) (es : List PortEvent) : (s.setPending es).txlen = s.txlen := rfl
@[simp] theorem State.setPending_rxdlen (s : State) (es : List PortEvent) : (s.setPending es).rxdlen = s.rxdlen := rfl
@[simp] theorem State.setPending_rxdecl (s : State) (es : List PortEvent) : (s.setPending es).rxdecl = s.rxdecl := rfl
@[simp] theorem State.setPending_eflag (s : State) (es : List PortEvent) : (s.setPending es).eflag = s.eflag := rfl
@[simp] theorem State.setPending_lenbad (s : State) (es : List PortEvent) : (s.setPending es).lenbad = s.lenbad := rfl
@[simp] theorem State.setPending_chkok (s : State) (es : List PortEvent) : (s.setPending es).chkok = s.chkok := rfl
@[simp] theorem State.setPending_errOpc (s : State) (es : List PortEvent) : (s.setPending es).errOpc = s.errOpc := rfl
@[simp] theorem State.setPending_errRsv (s : State) (es : List PortEvent) : (s.setPending es).errRsv = s.errRsv := rfl
@[simp] theorem State.setPending_errRange (s : State) (es : List PortEvent) : (s.setPending es).errRange = s.errRange := rfl
@[simp] theorem State.setPending_errcmd (s : State) (es : List PortEvent) : (s.setPending es).errcmd = s.errcmd := rfl
@[simp] theorem State.setPending_tx (s : State) (es : List PortEvent) : (s.setPending es).tx = s.tx := rfl
@[simp] theorem State.setPending_rx (s : State) (es : List PortEvent) : (s.setPending es).rx = s.rx := rfl
@[simp] theorem State.setPending_resets (s : State) (es : List PortEvent) : (s.setPending es).resets = s.resets := rfl
@[simp] theorem State.setPending_pending (s : State) (es : List PortEvent) : (s.setPending es).pending = es := rfl
@[simp] theorem State.setPending_reads (s : State) (es : List PortEvent) : (s.setPending es).reads = s.reads := rfl

/-! `logRead`. -/

@[simp] theorem State.logRead_sizes (s : State) (v : Word) : (s.logRead v).sizes = s.sizes := rfl
@[simp] theorem State.logRead_crc (s : State) (v : Word) : (s.logRead v).crc = s.crc := rfl
@[simp] theorem State.logRead_txplen (s : State) (v : Word) : (s.logRead v).txplen = s.txplen := rfl
@[simp] theorem State.logRead_txlen (s : State) (v : Word) : (s.logRead v).txlen = s.txlen := rfl
@[simp] theorem State.logRead_rxdlen (s : State) (v : Word) : (s.logRead v).rxdlen = s.rxdlen := rfl
@[simp] theorem State.logRead_rxdecl (s : State) (v : Word) : (s.logRead v).rxdecl = s.rxdecl := rfl
@[simp] theorem State.logRead_eflag (s : State) (v : Word) : (s.logRead v).eflag = s.eflag := rfl
@[simp] theorem State.logRead_lenbad (s : State) (v : Word) : (s.logRead v).lenbad = s.lenbad := rfl
@[simp] theorem State.logRead_chkok (s : State) (v : Word) : (s.logRead v).chkok = s.chkok := rfl
@[simp] theorem State.logRead_errOpc (s : State) (v : Word) : (s.logRead v).errOpc = s.errOpc := rfl
@[simp] theorem State.logRead_errRsv (s : State) (v : Word) : (s.logRead v).errRsv = s.errRsv := rfl
@[simp] theorem State.logRead_errRange (s : State) (v : Word) : (s.logRead v).errRange = s.errRange := rfl
@[simp] theorem State.logRead_errcmd (s : State) (v : Word) : (s.logRead v).errcmd = s.errcmd := rfl
@[simp] theorem State.logRead_tx (s : State) (v : Word) : (s.logRead v).tx = s.tx := rfl
@[simp] theorem State.logRead_rx (s : State) (v : Word) : (s.logRead v).rx = s.rx := rfl
@[simp] theorem State.logRead_resets (s : State) (v : Word) : (s.logRead v).resets = s.resets := rfl
@[simp] theorem State.logRead_pending (s : State) (v : Word) : (s.logRead v).pending = s.pending := rfl
@[simp] theorem State.logRead_reads (s : State) (v : Word) : (s.logRead v).reads = v :: s.reads := rfl

/-! `applyReset`. -/

@[simp] theorem State.applyReset_sizes (s : State) : (s.applyReset).sizes = s.sizes := rfl
@[simp] theorem State.applyReset_crc (s : State) : (s.applyReset).crc = 0x0000#16 := rfl
@[simp] theorem State.applyReset_txplen (s : State) : (s.applyReset).txplen = 0x0000#16 := rfl
@[simp] theorem State.applyReset_txlen (s : State) : (s.applyReset).txlen = 0x0000#16 := rfl
@[simp] theorem State.applyReset_rxdlen (s : State) : (s.applyReset).rxdlen = 0x0000#16 := rfl
@[simp] theorem State.applyReset_rxdecl (s : State) : (s.applyReset).rxdecl = 0x0000#16 := rfl
@[simp] theorem State.applyReset_eflag (s : State) : (s.applyReset).eflag = .none := rfl
@[simp] theorem State.applyReset_lenbad (s : State) : (s.applyReset).lenbad = false := rfl
@[simp] theorem State.applyReset_chkok (s : State) : (s.applyReset).chkok = false := rfl
@[simp] theorem State.applyReset_errOpc (s : State) : (s.applyReset).errOpc = false := rfl
@[simp] theorem State.applyReset_errRsv (s : State) : (s.applyReset).errRsv = false := rfl
@[simp] theorem State.applyReset_errRange (s : State) : (s.applyReset).errRange = false := rfl
@[simp] theorem State.applyReset_errcmd (s : State) : (s.applyReset).errcmd = 0x00000000#32 := rfl
@[simp] theorem State.applyReset_tx (s : State) : (s.applyReset).tx = [] := rfl
@[simp] theorem State.applyReset_rx (s : State) : (s.applyReset).rx = [] := rfl
@[simp] theorem State.applyReset_resets (s : State) : (s.applyReset).resets = s.resets + 1 := rfl
@[simp] theorem State.applyReset_pending (s : State) : (s.applyReset).pending = s.pending := rfl
@[simp] theorem State.applyReset_reads (s : State) : (s.applyReset).reads = s.reads := rfl

/-! `setTxBytes`: only `tx`. -/

@[simp] theorem State.setTxBytes_sizes (s : State) (i : Nat) (bs : List Byte) : (s.setTxBytes i bs).sizes = s.sizes := by
  induction bs generalizing s i with
  | nil => rfl
  | cons b bs ih => exact ih (s.setTxByte i b) (i + 1)
@[simp] theorem State.setTxBytes_crc (s : State) (i : Nat) (bs : List Byte) : (s.setTxBytes i bs).crc = s.crc := by
  induction bs generalizing s i with
  | nil => rfl
  | cons b bs ih => exact ih (s.setTxByte i b) (i + 1)
@[simp] theorem State.setTxBytes_txplen (s : State) (i : Nat) (bs : List Byte) : (s.setTxBytes i bs).txplen = s.txplen := by
  induction bs generalizing s i with
  | nil => rfl
  | cons b bs ih => exact ih (s.setTxByte i b) (i + 1)
@[simp] theorem State.setTxBytes_txlen (s : State) (i : Nat) (bs : List Byte) : (s.setTxBytes i bs).txlen = s.txlen := by
  induction bs generalizing s i with
  | nil => rfl
  | cons b bs ih => exact ih (s.setTxByte i b) (i + 1)
@[simp] theorem State.setTxBytes_rxdlen (s : State) (i : Nat) (bs : List Byte) : (s.setTxBytes i bs).rxdlen = s.rxdlen := by
  induction bs generalizing s i with
  | nil => rfl
  | cons b bs ih => exact ih (s.setTxByte i b) (i + 1)
@[simp] theorem State.setTxBytes_rxdecl (s : State) (i : Nat) (bs : List Byte) : (s.setTxBytes i bs).rxdecl = s.rxdecl := by
  induction bs generalizing s i with
  | nil => rfl
  | cons b bs ih => exact ih (s.setTxByte i b) (i + 1)
@[simp] theorem State.setTxBytes_eflag (s : State) (i : Nat) (bs : List Byte) : (s.setTxBytes i bs).eflag = s.eflag := by
  induction bs generalizing s i with
  | nil => rfl
  | cons b bs ih => exact ih (s.setTxByte i b) (i + 1)
@[simp] theorem State.setTxBytes_lenbad (s : State) (i : Nat) (bs : List Byte) : (s.setTxBytes i bs).lenbad = s.lenbad := by
  induction bs generalizing s i with
  | nil => rfl
  | cons b bs ih => exact ih (s.setTxByte i b) (i + 1)
@[simp] theorem State.setTxBytes_chkok (s : State) (i : Nat) (bs : List Byte) : (s.setTxBytes i bs).chkok = s.chkok := by
  induction bs generalizing s i with
  | nil => rfl
  | cons b bs ih => exact ih (s.setTxByte i b) (i + 1)
@[simp] theorem State.setTxBytes_errOpc (s : State) (i : Nat) (bs : List Byte) : (s.setTxBytes i bs).errOpc = s.errOpc := by
  induction bs generalizing s i with
  | nil => rfl
  | cons b bs ih => exact ih (s.setTxByte i b) (i + 1)
@[simp] theorem State.setTxBytes_errRsv (s : State) (i : Nat) (bs : List Byte) : (s.setTxBytes i bs).errRsv = s.errRsv := by
  induction bs generalizing s i with
  | nil => rfl
  | cons b bs ih => exact ih (s.setTxByte i b) (i + 1)
@[simp] theorem State.setTxBytes_errRange (s : State) (i : Nat) (bs : List Byte) : (s.setTxBytes i bs).errRange = s.errRange := by
  induction bs generalizing s i with
  | nil => rfl
  | cons b bs ih => exact ih (s.setTxByte i b) (i + 1)
@[simp] theorem State.setTxBytes_errcmd (s : State) (i : Nat) (bs : List Byte) : (s.setTxBytes i bs).errcmd = s.errcmd := by
  induction bs generalizing s i with
  | nil => rfl
  | cons b bs ih => exact ih (s.setTxByte i b) (i + 1)
@[simp] theorem State.setTxBytes_rx (s : State) (i : Nat) (bs : List Byte) : (s.setTxBytes i bs).rx = s.rx := by
  induction bs generalizing s i with
  | nil => rfl
  | cons b bs ih => exact ih (s.setTxByte i b) (i + 1)
@[simp] theorem State.setTxBytes_resets (s : State) (i : Nat) (bs : List Byte) : (s.setTxBytes i bs).resets = s.resets := by
  induction bs generalizing s i with
  | nil => rfl
  | cons b bs ih => exact ih (s.setTxByte i b) (i + 1)
@[simp] theorem State.setTxBytes_pending (s : State) (i : Nat) (bs : List Byte) : (s.setTxBytes i bs).pending = s.pending := by
  induction bs generalizing s i with
  | nil => rfl
  | cons b bs ih => exact ih (s.setTxByte i b) (i + 1)
@[simp] theorem State.setTxBytes_reads (s : State) (i : Nat) (bs : List Byte) : (s.setTxBytes i bs).reads = s.reads := by
  induction bs generalizing s i with
  | nil => rfl
  | cons b bs ih => exact ih (s.setTxByte i b) (i + 1)

end Sys2Proof.Machine
end

