-- ==== Sys2Proof/Laws/Memory.lean ====
section
/-! SUPPORT. The laws of a packet buffer: a read after a write, the canonical form, and that it is canonical. -/

namespace Sys2Proof.Machine

@[simp] theorem Memory.get?_nil (j : Nat) : Memory.get? [] j = none := rfl

theorem Memory.get?_cons (c : Host.Cell) (m : Memory) (j : Nat) :
    Memory.get? (c :: m) j = if j = c.1 then some c.2 else Memory.get? m j := rfl

/-- A read after a write: the written index holds the value, every other index what it held. -/
theorem Memory.get?_set (m : Memory) (i j : Nat) (v : Byte) :
    (Memory.set m i v).get? j = if j = i then some v else m.get? j := by
  induction m with
  | nil => rfl
  | cons c m ih =>
    obtain ⟨a, b⟩ := c
    unfold Memory.set
    split
    · rfl
    · split
      · subst_vars; simp only [Memory.get?_cons]; split <;> rfl
      · simp only [Memory.get?_cons, ih]; split <;> split <;> simp_all

theorem Memory.wf_cons (c : Host.Cell) (m : Memory) :
    Memory.wf (c :: m) = true ↔ (∀ d ∈ m.head?, c.1 < d.1) ∧ Memory.wf m = true := by
  cases m with
  | nil => simp [Memory.wf]
  | cons d m => simp [Memory.wf]

/-- The first index after a write is the written one or the one that stood first. -/
theorem Memory.head?_set (m : Memory) (i : Nat) (v : Byte) (d : Host.Cell) (h : d ∈ (Memory.set m i v).head?) :
    d.1 = i ∨ ∃ e ∈ m.head?, e.1 = d.1 := by
  cases m with
  | nil => simp [Memory.set] at h; simp [← h]
  | cons c m =>
    obtain ⟨a, b⟩ := c
    unfold Memory.set at h
    split at h
    · left; simp at h; simp [← h]
    · split at h
      · left; simp at h; simp [← h]
      · right; simp at h; simp [← h]

/-- A write keeps the canonical form. -/
theorem Memory.wf_set (m : Memory) (i : Nat) (v : Byte) (h : m.wf = true) : (Memory.set m i v).wf = true := by
  induction m with
  | nil => rfl
  | cons c m ih =>
    obtain ⟨a, b⟩ := c
    obtain ⟨hd, hm⟩ := (Memory.wf_cons _ _).1 h
    unfold Memory.set
    split
    · exact (Memory.wf_cons _ _).2 ⟨by simpa using ‹i < a›, h⟩
    · split
      · subst_vars; exact (Memory.wf_cons _ _).2 ⟨hd, hm⟩
      · refine (Memory.wf_cons _ _).2 ⟨fun d hd' => ?_, ih hm⟩
        obtain h1 | ⟨e, he, h1⟩ := Memory.head?_set m i v d hd'
        · simp only; omega
        · exact h1 ▸ hd e he

/-- A write inside the buffer keeps every listed index inside it. -/
theorem Memory.within_set (n : Nat) (m : Memory) (i : Nat) (v : Byte) (h : Memory.within n m = true) (hi : i < n) :
    Memory.within n (Memory.set m i v) = true := by
  induction m with
  | nil => simp [Memory.set, Memory.within, hi]
  | cons c m ih =>
    obtain ⟨a, b⟩ := c
    simp only [Memory.within, List.all_cons, Bool.and_eq_true] at h ih
    unfold Memory.set
    split
    · simp [Memory.within, hi, h.1]; simpa using h.2
    · split
      · simp [Memory.within, hi]; simpa using h.2
      · simp only [Memory.within, List.all_cons, Bool.and_eq_true]; exact ⟨h.1, ih h.2⟩

/-- In the canonical form an index below the first listed one is not listed. -/
theorem Memory.get?_below (c : Host.Cell) (m : Memory) (h : Memory.wf (c :: m) = true) (j : Nat) (hj : j ≤ c.1) :
    m.get? j = none := by
  induction m generalizing c with
  | nil => rfl
  | cons d m ih =>
    obtain ⟨hd, hm⟩ := (Memory.wf_cons _ _).1 h
    have hcd : c.1 < d.1 := hd d rfl
    rw [Memory.get?_cons, if_neg (by omega)]
    exact ih d hm (by omega)

/-- The form is canonical: two buffers in it that read alike are the same data. -/
theorem Memory.ext_of_wf (m m' : Memory) (h : m.wf = true) (h' : m'.wf = true)
    (heq : ∀ j, m.get? j = m'.get? j) : m = m' := by
  induction m generalizing m' with
  | nil =>
    cases m' with
    | nil => rfl
    | cons d m' => simpa [Memory.get?_cons] using heq d.1
  | cons c m ih =>
    cases m' with
    | nil => simpa [Memory.get?_cons] using heq c.1
    | cons d m' =>
      have hc := heq c.1
      have hd := heq d.1
      simp only [Memory.get?_cons, if_true] at hc hd
      have hcd : c.1 = d.1 := by
        rcases Nat.lt_trichotomy c.1 d.1 with hlt | he | hgt
        · rw [if_neg (by omega), Memory.get?_below d m' h' c.1 (by omega)] at hc; simp at hc
        · exact he
        · rw [if_neg (by omega), Memory.get?_below c m h d.1 (by omega)] at hd; simp at hd
      have hv : c.2 = d.2 := by simpa [hcd] using hc
      have hcons : c = d := Prod.ext hcd hv
      subst hcons
      congr 1
      refine ih m' ((Memory.wf_cons _ _).1 h).2 ((Memory.wf_cons _ _).1 h').2 fun j => ?_
      have hj := heq j
      simp only [Memory.get?_cons] at hj
      split at hj
      · subst_vars; rw [Memory.get?_below c m h _ (le_refl _), Memory.get?_below c m' h' _ (le_refl _)]
      · exact hj

@[simp] theorem State.setTxByte_txByte (s : State) (i j : Nat) (b : Byte) :
    (s.setTxByte i b).txByte j = if j = i then b else s.txByte j := by
  simp only [State.txByte, State.setTxByte_tx, State.setTxByte_resets, Memory.get?_set]
  split <;> rfl

@[simp] theorem State.setRxByte_rxByte (s : State) (i j : Nat) (b : Byte) :
    (s.setRxByte i b).rxByte j = if j = i then b else s.rxByte j := by
  simp only [State.rxByte, State.setRxByte_rx, State.setRxByte_resets, Memory.get?_set]
  split <;> rfl

/-- A byte of TX depends only on `tx` and `resets`. -/
theorem State.txByte_congr {s t : State} (h : t.tx = s.tx) (hr : t.resets = s.resets) (j : Nat) :
    t.txByte j = s.txByte j := by simp only [State.txByte, h, hr]

/-- A byte of RX depends only on `rx` and `resets`. -/
theorem State.rxByte_congr {s t : State} (h : t.rx = s.rx) (hr : t.resets = s.resets) (j : Nat) :
    t.rxByte j = s.rxByte j := by simp only [State.rxByte, h, hr]

/-- Writing a run of bytes: inside the run the byte given, outside it the byte held. -/
theorem State.setTxBytes_txByte (s : State) (i j : Nat) (bs : List Byte) :
    (s.setTxBytes i bs).txByte j = if h : i ≤ j ∧ j < i + bs.length then bs[j - i] else s.txByte j := by
  induction bs generalizing s i with
  | nil => simp only [State.setTxBytes, List.length_nil]; rw [dif_neg (by omega)]
  | cons b bs ih =>
    simp only [State.setTxBytes, ih, List.length_cons, State.setTxByte_txByte]
    by_cases h1 : i + 1 ≤ j ∧ j < i + 1 + bs.length
    · rw [dif_pos h1, dif_pos (by omega)]
      obtain ⟨k, rfl⟩ : ∃ k, j = i + 1 + k := ⟨j - (i + 1), by omega⟩
      simp only [show i + 1 + k - i = k + 1 by omega, show i + 1 + k - (i + 1) = k by omega, List.getElem_cons_succ]
    · rw [dif_neg h1]
      by_cases h2 : j = i
      · subst h2; rw [if_pos rfl, dif_pos (by omega)]; simp
      · rw [if_neg h2, dif_neg (by omega)]

/-- Writing a run of bytes changes `tx` alone. -/
theorem State.setTxBytes_eq (s : State) (i : Nat) (bs : List Byte) :
    s.setTxBytes i bs = { s with tx := (s.setTxBytes i bs).tx } := by
  induction bs generalizing s i with
  | nil => rfl
  | cons b bs ih => exact ih (s.setTxByte i b) (i + 1)

/-- Writing the two bytes of a trailer. -/
theorem State.setTxBytes_be16_txByte (s : State) (i j : Nat) (c : Half) :
    (s.setTxBytes i (be16 c)).txByte j =
      if j = i then hiByte c else if j = i + 1 then loByte c else s.txByte j := by
  simp only [be16, State.setTxBytes, State.setTxByte_txByte]
  split <;> split <;> first | rfl | omega

theorem State.setTxBytes_wf (s : State) (i : Nat) (bs : List Byte) (h : s.tx.wf = true) :
    (s.setTxBytes i bs).tx.wf = true := by
  induction bs generalizing s i with
  | nil => exact h
  | cons b bs ih => exact ih _ _ (Memory.wf_set _ _ _ h)

theorem State.setTxBytes_within (s : State) (n i : Nat) (bs : List Byte) (h : Memory.within n s.tx = true)
    (hi : i + bs.length ≤ n) : Memory.within n (s.setTxBytes i bs).tx = true := by
  induction bs generalizing s i with
  | nil => exact h
  | cons b bs ih =>
    simp only [List.length_cons] at hi
    exact ih _ _ (Memory.within_set _ _ _ _ h (by omega)) (by omega)

@[simp] theorem State.txBytesFrom_length (s : State) (a n : Nat) : (s.txBytesFrom a n).length = n := by
  induction n generalizing a with
  | zero => rfl
  | succ n ih => simp [State.txBytesFrom, ih]

@[simp] theorem State.rxBytesFrom_length (s : State) (a n : Nat) : (s.rxBytesFrom a n).length = n := by
  induction n generalizing a with
  | zero => rfl
  | succ n ih => simp [State.rxBytesFrom, ih]

@[simp] theorem State.txBytesFrom_getElem (s : State) (a n k : Nat) (h : k < (s.txBytesFrom a n).length) :
    (s.txBytesFrom a n)[k] = s.txByte (a + k) := by
  induction n generalizing a k with
  | zero => simp [State.txBytesFrom] at h
  | succ n ih =>
    cases k with
    | zero => rfl
    | succ k => simp only [State.txBytesFrom, List.getElem_cons_succ, ih]; congr 1; omega

@[simp] theorem State.rxBytesFrom_getElem (s : State) (a n k : Nat) (h : k < (s.rxBytesFrom a n).length) :
    (s.rxBytesFrom a n)[k] = s.rxByte (a + k) := by
  induction n generalizing a k with
  | zero => simp [State.rxBytesFrom] at h
  | succ n ih =>
    cases k with
    | zero => rfl
    | succ k => simp only [State.rxBytesFrom, List.getElem_cons_succ, ih]; congr 1; omega

/-- A slice splits at any point. -/
theorem State.txBytesFrom_add (s : State) (a m n : Nat) :
    s.txBytesFrom a (m + n) = s.txBytesFrom a m ++ s.txBytesFrom (a + m) n := by
  refine List.ext_getElem (by simp) fun k h1 h2 => ?_
  simp only [State.txBytesFrom_getElem, List.getElem_append, State.txBytesFrom_length]
  split <;> congr 1; omega

theorem State.rxBytesFrom_add (s : State) (a m n : Nat) :
    s.rxBytesFrom a (m + n) = s.rxBytesFrom a m ++ s.rxBytesFrom (a + m) n := by
  refine List.ext_getElem (by simp) fun k h1 h2 => ?_
  simp only [State.rxBytesFrom_getElem, List.getElem_append, State.rxBytesFrom_length]
  split <;> congr 1; omega

/-- A slice depends only on its own bytes. -/
theorem State.txBytesFrom_congr {s t : State} (a n : Nat) (h : ∀ j, a ≤ j → j < a + n → t.txByte j = s.txByte j) :
    t.txBytesFrom a n = s.txBytesFrom a n := by
  refine List.ext_getElem (by simp) fun k h1 h2 => ?_
  simp only [State.txBytesFrom_length] at h1
  simp only [State.txBytesFrom_getElem]
  exact h _ (by omega) (by omega)

theorem State.rxBytesFrom_congr {s t : State} (a n : Nat) (h : ∀ j, a ≤ j → j < a + n → t.rxByte j = s.rxByte j) :
    t.rxBytesFrom a n = s.rxBytesFrom a n := by
  refine List.ext_getElem (by simp) fun k h1 h2 => ?_
  simp only [State.rxBytesFrom_length] at h1
  simp only [State.rxBytesFrom_getElem]
  exact h _ (by omega) (by omega)

theorem State.setTxByte_wf (s : State) (i : Nat) (b : Byte) (h : s.tx.wf = true) : (s.setTxByte i b).tx.wf = true :=
  Memory.wf_set _ _ _ h

theorem State.setRxByte_wf (s : State) (i : Nat) (b : Byte) (h : s.rx.wf = true) : (s.setRxByte i b).rx.wf = true :=
  Memory.wf_set _ _ _ h

/-- The buffers right after reset are in the canonical form. -/
theorem State.resetWith_wf (z : BufferSizes) :
    (State.resetWith z).tx.wf = true ∧ (State.resetWith z).rx.wf = true := ⟨rfl, rfl⟩

theorem State.reset_wf : State.reset.tx.wf = true ∧ State.reset.rx.wf = true := State.resetWith_wf _

end Sys2Proof.Machine
end

