-- ==== Sys2Proof/Laws/Crc.lean ====
section
/-! SUPPORT. The algebra of the CRC: a round is linear over xor and loses no bit. -/

namespace Sys2Proof.Machine

/-- A round is linear. -/
theorem crcRound_xor (a b : Half) : crcRound (a ^^^ b) = crcRound a ^^^ crcRound b := by
  simp only [crcRound, BitVec.getLsbD_xor, BitVec.shiftLeft_xor_distrib]
  cases a.getLsbD 15 <;> cases b.getLsbD 15 <;> simp only [Bool.xor_false, Bool.xor_true, Bool.not_true,
    Bool.not_false, if_true, if_false, Bool.false_eq_true]
  all_goals
    apply BitVec.eq_of_getLsbD_eq
    intro i _
    simp only [BitVec.getLsbD_xor]
    cases (a <<< 1).getLsbD i <;> cases (b <<< 1).getLsbD i <;> cases (0x8005#16).getLsbD i <;> rfl

theorem crcRounds_xor (n : Nat) (a b : Half) : crcRounds n (a ^^^ b) = crcRounds n a ^^^ crcRounds n b := by
  induction n generalizing a b with
  | zero => rfl
  | succ n ih => simp only [crcRounds, crcRound_xor, ih]

theorem crcRounds_zero (n : Nat) : crcRounds n 0x0000#16 = 0x0000#16 := by
  induction n with
  | zero => rfl
  | succ n ih => rw [crcRounds, show crcRound 0x0000#16 = 0x0000#16 from by decide, ih]

/-- A round loses no bit: the polynomial's constant term is 1. -/
theorem crcRound_eq_zero (a : Half) (h : crcRound a = 0x0000#16) : a = 0x0000#16 := by
  have hb : ∀ i, i < 16 → (crcRound a).getLsbD i = false := fun i _ => by simp [h]
  have h0 := hb 0 (by decide)
  unfold crcRound at h0 hb
  split at h0
  · simp at h0
  · next h15 =>
    simp only [if_neg h15] at hb
    apply BitVec.eq_of_getLsbD_eq
    intro i hi
    by_cases hi15 : i = 15
    · subst hi15; simpa using h15
    · have := hb (i + 1) (by omega)
      simp at this
      rw [this (by omega)]; simp

theorem crcRounds_eq_zero (n : Nat) (a : Half) (h : crcRounds n a = 0x0000#16) : a = 0x0000#16 := by
  induction n generalizing a with
  | zero => exact h
  | succ n ih => exact crcRound_eq_zero a (ih _ h)

/-- Rounds are injective. -/
theorem crcRounds_injective (n : Nat) (a b : Half) (h : crcRounds n a = crcRounds n b) : a = b := by
  have h0 : crcRounds n (a ^^^ b) = 0x0000#16 := by rw [crcRounds_xor, h, BitVec.xor_self]
  exact BitVec.xor_eq_zero_iff.1 (crcRounds_eq_zero n _ h0)

/-- The first eight rounds of a value below 256 only shift it. -/
theorem crcRounds_low (b : Byte) : crcRounds 8 (b.setWidth 16) = (b.setWidth 16 : Half) <<< 8 := by
  revert b; decide

end Sys2Proof.Machine
end

