-- ==== Sys2Proof/Laws/Decode.lean ====
section
/-! SUPPORT. Decoding as one chain of cases on the opcode field. -/

namespace Sys2Proof

theorem opcodeOf_eq (op : Byte) :
    opcodeOf op =
      if op = 0x01#8 then some .crcInit else if op = 0x02#8 then some .crcByte
      else if op = 0x03#8 then some .trlGen else if op = 0x04#8 then some .trlChk
      else if op = 0x05#8 then some .pktEnc else if op = 0x06#8 then some .pktDec else none := by
  revert op; decide

/-- What `decode` answers, for every opcode field. -/
theorem decode_eq (w : Word) :
    decode w =
      if opField w = 0x01#8 then (if w &&& 0xFFFFFF00#32 = 0#32 then .command .crcInit else .rejected .eRsv)
      else if opField w = 0x02#8 then
        (if w &&& 0xFFFF0000#32 = 0#32 then .command (.crcByte (dataField w)) else .rejected .eRsv)
      else if opField w = 0x03#8 then
        (if w &&& 0x0000FF00#32 = 0#32 then .command (.trlGen (countField w)) else .rejected .eRsv)
      else if opField w = 0x04#8 then
        (if w &&& 0x0000FF00#32 = 0#32 then .command (.trlChk (countField w)) else .rejected .eRsv)
      else if opField w = 0x05#8 then
        (if w &&& 0xFF000000#32 = 0#32 then .command (.pktEnc (typeField w) (idField w)) else .rejected .eRsv)
      else if opField w = 0x06#8 then
        (if w &&& 0xFF000000#32 = 0#32 then .command (.pktDec (typeField w) (idField w)) else .rejected .eRsv)
      else .rejected .eOpc := by
  rw [decode, opcodeOf_eq]
  by_cases h1 : opField w = 0x01#8
  · simp only [if_pos h1]; rfl
  by_cases h2 : opField w = 0x02#8
  · simp only [if_neg h1, if_pos h2]; rfl
  by_cases h3 : opField w = 0x03#8
  · simp only [if_neg h1, if_neg h2, if_pos h3]; rfl
  by_cases h4 : opField w = 0x04#8
  · simp only [if_neg h1, if_neg h2, if_neg h3, if_pos h4]; rfl
  by_cases h5 : opField w = 0x05#8
  · simp only [if_neg h1, if_neg h2, if_neg h3, if_neg h4, if_pos h5]; rfl
  by_cases h6 : opField w = 0x06#8
  · simp only [if_neg h1, if_neg h2, if_neg h3, if_neg h4, if_neg h5, if_pos h6]; rfl
  · simp only [if_neg h1, if_neg h2, if_neg h3, if_neg h4, if_neg h5, if_neg h6]

end Sys2Proof
end

