-- ==== Sys2Proof/Laws/Exec.lean ====
section
/-! SUPPORT. What one command can do: its next state, by command, and what no command touches. -/

namespace Sys2Proof.Machine

theorem execCrcInit_eq (s : State) : execCrcInit s = .next (s.setCrc 0x0000#16) := rfl

theorem execCrcByte_eq (b : Byte) (s : State) : execCrcByte b s = .next (s.setCrc (crcStep s.crc b)) := rfl

/-- The state after a TRAILER_GEN that is in range. -/
def trlGenResult (k : Half) (s : State) : State :=
  (s.setTxBytes k.toNat (be16 (crc16 (s.txBytesFrom 0 k.toNat)))).setCrc (crc16 (s.txBytesFrom 0 k.toNat))

theorem execTrlGen_inRange (k : Half) (s : State) (h : trlGenInRange s.sizes k) :
    execTrlGen k s = .next (trlGenResult k s) := if_pos h

theorem execTrlGen_outOfRange (k : Half) (s : State) (h : ¬ trlGenInRange s.sizes k) :
    execTrlGen k s = .next (s.raiseCmdError .eRange (encode (.trlGen k))) := if_neg h

/-- The state after a TRAILER_CHK that is in range. -/
def trlChkResult (k : Half) (s : State) : State :=
  (s.setCrc (crc16 (s.rxBytesFrom 0 k.toNat))).setChkok (chkokOf (crc16 (s.rxBytesFrom 0 k.toNat)))

theorem execTrlChk_inRange (k : Half) (s : State) (h : trlChkInRange s.sizes k) :
    execTrlChk k s = .next (trlChkResult k s) := if_pos h

theorem execTrlChk_outOfRange (k : Half) (s : State) (h : ¬ trlChkInRange s.sizes k) :
    execTrlChk k s = .next (s.raiseCmdError .eRange (encode (.trlChk k))) := if_neg h

/-- The state after ENCODE's header is written. -/
def encodeHeader (type id : Byte) (s : State) : State := s.setTxBytes 0 (packetHead type id s.encodeCount)

/-- The CRC that ENCODE computes. -/
def encodeCrc (type id : Byte) (s : State) : Half := crc16 ((encodeHeader type id s).txBytesFrom 0 (4 + s.encodeCount))

/-- The state after an ENCODE that is in range. -/
def pktEncResult (type id : Byte) (s : State) : State :=
  (((encodeHeader type id s).setTxBytes (4 + s.encodeCount) (be16 (encodeCrc type id s))).setCrc
    (encodeCrc type id s)).setTxlen (BitVec.ofNat 16 (s.encodeCount + 6))

theorem execPktEnc_inRange (type id : Byte) (s : State) (h : encodeInRange s.sizes s.encodeCount) :
    execPktEnc type id s = .next (pktEncResult type id s) := if_pos h

theorem execPktEnc_outOfRange (type id : Byte) (s : State) (h : ¬ encodeInRange s.sizes s.encodeCount) :
    execPktEnc type id s = .next (s.raiseCmdError .eRange (encode (.pktEnc type id))) := if_neg h

theorem execPktDec_eq (type id : Byte) (s : State) :
    execPktDec type id s = .next ((s.setRxdecl s.declaredLength).setVerdict (decodeVerdict type id s)) := rfl

/-- Every command is in one of these cases: the whole of what `exec` can answer. -/
theorem exec_cases (i : Instr) (s : State) :
    (i = .crcInit ∧ exec i s = .next (s.setCrc 0x0000#16)) ∨
    (∃ b, i = .crcByte b ∧ exec i s = .next (s.setCrc (crcStep s.crc b))) ∨
    (∃ k, i = .trlGen k ∧ trlGenInRange s.sizes k ∧ exec i s = .next (trlGenResult k s)) ∨
    (∃ k, i = .trlGen k ∧ ¬ trlGenInRange s.sizes k ∧ exec i s = .next (s.raiseCmdError .eRange (encode i))) ∨
    (∃ k, i = .trlChk k ∧ trlChkInRange s.sizes k ∧ exec i s = .next (trlChkResult k s)) ∨
    (∃ k, i = .trlChk k ∧ ¬ trlChkInRange s.sizes k ∧ exec i s = .next (s.raiseCmdError .eRange (encode i))) ∨
    (∃ t d, i = .pktEnc t d ∧ encodeInRange s.sizes s.encodeCount ∧ exec i s = .next (pktEncResult t d s)) ∨
    (∃ t d, i = .pktEnc t d ∧ ¬ encodeInRange s.sizes s.encodeCount ∧
      exec i s = .next (s.raiseCmdError .eRange (encode i))) ∨
    (∃ t d, i = .pktDec t d ∧
      exec i s = .next ((s.setRxdecl s.declaredLength).setVerdict (decodeVerdict t d s))) := by
  cases i with
  | crcInit => exact .inl ⟨rfl, rfl⟩
  | crcByte b => exact .inr (.inl ⟨b, rfl, rfl⟩)
  | trlGen k =>
    by_cases h : trlGenInRange s.sizes k
    · exact .inr (.inr (.inl ⟨k, rfl, h, execTrlGen_inRange k s h⟩))
    · exact .inr (.inr (.inr (.inl ⟨k, rfl, h, execTrlGen_outOfRange k s h⟩)))
  | trlChk k =>
    by_cases h : trlChkInRange s.sizes k
    · exact .inr (.inr (.inr (.inr (.inl ⟨k, rfl, h, execTrlChk_inRange k s h⟩))))
    · exact .inr (.inr (.inr (.inr (.inr (.inl ⟨k, rfl, h, execTrlChk_outOfRange k s h⟩)))))
  | pktEnc t d =>
    by_cases h : encodeInRange s.sizes s.encodeCount
    · exact .inr (.inr (.inr (.inr (.inr (.inr (.inl ⟨t, d, rfl, h, execPktEnc_inRange t d s h⟩))))))
    · exact .inr (.inr (.inr (.inr (.inr (.inr (.inr (.inl ⟨t, d, rfl, h, execPktEnc_outOfRange t d s h⟩)))))))
  | pktDec t d => exact .inr (.inr (.inr (.inr (.inr (.inr (.inr (.inr ⟨t, d, rfl, rfl⟩)))))))

/-- Every command answers a next state (spec/60_exceptions.md R176: the block has no trap). -/
theorem exec_next (i : Instr) (s : State) : ∃ t, exec i s = .next t := by
  obtain ⟨_, h⟩ | ⟨_, _, h⟩ | ⟨_, _, _, h⟩ | ⟨_, _, _, h⟩ | ⟨_, _, _, h⟩ | ⟨_, _, _, h⟩ | ⟨_, _, _, _, h⟩ |
    ⟨_, _, _, _, h⟩ | ⟨_, _, _, h⟩ := exec_cases i s
  all_goals exact ⟨_, h⟩

/-- What no command touches. -/
structure CommandFrame (s t : State) : Prop where
  sizes : t.sizes = s.sizes
  txplen : t.txplen = s.txplen
  rx : t.rx = s.rx
  resets : t.resets = s.resets
  pending : t.pending = s.pending
  reads : t.reads = s.reads
  errOpc : t.errOpc = s.errOpc
  errRsv : t.errRsv = s.errRsv

theorem exec_frame (i : Instr) (s t : State) (h : exec i s = .next t) : CommandFrame s t := by
  obtain ⟨_, h'⟩ | ⟨_, _, h'⟩ | ⟨_, _, _, h'⟩ | ⟨_, _, _, h'⟩ | ⟨_, _, _, h'⟩ | ⟨_, _, _, h'⟩ | ⟨_, _, _, _, h'⟩ |
    ⟨_, _, _, _, h'⟩ | ⟨_, _, _, h'⟩ := exec_cases i s
  all_goals
    rw [h'] at h
    cases h
    constructor <;> simp [trlGenResult, trlChkResult, pktEncResult, encodeHeader]

end Sys2Proof.Machine
end

