-- ==== Sys2Proof/Laws/Port.lean ====
section
/-! SUPPORT. What one step can do: which accesses are served, and one lemma per kind of event. -/

namespace Sys2Proof.Machine

/-- The offset lies in a mapped range exactly when the address map names a word there. -/
theorem targetAt_isSome (z : BufferSizes) (hz : z.Legal) (offset : Nat) (h4 : offset % 4 = 0) :
    (targetAt z offset).isSome = true ↔ Mapped z offset := by
  obtain ⟨h1, -, h2, -⟩ := hz
  unfold targetAt Mapped tableBase txBase rxBase
  by_cases h : offset < 0x28
  · rw [if_pos h]
    have : offset = 0x00 ∨ offset = 0x04 ∨ offset = 0x08 ∨ offset = 0x0C ∨ offset = 0x10 ∨ offset = 0x14 ∨
        offset = 0x18 ∨ offset = 0x1C ∨ offset = 0x20 ∨ offset = 0x24 := by omega
    obtain rfl | rfl | rfl | rfl | rfl | rfl | rfl | rfl | rfl | rfl := this
    all_goals simp [regAt]
  · rw [if_neg h]
    split
    · simp; omega
    · split
      · simp; omega
      · split
        · simp; omega
        · simp; omega

/-- The port serves exactly the servable accesses (spec/20_memory.md R51). -/
theorem locate_ok_iff (z : BufferSizes) (hz : z.Legal) (width offset : Nat) :
    (∃ t, locate z width offset = .ok t) ↔ Servable z width offset := by
  have hm := targetAt_isSome z hz offset
  have hz' := hz
  obtain ⟨h1, h2, h3, h4⟩ := hz'
  unfold locate Servable
  by_cases hw : width = 32
  · by_cases ha : offset % 4 = 0
    · have hm := hm ha
      simp only [hw, ha, ne_eq, not_true_eq_false, if_false, true_and]
      by_cases ho : 0x40000 ≤ offset
      · simp only [ho, if_true]
        constructor
        · rintro ⟨_, h⟩; cases h
        · intro h; unfold Mapped at h; omega
      · simp only [ho, if_false, ← hm]
        cases targetAt z offset <;> simp
    · simp [hw, ha]
  · simp [hw]

/-- An access that is not served is a fault, one with no state (spec/20_memory.md R54). -/
theorem takeEvent_read (width offset : Nat) (s : State) :
    takeEvent (.access (.read width offset)) s =
      match locate s.sizes width offset with
      | .error c => .fault (.busError c)
      | .ok t => .next (s.logRead (s.portWord t)) := by
  simp only [takeEvent, serveAccess]
  cases locate s.sizes width offset <;> rfl

theorem writeTarget_next (t : Target) (v : Word) (s : State) : ∃ u, writeTarget t v s = .next u := by
  rcases t with r | i | i | i
  · cases r <;> first | exact ⟨_, rfl⟩ | skip
    simp only [writeTarget, runCommandWord]
    cases decode v with
    | command i => exact exec_next i s
    | rejected c => exact ⟨_, rfl⟩
  all_goals exact ⟨_, rfl⟩

theorem takeEvent_write (width offset : Nat) (v : Word) (s : State) :
    takeEvent (.access (.write width offset v)) s =
      match locate s.sizes width offset with
      | .error c => .fault (.busError c)
      | .ok t => writeTarget t v s := by
  simp only [takeEvent, serveAccess]
  cases locate s.sizes width offset with
  | error c => rfl
  | ok t =>
    obtain ⟨u, hu⟩ := writeTarget_next t v s
    simp only [hu, afterReply]

theorem takeEvent_reset (s : State) : takeEvent .reset s = .next s.applyReset := rfl

/-- A write to CMD is located at CMD in every configuration. -/
theorem takeEvent_cmdWrite (w : Word) (s : State) : takeEvent (cmdWrite w) s = runCommandWord w s := by
  rw [cmdWrite, takeEvent_write]; rfl

theorem step_event (s : State) (hz : s.sizes.Legal) (e : PortEvent) (rest : List PortEvent)
    (h : s.pending = e :: rest) : step s = takeEvent e (s.setPending rest) := by
  simp only [step, stepMachine, if_pos hz, h]

/-- A step that answers a next state idles, resets, answers a read, or does a write. -/
theorem step_cases (s t : State) (h : step s = .next t) :
    s.sizes.Legal ∧
    ((s.pending = [] ∧ t = s) ∨
     (∃ rest, s.pending = .reset :: rest ∧ t = (s.setPending rest).applyReset) ∨
     (∃ w o rest x, s.pending = .access (.read w o) :: rest ∧ locate s.sizes w o = .ok x ∧
       t = (s.setPending rest).logRead (s.portWord x)) ∨
     (∃ w o v rest x, s.pending = .access (.write w o v) :: rest ∧ locate s.sizes w o = .ok x ∧
       writeTarget x v (s.setPending rest) = .next t)) := by
  by_cases hz : s.sizes.Legal
  · refine ⟨hz, ?_⟩
    cases hp : s.pending with
    | nil =>
      simp only [step, stepMachine, if_pos hz, hp] at h
      cases h; exact .inl ⟨rfl, rfl⟩
    | cons e rest =>
      rw [step_event s hz e rest hp] at h
      rcases e with (⟨w, o⟩ | ⟨w, o, v⟩) | _
      · rw [takeEvent_read, State.setPending_sizes] at h
        cases hl : locate s.sizes w o with
        | error c => rw [hl] at h; cases h
        | ok x => rw [hl] at h; cases h; exact .inr (.inr (.inl ⟨w, o, rest, x, rfl, hl, rfl⟩))
      · rw [takeEvent_write, State.setPending_sizes] at h
        cases hl : locate s.sizes w o with
        | error c => rw [hl] at h; cases h
        | ok x => rw [hl] at h; exact .inr (.inr (.inr ⟨w, o, v, rest, x, rfl, hl, h⟩))
      · cases h; exact .inr (.inl ⟨rest, rfl, rfl⟩)
  · simp only [step, stepMachine, if_neg hz] at h; cases h

/-- A register's offset is the one of the map. -/
theorem regAt_eq_some (offset : Nat) (r : Reg) (h : regAt offset = some r) : offset = regOffset r := by
  unfold regAt at h; split at h <;> cases h <;> rfl

/-- The word a served access is for determines its offset and, in a buffer window, lies in the buffer. -/
theorem locate_ok_cases (z : BufferSizes) (width offset : Nat) (x : Target)
    (h : locate z width offset = .ok x) :
    width = 32 ∧
    ((∃ r, x = .reg r ∧ offset = regOffset r) ∨
     (∃ i : Byte, x = .table i ∧ offset = 0x00400 + 4 * i.toNat) ∨
     (∃ i, x = .tx i ∧ offset = 0x10000 + 4 * i ∧ i < z.txBytes) ∨
     (∃ i, x = .rx i ∧ offset = 0x20000 + 4 * i ∧ i < z.rxBytes)) := by
  unfold locate at h
  split at h
  · cases h
  split at h
  · cases h
  split at h
  · cases h
  refine ⟨by omega, ?_⟩
  cases ht : targetAt z offset with
  | none => rw [ht] at h; cases h
  | some y =>
    rw [ht] at h; cases h
    unfold targetAt tableBase txBase rxBase at ht
    split at ht
    · cases hr : regAt offset with
      | none => simp [hr] at ht
      | some r => simp [hr] at ht; exact .inl ⟨r, ht.symm, regAt_eq_some offset r hr⟩
    split at ht
    · cases ht; exact .inr (.inl ⟨_, rfl, by simp; omega⟩)
    split at ht
    · cases ht; exact .inr (.inr (.inl ⟨_, rfl, by omega, by omega⟩))
    split at ht
    · cases ht; exact .inr (.inr (.inr ⟨_, rfl, by omega, by omega⟩))
    · cases ht

/-- The words of the TABLE window (spec/20_memory.md R48). -/
theorem locate_table (z : BufferSizes) (i : Nat) (h : i < 256) :
    locate z 32 (0x00400 + 4 * i) = .ok (.table (BitVec.ofNat 8 i)) := by
  have ht : targetAt z (0x00400 + 4 * i) = some (.table (BitVec.ofNat 8 i)) := by
    unfold targetAt tableBase
    rw [if_neg (by omega), if_pos (by omega), show (0x00400 + 4 * i - 0x00400) / 4 = i by omega]
  unfold locate
  rw [if_neg (by simp), if_neg (by omega), if_neg (by omega), ht]

/-- The words of the TX window (spec/20_memory.md R49). -/
theorem locate_tx (z : BufferSizes) (hz : z.Legal) (i : Nat) (h : i < z.txBytes) :
    locate z 32 (0x10000 + 4 * i) = .ok (.tx i) := by
  unfold BufferSizes.Legal at hz
  have ht : targetAt z (0x10000 + 4 * i) = some (.tx i) := by
    unfold targetAt tableBase txBase
    rw [if_neg (by omega), if_neg (by omega), if_pos (by omega), show (0x10000 + 4 * i - 0x10000) / 4 = i by omega]
  unfold locate
  rw [if_neg (by simp), if_neg (by omega), if_neg (by omega), ht]

/-- The words of the RX window (spec/20_memory.md R50). -/
theorem locate_rx (z : BufferSizes) (hz : z.Legal) (i : Nat) (h : i < z.rxBytes) :
    locate z 32 (0x20000 + 4 * i) = .ok (.rx i) := by
  unfold BufferSizes.Legal at hz
  have ht : targetAt z (0x20000 + 4 * i) = some (.rx i) := by
    unfold targetAt tableBase txBase rxBase
    rw [if_neg (by omega), if_neg (by omega), if_neg (by omega), if_pos (by omega),
      show (0x20000 + 4 * i - 0x20000) / 4 = i by omega]
  unfold locate
  rw [if_neg (by simp), if_neg (by omega), if_neg (by omega), ht]

/-- All that a served write can do. -/
theorem writeTarget_cases (x : Target) (v : Word) (s t : State) (h : writeTarget x v s = .next t) :
    (x = .reg .cmd ∧ ((∃ i, decode v = .command i ∧ exec i s = .next t) ∨
      ∃ c, decode v = .rejected c ∧ t = s.raiseCmdError c v)) ∨
    (x = .reg .txplen ∧ t = s.setTxplen (v.extractLsb' 0 16)) ∨
    (x = .reg .err ∧ t = s.clearErr v) ∨
    (∃ i, x = .tx i ∧ t = s.setTxByte i (v.extractLsb' 0 8)) ∨
    (∃ i, x = .rx i ∧ t = s.setRxByte i (v.extractLsb' 0 8)) ∨ t = s := by
  rcases x with r | i | i | i
  · cases r <;> simp only [writeTarget, runCommandWord, Host.Outcome.next.injEq] at h
    · cases hd : decode v with
      | command i => rw [hd] at h; exact .inl ⟨rfl, .inl ⟨i, rfl, h⟩⟩
      | rejected c => rw [hd] at h; cases h; exact .inl ⟨rfl, .inr ⟨c, rfl, rfl⟩⟩
    all_goals simp_all
  all_goals simp only [writeTarget, Host.Outcome.next.injEq] at h; simp_all

/-- A step whose event is a served write. -/
theorem step_write (s : State) (offset : Nat) (v : Word) (rest : List PortEvent) (x : Target) (hz : s.sizes.Legal)
    (hp : s.pending = .access (.write 32 offset v) :: rest) (hl : locate s.sizes 32 offset = .ok x) :
    step s = writeTarget x v (s.setPending rest) := by
  rw [step_event s hz _ rest hp, takeEvent_write, State.setPending_sizes, hl]

/-- What a mapped word reads as does not depend on the host's queue. -/
theorem setPending_portWord (s : State) (rest : List PortEvent) (x : Target) :
    (s.setPending rest).portWord x = s.portWord x := by
  rcases x with r | i | i | i
  · cases r <;> rfl
  all_goals rfl

/-- A step whose event is a served read. -/
theorem step_read (s : State) (offset : Nat) (rest : List PortEvent) (x : Target) (hz : s.sizes.Legal)
    (hp : s.pending = .access (.read 32 offset) :: rest) (hl : locate s.sizes 32 offset = .ok x) :
    step s = .next ((s.setPending rest).logRead (s.portWord x)) := by
  rw [step_event s hz _ rest hp, takeEvent_read, State.setPending_sizes, hl]
  simp only [setPending_portWord]

end Sys2Proof.Machine
end

