-- ==== Sys2Proof/Laws/Host.lean ====
section
/-! SUPPORT. What a host program does: one lemma per access, and one per run of accesses. -/

namespace Sys2Proof.Machine

@[simp] theorem errorFlagOf_errorFlagCode (f : ErrorFlag) : errorFlagOf (errorFlagCode f) = f := by cases f <;> rfl

/-- The host finds EFLAG in the low bits of RESULT (spec/10_state.md R30). -/
@[simp] theorem resultWord_eflag (s : State) : s.resultWord.extractLsb' 0 2 = errorFlagCode s.eflag := by
  unfold State.resultWord
  cases s.eflag <;> cases s.chkok <;> cases s.lenbad <;> decide

@[simp] theorem extractLsb'_zeroExtended_byte (b : Byte) : (b.setWidth 32 : Word).extractLsb' 0 8 = b := by
  ext i hi; simp [hi]; omega

@[simp] theorem toNat_zeroExtended_half (h : Half) : (h.setWidth 32 : Word).toNat = h.toNat := by
  simp only [BitVec.toNat_setWidth]; omega

/-- The event that a host puts before the pending ones is the one the step takes. -/
theorem step_setPending (e : PortEvent) (s : State) (hz : s.sizes.Legal) :
    step (s.setPending (e :: s.pending)) = takeEvent e s :=
  step_event (s.setPending (e :: s.pending)) hz e s.pending rfl

@[simp] theorem issueAll_append {α : Type} (es fs : List PortEvent) (next : HostProgram α) :
    issueAll (es ++ fs) next = issueAll es (issueAll fs next) := by
  induction es with
  | nil => rfl
  | cons e es ih => rw [List.cons_append, issueAll, issueAll, ih]

theorem HostProgram.run_done {α : Type} (r : α) (s : State) : (HostProgram.done r).run s = .next (r, s) := rfl

/-- An event that answers a next state: the host goes on there. -/
theorem HostProgram.run_issue {α : Type} (e : PortEvent) (next : HostProgram α) (s t : State) (hz : s.sizes.Legal)
    (h : takeEvent e s = .next t) : (HostProgram.issue e next).run s = next.run t := by
  rw [HostProgram.run, step_setPending e s hz, h]

/-- A served read: the host goes on with the word's value. -/
theorem HostProgram.run_read {α : Type} (offset : Nat) (next : Word → HostProgram α) (s : State) (x : Target)
    (hz : s.sizes.Legal) (h : locate s.sizes 32 offset = .ok x) :
    (HostProgram.read offset next).run s = (next (s.portWord x)).run (s.logRead (s.portWord x)) := by
  rw [HostProgram.run, step_setPending (rd offset) s hz, rd, takeEvent_read, h]
  rfl

/-- A write to CMD of a word that decodes to a command which answers a next state: the host goes on there. -/
theorem HostProgram.run_cmdWrite {α : Type} (w : Word) (i : Instr) (next : HostProgram α) (s t : State)
    (hz : s.sizes.Legal) (hd : decode w = .command i) (h : exec i s = .next t) :
    (HostProgram.issue (cmdWrite w) next).run s = next.run t :=
  HostProgram.run_issue _ next s t hz (by rw [takeEvent_cmdWrite, runCommandWord, hd]; exact h)

/-- `rd` of a run of TX words: the host goes on with those bytes, and only what it has read changes. -/
theorem HostProgram.run_readTx {α : Type} (j n : Nat) (next : List Byte → HostProgram α) (s : State)
    (hz : s.sizes.Legal) (h : j + n ≤ s.sizes.txBytes) :
    ∃ t, (readBytes txBase j n next).run s = (next (s.txBytesFrom j n)).run t ∧ t = { s with reads := t.reads } := by
  induction n generalizing j s next with
  | zero => exact ⟨s, rfl, rfl⟩
  | succ n ih =>
    have hl : locate s.sizes 32 (txBase + 4 * j) = .ok (.tx j) := locate_tx _ hz j (by omega)
    obtain ⟨t, h1, h2⟩ := ih (j + 1) (fun bs => next (s.txByte j :: bs)) (s.logRead (s.portWord (.tx j))) hz
      (show j + 1 + n ≤ s.sizes.txBytes by omega)
    refine ⟨t, ?_, h2⟩
    rw [readBytes, HostProgram.run_read _ _ s _ hz hl]
    simp only [State.portWord, extractLsb'_zeroExtended_byte] at h1 ⊢
    rw [h1, State.txBytesFrom, State.txBytesFrom_congr (s := s) (t := s.logRead _) (j + 1) n fun _ _ _ => rfl]

/-- `rd` of a run of RX words: the host goes on with those bytes, and only what it has read changes. -/
theorem HostProgram.run_readRx {α : Type} (j n : Nat) (next : List Byte → HostProgram α) (s : State)
    (hz : s.sizes.Legal) (h : j + n ≤ s.sizes.rxBytes) :
    ∃ t, (readBytes rxBase j n next).run s = (next (s.rxBytesFrom j n)).run t ∧ t = { s with reads := t.reads } := by
  induction n generalizing j s next with
  | zero => exact ⟨s, rfl, rfl⟩
  | succ n ih =>
    have hl : locate s.sizes 32 (rxBase + 4 * j) = .ok (.rx j) := locate_rx _ hz j (by omega)
    obtain ⟨t, h1, h2⟩ := ih (j + 1) (fun bs => next (s.rxByte j :: bs)) (s.logRead (s.portWord (.rx j))) hz
      (show j + 1 + n ≤ s.sizes.rxBytes by omega)
    refine ⟨t, ?_, h2⟩
    rw [readBytes, HostProgram.run_read _ _ s _ hz hl]
    simp only [State.portWord, extractLsb'_zeroExtended_byte] at h1 ⊢
    rw [h1, State.rxBytesFrom, State.rxBytesFrom_congr (s := s) (t := s.logRead _) (j + 1) n fun _ _ _ => rfl]

/-- `tx.fill`: TX holds the bytes, and nothing else changes. -/
theorem HostProgram.run_txFill {α : Type} (j : Nat) (bs : List Byte) (next : HostProgram α) (s : State)
    (hz : s.sizes.Legal) (h : j + bs.length ≤ s.sizes.txBytes) :
    ∃ t, (issueAll (txFillEvents j bs) next).run s = next.run t ∧ t.txBytesFrom j bs.length = bs ∧
      (∀ i, i < j ∨ j + bs.length ≤ i → t.txByte i = s.txByte i) ∧ t = { s with tx := t.tx } := by
  induction bs generalizing j s with
  | nil => exact ⟨s, rfl, rfl, fun _ _ => rfl, rfl⟩
  | cons b bs ih =>
    rw [List.length_cons] at h ⊢
    have he : takeEvent (wr (txBase + 4 * j) (b.setWidth 32)) s = .next (s.setTxByte j b) := by
      rw [wr, takeEvent_write, show locate s.sizes 32 (txBase + 4 * j) = .ok (.tx j) from locate_tx _ hz j (by omega)]
      simp only [writeTarget, extractLsb'_zeroExtended_byte]
    obtain ⟨t, h1, h2, h3, h4⟩ := ih (j + 1) (s.setTxByte j b) hz (show j + 1 + bs.length ≤ s.sizes.txBytes by omega)
    refine ⟨t, ?_, ?_, fun i hi => ?_, by rw [h4]; rfl⟩
    · rw [txFillEvents, issueAll, HostProgram.run_issue _ _ s _ hz he, h1]
    · rw [State.txBytesFrom, h2, h3 j (.inl (by omega)), State.setTxByte_txByte, if_pos rfl]
    · rw [h3 i (by omega), State.setTxByte_txByte, if_neg (by omega)]

/-- `rx.fill`: RX holds the bytes, and nothing else changes. -/
theorem HostProgram.run_rxFill {α : Type} (j : Nat) (bs : List Byte) (next : HostProgram α) (s : State)
    (hz : s.sizes.Legal) (h : j + bs.length ≤ s.sizes.rxBytes) :
    ∃ t, (issueAll (rxFillEvents j bs) next).run s = next.run t ∧ t.rxBytesFrom j bs.length = bs ∧
      (∀ i, i < j ∨ j + bs.length ≤ i → t.rxByte i = s.rxByte i) ∧ t = { s with rx := t.rx } := by
  induction bs generalizing j s with
  | nil => exact ⟨s, rfl, rfl, fun _ _ => rfl, rfl⟩
  | cons b bs ih =>
    rw [List.length_cons] at h ⊢
    have he : takeEvent (wr (rxBase + 4 * j) (b.setWidth 32)) s = .next (s.setRxByte j b) := by
      rw [wr, takeEvent_write, show locate s.sizes 32 (rxBase + 4 * j) = .ok (.rx j) from locate_rx _ hz j (by omega)]
      simp only [writeTarget, extractLsb'_zeroExtended_byte]
    obtain ⟨t, h1, h2, h3, h4⟩ := ih (j + 1) (s.setRxByte j b) hz (show j + 1 + bs.length ≤ s.sizes.rxBytes by omega)
    refine ⟨t, ?_, ?_, fun i hi => ?_, by rw [h4]; rfl⟩
    · rw [rxFillEvents, issueAll, HostProgram.run_issue _ _ s _ hz he, h1]
    · rw [State.rxBytesFrom, h2, h3 j (.inl (by omega)), State.setRxByte_rxByte, if_pos rfl]
    · rw [h3 i (by omega), State.setRxByte_rxByte, if_neg (by omega)]

end Sys2Proof.Machine
end

