-- ==== Sys2Proof/Laws/Operands.lean ====
section
/-! SUPPORT. 16-bit values in two bytes: `{a, b}` and its two halves. -/

namespace Sys2Proof.Machine

theorem pair_getLsbD (a b : Byte) (i : Nat) :
    BitVec.getLsbD (pair a b) i = if i < 8 then b.getLsbD i else a.getLsbD (i - 8) :=
  (BitVec.getLsbD_append (x := a) (y := b)).trans (by split <;> simp_all)

/-- `{a, b} = a * 256 + b` (spec/00_scope.md R8). -/
theorem pair_toNat (a b : Byte) : BitVec.toNat (pair a b) = a.toNat * 256 + b.toNat := by
  have h : BitVec.toNat (pair a b) = a.toNat <<< 8 ||| b.toNat := BitVec.toNat_append a b
  rw [h, ← Nat.shiftLeft_add_eq_or_of_lt b.isLt, Nat.shiftLeft_eq]

/-- The two bytes of a value give it back. -/
@[simp] theorem pair_hiByte_loByte (c : Half) : pair (hiByte c) (loByte c) = c := by
  apply BitVec.eq_of_getLsbD_eq
  intro i hi
  rw [pair_getLsbD]
  simp only [hiByte, loByte, BitVec.getLsbD_extractLsb']
  split
  · simp_all
  · simp [show i - 8 < 8 by omega, show 8 + (i - 8) = i by omega]

@[simp] theorem hiByte_pair (a b : Byte) : hiByte (pair a b) = a := by
  apply BitVec.eq_of_getLsbD_eq
  intro i hi
  simp only [hiByte, BitVec.getLsbD_extractLsb', pair_getLsbD]
  simp [hi]

@[simp] theorem loByte_pair (a b : Byte) : loByte (pair a b) = b := by
  apply BitVec.eq_of_getLsbD_eq
  intro i hi
  simp only [loByte, BitVec.getLsbD_extractLsb', pair_getLsbD]
  simp [hi]

end Sys2Proof.Machine
end

