-- ==== Sys2Proof/Laws/PerInstr.lean ====
section
/-! SUPPORT. A statement about every command as syntax, one lemma per constructor: its line is well formed, and its
word holds its own opcode and no reserved bit. -/

namespace Sys2Proof.Laws.EncodedForm

open Sys2Proof

/-- The opcode of a command (spec/30_encoding.md R74). -/
def opcode : Instr → Opcode
  | .crcInit => .crcInit
  | .crcByte _ => .crcByte
  | .trlGen _ => .trlGen
  | .trlChk _ => .trlChk
  | .pktEnc _ _ => .pktEnc
  | .pktDec _ _ => .pktDec

def Statement (i : Instr) : Prop :=
  i.wellFormed = true ∧ opcodeOf (opField (encode i)) = some (opcode i) ∧
    encode i &&& reservedBits (formatOf (opcode i)) = 0#32

theorem crcInit : Statement .crcInit := ⟨rfl, rfl, rfl⟩

theorem crcByte (b : Byte) : Statement (.crcByte b) := by
  have hf : opField (encode (.crcByte b)) = 0x02#8 := by
    apply BitVec.eq_of_getLsbD_eq
    intro j hj
    simp only [opField, encode, BitVec.getLsbD_extractLsb', BitVec.getLsbD_or, BitVec.getLsbD_shiftLeft]
    interval_cases j <;> simp
  refine ⟨?_, by rw [hf]; rfl, ?_⟩
  · have := b.isLt
    simp [Instr.wellFormed, Instr.toAsm, AsmLine.wellFormed]
    omega
  · apply BitVec.eq_of_getLsbD_eq
    intro j hj
    simp only [encode, opcode, formatOf, reservedBits, BitVec.getLsbD_and, BitVec.getLsbD_or,
      BitVec.getLsbD_shiftLeft, BitVec.getLsbD_setWidth]
    interval_cases j <;> simp

theorem trlGen (k : Half) : Statement (.trlGen k) := by
  have hf : opField (encode (.trlGen k)) = 0x03#8 := by
    apply BitVec.eq_of_getLsbD_eq
    intro j hj
    simp only [opField, encode, BitVec.getLsbD_extractLsb', BitVec.getLsbD_or, BitVec.getLsbD_shiftLeft]
    interval_cases j <;> simp
  refine ⟨?_, by rw [hf]; rfl, ?_⟩
  · have := k.isLt
    simp [Instr.wellFormed, Instr.toAsm, AsmLine.wellFormed]
    omega
  · apply BitVec.eq_of_getLsbD_eq
    intro j hj
    simp only [encode, opcode, formatOf, reservedBits, BitVec.getLsbD_and, BitVec.getLsbD_or,
      BitVec.getLsbD_shiftLeft, BitVec.getLsbD_setWidth]
    interval_cases j <;> simp

theorem trlChk (k : Half) : Statement (.trlChk k) := by
  have hf : opField (encode (.trlChk k)) = 0x04#8 := by
    apply BitVec.eq_of_getLsbD_eq
    intro j hj
    simp only [opField, encode, BitVec.getLsbD_extractLsb', BitVec.getLsbD_or, BitVec.getLsbD_shiftLeft]
    interval_cases j <;> simp
  refine ⟨?_, by rw [hf]; rfl, ?_⟩
  · have := k.isLt
    simp [Instr.wellFormed, Instr.toAsm, AsmLine.wellFormed]
    omega
  · apply BitVec.eq_of_getLsbD_eq
    intro j hj
    simp only [encode, opcode, formatOf, reservedBits, BitVec.getLsbD_and, BitVec.getLsbD_or,
      BitVec.getLsbD_shiftLeft, BitVec.getLsbD_setWidth]
    interval_cases j <;> simp

theorem pktEnc (t d : Byte) : Statement (.pktEnc t d) := by
  have hf : opField (encode (.pktEnc t d)) = 0x05#8 := by
    apply BitVec.eq_of_getLsbD_eq
    intro j hj
    simp only [opField, encode, BitVec.getLsbD_extractLsb', BitVec.getLsbD_or, BitVec.getLsbD_shiftLeft]
    interval_cases j <;> simp
  refine ⟨?_, by rw [hf]; rfl, ?_⟩
  · have := t.isLt
    have := d.isLt
    simp [Instr.wellFormed, Instr.toAsm, AsmLine.wellFormed]
    omega
  · apply BitVec.eq_of_getLsbD_eq
    intro j hj
    simp only [encode, opcode, formatOf, reservedBits, BitVec.getLsbD_and, BitVec.getLsbD_or,
      BitVec.getLsbD_shiftLeft, BitVec.getLsbD_setWidth]
    interval_cases j <;> simp

theorem pktDec (t d : Byte) : Statement (.pktDec t d) := by
  have hf : opField (encode (.pktDec t d)) = 0x06#8 := by
    apply BitVec.eq_of_getLsbD_eq
    intro j hj
    simp only [opField, encode, BitVec.getLsbD_extractLsb', BitVec.getLsbD_or, BitVec.getLsbD_shiftLeft]
    interval_cases j <;> simp
  refine ⟨?_, by rw [hf]; rfl, ?_⟩
  · have := t.isLt
    have := d.isLt
    simp [Instr.wellFormed, Instr.toAsm, AsmLine.wellFormed]
    omega
  · apply BitVec.eq_of_getLsbD_eq
    intro j hj
    simp only [encode, opcode, formatOf, reservedBits, BitVec.getLsbD_and, BitVec.getLsbD_or,
      BitVec.getLsbD_shiftLeft, BitVec.getLsbD_setWidth]
    interval_cases j <;> simp

end Sys2Proof.Laws.EncodedForm
end

