-- ==== Sys2Proof/Tests/Slice0.lean ====
section
/-! SUPPORT. Tests, their expected values from spec/95_test_vectors.md (named in each comment) or written out from the
rule that is named, and one witness for the hypotheses of each obligation. -/

namespace Sys2Proof.Tests

open Sys2Proof Sys2Proof.Machine

/-! Helpers: small states. -/

/-- Consecutive cells from an index. -/
def cells (i : Nat) : List Byte → Memory
  | [] => []
  | b :: bs => (i, b) :: cells (i + 1) bs

/-- The smallest legal block, right after reset. -/
def small : State := State.resetWith { txBytes := 6, rxBytes := 6 }

def withTx (s : State) (bs : List Byte) : State := { s with tx := cells 0 bs }
def withRx (s : State) (bs : List Byte) : State := { s with rx := cells 0 bs }

/-- The state with one event pending. -/
def facing (s : State) (e : PortEvent) : State := { s with pending := [e] }

/-- The outcome is a next state that passes the check. -/
def nextHas (o : Host.Outcome State Fault Refusal) (check : State → Bool) : Bool :=
  match o with
  | .next t => check t
  | .fault _ => false
  | .refused _ => false

/-- The host program ends, with this result and a state that passes the check. -/
def endsWith {α : Type} [DecidableEq α] (o : Host.Outcome (α × State) Fault Refusal) (r : α) (check : State → Bool) : Bool :=
  match o with
  | .next (x, t) => decide (x = r) && check t
  | .fault _ => false
  | .refused _ => false

/-- The outcome is a bus error of this cause. -/
def busErrorIs (o : Host.Outcome State Fault Refusal) (c : BusErrorCause) : Bool :=
  match o with
  | .fault (.busError d) => decide (d = c)
  | .next _ => false
  | .refused _ => false

/-- The host parameters of the test vectors: the reference type codes, and the placeholders of L1-7. -/
def params : HostParams :=
  { blockBase := 0x40000000, mtFcRequest := 0x02#8, mtFcReport := 0x03#8, mtNotReady := 0x04#8,
    mtErrorReport := 0x05#8, cidErrors := 0x00#8, cidExec := 0x11#8, cidScenStatus := 0x12#8, cidScience := 0x13#8,
    cidMcl := 0x14#8, cidScenCreate := 0x10#8, cidScenDelete := 0x10#8, subAdd := 0x01#8, subModify := 0x02#8,
    subDelete := 0x03#8, errMax := 8, mclCount := 1, mclEntryBytes := 1 }

/-- The corrected response of L1-5. -/
def report26 : List Byte := [0x01#8, 0x00#8, 0x05#8, 0x01#8, 0x00#8, 0x1A#8, 0xBC#8, 0x4B#8]

/-- The corrupted response of L1-6. -/
def corrupted26 : List Byte := [0x01#8, 0x00#8, 0x05#8, 0x01#8, 0x00#8, 0x1A#8, 0xBC#8, 0x4A#8]

/-- A create-scenario operation, and a block whose TX buffer holds its data but not its packet. -/
def create13 : Operation := .createScenario 1#8 0#8 (List.replicate 13 0#8)
def tx20 : State := State.resetWith { txBytes := 20, rxBytes := 64 }

/-! Well-formedness: an ill-formed term for each check, which the check refuses. -/

theorem test_wf_asm_byte : (AsmLine.crcByte 256).wellFormed = false ∧ assemble (.crcByte 256) = none := by decide
theorem test_wf_asm_gen : (AsmLine.trlGen 65536).wellFormed = false ∧ assemble (.trlGen 65536) = none := by decide
theorem test_wf_asm_chk : (AsmLine.trlChk 65536).wellFormed = false ∧ assemble (.trlChk 65536) = none := by decide
theorem test_wf_asm_enc : (AsmLine.pktEnc 256 0).wellFormed = false ∧ (AsmLine.pktEnc 0 256).wellFormed = false := by
  decide
theorem test_wf_asm_dec : (AsmLine.pktDec 256 0).wellFormed = false ∧ (AsmLine.pktDec 0 256).wellFormed = false := by
  decide
theorem test_wf_asm_cmd : (AsmLine.cmd 0x100000000).wellFormed = false ∧ assemble (.cmd 0x100000000) = none := by
  decide
theorem test_wf_sizes :
    ¬ BufferSizes.Legal ⟨5, 64⟩ ∧ ¬ BufferSizes.Legal ⟨64, 5⟩ ∧ ¬ BufferSizes.Legal ⟨16385, 64⟩ ∧
    ¬ BufferSizes.Legal ⟨64, 16385⟩ ∧ BufferSizes.Legal ⟨6, 16384⟩ := by decide
theorem test_wf_host_params :
    params.Legal ∧ ¬ HostParams.Legal { params with mtNotReady := 0x01#8 } ∧
    ¬ HostParams.Legal { params with blockBase := 0x40000002 } := by decide
theorem test_wf_descriptor :
    descriptorWellFormed (List.replicate 12 0#8) = false ∧ descriptorWellFormed (List.replicate 13 0#8) = true := by
  decide
theorem test_wf_memory :
    Memory.wf [(1, 0#8), (1, 1#8)] = false ∧ Memory.wf [(2, 0#8), (1, 0#8)] = false ∧
    Memory.within 6 [(6, 0#8)] = false := by decide

/-! Decoding: words written out bit by bit from the formats of spec/30_encoding.md R71. -/

/-- Format N: reserved, then OP 0x01. -/
theorem test_decode_crc_init : decode 0b000000000000000000000000_00000001#32 = .command .crcInit := by decide
/-- Format B: reserved, DATA 0xA5, OP 0x02. -/
theorem test_decode_crc_byte : decode 0b0000000000000000_10100101_00000010#32 = .command (.crcByte 0xA5#8) := by
  decide
/-- Format K: COUNT 0x8001, reserved, OP 0x03. -/
theorem test_decode_trl_gen : decode 0b1000000000000001_00000000_00000011#32 = .command (.trlGen 0x8001#16) := by
  decide
/-- Format K: COUNT 0x0006, reserved, OP 0x04. -/
theorem test_decode_trl_chk : decode 0b0000000000000110_00000000_00000100#32 = .command (.trlChk 6#16) := by decide
/-- Format P: reserved, ID 0x22, TYPE 0x02, OP 0x05 (L1-4). -/
theorem test_decode_pkt_enc : decode 0b00000000_00100010_00000010_00000101#32 = .command (.pktEnc 0x02#8 0x22#8) := by
  decide
/-- Format P: reserved, ID 0x10, TYPE 0x03, OP 0x06 (L1-7). -/
theorem test_decode_pkt_dec : decode 0b00000000_00010000_00000011_00000110#32 = .command (.pktDec 0x03#8 0x10#8) := by
  decide
/-- V-ERR-1 to V-ERR-4: an unassigned OP wins over reserved bits; an assigned one does not. -/
theorem test_decode_rejects :
    decode 0x00000000#32 = .rejected .eOpc ∧ decode 0x00000007#32 = .rejected .eOpc ∧
    decode 0xFFFFFFFF#32 = .rejected .eOpc ∧ decode 0xFFFFFF01#32 = .rejected .eRsv := by decide
/-- V-CRC-3, V-CRC-4, V-TRL-6, V-ENC-7: the lowest reserved bit of each format. -/
theorem test_decode_reserved :
    decode 0x00000101#32 = .rejected .eRsv ∧ decode 0x00010002#32 = .rejected .eRsv ∧
    decode 0x00040103#32 = .rejected .eRsv ∧ decode 0x01000005#32 = .rejected .eRsv := by decide
/-- R74: no two rows of the opcode map overlap. -/
theorem test_opcode_rows_disjoint :
    opcodeRows.Pairwise (fun a b => a.pattern &&& (a.mask &&& b.mask) ≠ b.pattern &&& (a.mask &&& b.mask)) := by decide
/-- The opcode table's six rows, as the host numbers their bits. -/
theorem test_decode_table_word :
    decodeTableWord 32 1 = some .crcInit ∧ decodeTableWord 32 0x3102 = some (.crcByte 0x31#8) ∧
    decodeTableWord 32 0x40003 = some (.trlGen 4#16) ∧ decodeTableWord 32 0x60004 = some (.trlChk 6#16) ∧
    decodeTableWord 32 0x10005 = some (.pktEnc 0x00#8 0x01#8) ∧
    decodeTableWord 32 0x10106 = some (.pktDec 0x01#8 0x01#8) ∧ decodeTableWord 32 7 = none := by decide

/-! The table: the listing of spec/40_crc_engine.md section 5, and V-CRC-1 in it. -/

def listing : List Nat :=
    [0x0000, 0x8005, 0x800F, 0x000A, 0x801B, 0x001E, 0x0014, 0x8011, 0x8033, 0x0036, 0x003C, 0x8039, 0x0028, 0x802D, 0x8027, 0x0022] ++
    [0x8063, 0x0066, 0x006C, 0x8069, 0x0078, 0x807D, 0x8077, 0x0072, 0x0050, 0x8055, 0x805F, 0x005A, 0x804B, 0x004E, 0x0044, 0x8041] ++
    [0x80C3, 0x00C6, 0x00CC, 0x80C9, 0x00D8, 0x80DD, 0x80D7, 0x00D2, 0x00F0, 0x80F5, 0x80FF, 0x00FA, 0x80EB, 0x00EE, 0x00E4, 0x80E1] ++
    [0x00A0, 0x80A5, 0x80AF, 0x00AA, 0x80BB, 0x00BE, 0x00B4, 0x80B1, 0x8093, 0x0096, 0x009C, 0x8099, 0x0088, 0x808D, 0x8087, 0x0082] ++
    [0x8183, 0x0186, 0x018C, 0x8189, 0x0198, 0x819D, 0x8197, 0x0192, 0x01B0, 0x81B5, 0x81BF, 0x01BA, 0x81AB, 0x01AE, 0x01A4, 0x81A1] ++
    [0x01E0, 0x81E5, 0x81EF, 0x01EA, 0x81FB, 0x01FE, 0x01F4, 0x81F1, 0x81D3, 0x01D6, 0x01DC, 0x81D9, 0x01C8, 0x81CD, 0x81C7, 0x01C2] ++
    [0x0140, 0x8145, 0x814F, 0x014A, 0x815B, 0x015E, 0x0154, 0x8151, 0x8173, 0x0176, 0x017C, 0x8179, 0x0168, 0x816D, 0x8167, 0x0162] ++
    [0x8123, 0x0126, 0x012C, 0x8129, 0x0138, 0x813D, 0x8137, 0x0132, 0x0110, 0x8115, 0x811F, 0x011A, 0x810B, 0x010E, 0x0104, 0x8101] ++
    [0x8303, 0x0306, 0x030C, 0x8309, 0x0318, 0x831D, 0x8317, 0x0312, 0x0330, 0x8335, 0x833F, 0x033A, 0x832B, 0x032E, 0x0324, 0x8321] ++
    [0x0360, 0x8365, 0x836F, 0x036A, 0x837B, 0x037E, 0x0374, 0x8371, 0x8353, 0x0356, 0x035C, 0x8359, 0x0348, 0x834D, 0x8347, 0x0342] ++
    [0x03C0, 0x83C5, 0x83CF, 0x03CA, 0x83DB, 0x03DE, 0x03D4, 0x83D1, 0x83F3, 0x03F6, 0x03FC, 0x83F9, 0x03E8, 0x83ED, 0x83E7, 0x03E2] ++
    [0x83A3, 0x03A6, 0x03AC, 0x83A9, 0x03B8, 0x83BD, 0x83B7, 0x03B2, 0x0390, 0x8395, 0x839F, 0x039A, 0x838B, 0x038E, 0x0384, 0x8381] ++
    [0x0280, 0x8285, 0x828F, 0x028A, 0x829B, 0x029E, 0x0294, 0x8291, 0x82B3, 0x02B6, 0x02BC, 0x82B9, 0x02A8, 0x82AD, 0x82A7, 0x02A2] ++
    [0x82E3, 0x02E6, 0x02EC, 0x82E9, 0x02F8, 0x82FD, 0x82F7, 0x02F2, 0x02D0, 0x82D5, 0x82DF, 0x02DA, 0x82CB, 0x02CE, 0x02C4, 0x82C1] ++
    [0x8243, 0x0246, 0x024C, 0x8249, 0x0258, 0x825D, 0x8257, 0x0252, 0x0270, 0x8275, 0x827F, 0x027A, 0x826B, 0x026E, 0x0264, 0x8261] ++
    [0x0220, 0x8225, 0x822F, 0x022A, 0x823B, 0x023E, 0x0234, 0x8231, 0x8213, 0x0216, 0x021C, 0x8219, 0x0208, 0x820D, 0x8207, 0x0202]

theorem test_table_is_the_listing :
    (List.range 256).map (fun i => (tableEntry (BitVec.ofNat 8 i)).toNat) = listing := by decide +kernel

/-! The commands. -/

/-- V-CRC-3. -/
theorem test_crc_init : nextHas (exec .crcInit { small with crc := 0xFEE8#16 }) (fun t => t.crc == 0x0000#16) = true := by
  decide
/-- V-CRC-4, its third line. -/
theorem test_crc_byte :
    nextHas (exec (.crcByte 0x00#8) { small with crc := 0x8005#16 }) (fun t => t.crc == 0x8603#16) = true := by
  decide +kernel
/-- V-CRC-2, its third line. -/
theorem test_crc_byte_mixed :
    nextHas (exec (.crcByte 0x56#8) { small with crc := 0x1234#16 }) (fun t => t.crc == 0x3598#16) = true := by
  decide +kernel
/-- V-TRL-1, with the byte after the trailer kept. -/
theorem test_trl_gen :
    nextHas (exec (.trlGen 4#16) (withTx State.reset [0x00#8, 0x00#8, 0x03#8, 0x01#8, 0x55#8, 0x66#8, 0x77#8]))
      (fun t => t.txByte 4 == 0x8A#8 && t.txByte 5 == 0x05#8 && t.txByte 6 == 0x77#8 && t.crc == 0x8A05#16) = true := by
  decide +kernel
/-- V-TRL-5: the check does not wrap. -/
theorem test_trl_gen_no_wrap :
    nextHas (exec (.trlGen 0xFFFF#16) State.reset)
      (fun t => t.errWord == 0x00000004#32 && t.errcmd == 0xFFFF0003#32 && t.crc == 0x0000#16 && t.tx == []) = true := by
  decide +kernel
/-- V-TRL-8. -/
theorem test_trl_chk_bad :
    nextHas (exec (.trlChk 6#16) (withRx small [0x00#8, 0x00#8, 0x03#8, 0x01#8, 0x8A#8, 0x04#8]))
      (fun t => t.crc == 0x8005#16 && !t.chkok) = true := by decide +kernel
/-- V-TRL-14: CHKOK set, EFLAG kept. -/
theorem test_trl_chk_keeps_eflag :
    nextHas (exec (.trlChk 6#16)
      { withRx small [0x00#8, 0x00#8, 0x03#8, 0x01#8, 0x8A#8, 0x05#8] with eflag := .communicationError })
      (fun t => t.resultWord == 0x0000000A#32) = true := by decide +kernel
/-- V-ENC-2. -/
theorem test_pkt_enc :
    nextHas (exec (.pktEnc 0x02#8 0x22#8)
      { State.reset with txplen := 2#16, tx := [(4, 0xDE#8), (5, 0xAD#8)] })
      (fun t => t.tx == cells 0 [0x02#8, 0x00#8, 0x05#8, 0x22#8, 0xDE#8, 0xAD#8, 0xF1#8, 0x49#8] &&
        t.txlen == 8#16 && t.crc == 0xF149#16) = true := by decide +kernel
/-- V-ENC-5. -/
theorem test_pkt_enc_range :
    nextHas (exec (.pktEnc 0x00#8 0x01#8) { State.reset with txplen := 59#16 })
      (fun t => t.errWord == 0x00000004#32 && t.errcmd == 0x00010005#32 && t.tx == [] && t.txlen == 0#16) = true := by
  decide +kernel
/-- V-DEC-1. -/
theorem test_pkt_dec :
    nextHas (exec (.pktDec 0x01#8 0x01#8) { withRx State.reset report26 with crc := 0x1234#16 })
      (fun t => t.resultWord == 0#32 && t.rxdlen == 2#16 && t.rxdecl == 5#16 && t.crc == 0x0000#16) = true := by
  decide +kernel
/-- V-DEC-9: the literal length of L1-5x. -/
theorem test_pkt_dec_length :
    nextHas (exec (.pktDec 0x01#8 0x01#8)
      { withRx State.reset [0x01#8, 0x00#8, 0x02#8, 0x01#8, 0x00#8, 0x1A#8, 0x50#8, 0x48#8] with crc := 0x1234#16 })
      (fun t => t.resultWord == 0x00000005#32 && t.rxdlen == 0#16 && t.rxdecl == 2#16 && t.crc == 0x1234#16) = true := by
  decide +kernel

/-! The port. -/

/-- V-REG-2. -/
theorem test_read_param :
    nextHas (step (facing State.reset (rd 0x024))) (fun t => t.reads == [0x00400040#32]) = true := by decide +kernel
/-- V-REG-6 and V-REG-5. -/
theorem test_write_err :
    nextHas (step (facing { small with errOpc := true, errRange := true } (wr 0x01C 0xFFFFFFF8#32)))
      (fun t => t.errWord == 0x00000005#32) = true ∧
    nextHas (step (facing { small with errOpc := true, errRsv := true, errRange := true } (wr 0x01C 0x00000002#32)))
      (fun t => t.errWord == 0x00000005#32) = true := by decide +kernel
/-- V-REG-8 and V-REG-11. -/
theorem test_write_tx_and_txplen :
    nextHas (step (facing small (wr 0x1000C 0xABCDEF12#32))) (fun t => t.tx == [(3, 0x12#8)]) = true ∧
    nextHas (step (facing small (wr 0x008 0x00010003#32))) (fun t => t.txplen == 3#16) = true := by decide +kernel
/-- V-REG-9: TABLE+4*1 reads 0x8005. -/
theorem test_read_table :
    nextHas (step (facing small (rd 0x404))) (fun t => t.reads == [0x00008005#32]) = true := by decide +kernel
/-- V-BUS-1 to V-BUS-10. -/
theorem test_bus_errors :
    busErrorIs (step (facing State.reset (.access (.read 8 0x004)))) .width = true ∧
    busErrorIs (step (facing State.reset (.access (.write 16 0x000 1#32)))) .width = true ∧
    busErrorIs (step (facing State.reset (rd 0x006))) .misaligned = true ∧
    busErrorIs (step (facing State.reset (wr 0x028 0#32))) .reserved = true ∧
    busErrorIs (step (facing State.reset (rd 0x3FC))) .reserved = true ∧
    busErrorIs (step (facing State.reset (rd 0x800))) .reserved = true ∧
    busErrorIs (step (facing State.reset (rd 0x10100))) .reserved = true ∧
    busErrorIs (step (facing State.reset (wr 0x20100 0#32))) .reserved = true ∧
    busErrorIs (step (facing State.reset (rd 0x30000))) .reserved = true ∧
    busErrorIs (step (facing State.reset (rd 0x40000))) .outside = true := by decide +kernel
/-- V-ERR-5: a second rejection keeps the first one's bit. -/
theorem test_second_rejection :
    nextHas (step (facing { State.reset with errOpc := true } (cmdWrite 0x00400003#32)))
      (fun t => t.errWord == 0x00000005#32 && t.errcmd == 0x00400003#32) = true := by decide +kernel
/-- Each row of the opcode table runs as the first command after reset. -/
theorem test_first_command :
    nextHas (step (State.reset.withFetchWord 32 0x00000001)) (fun t => t.pending == []) = true ∧
    nextHas (step (State.reset.withFetchWord 32 0x00000102)) (fun t => t.crc == 0x8005#16) = true ∧
    nextHas (step (State.reset.withFetchWord 32 0x00000003)) (fun t => t.tx == [(0, 0#8), (1, 0#8)]) = true ∧
    nextHas (step (State.reset.withFetchWord 32 0x00000004)) (fun t => t.errRange) = true ∧
    nextHas (step (State.reset.withFetchWord 32 0x00010005)) (fun t => t.crc == 0x8A05#16) = true ∧
    nextHas (step (State.reset.withFetchWord 32 0x00010106)) (fun t => t.pending == []) = true := by decide +kernel

/-! The host's recipes. -/

/-- L1-5: the temperature of the corrected response is 26; L1-7: the acknowledgment of [2A] is 42. -/
theorem test_typed_results :
    Operation.typedResult params 0 { withRx State.reset report26 with rxdlen := 2#16 } .getTemperature =
      .temperature 26 ∧
    Operation.typedResult params 0 { State.reset with rx := [(4, 0x2A#8)], rxdlen := 1#16 } (.deleteScenario 1#8) =
      .acknowledgment 42 := by decide +kernel
/-- L1-5 and L1-6: the whole temperature call, by its own reads, on the good reply and on the corrupted one. -/
theorem test_temperature_call :
    endsWith ((Operation.call params 64 0 (fun _ => report26) .getTemperature).run State.reset)
      (.ok (.temperature 26)) (fun t => t.txlen == 6#16 && t.rxdlen == 2#16) = true ∧
    endsWith ((Operation.call params 64 0 (fun _ => corrupted26) .getTemperature).run State.reset)
      (.failed .checksumError (.temperature 0)) (fun t => t.crc == 0x8005#16) = true := by decide +kernel
/-- L1-5: the request bytes that the call hands to the transport. A create-scenario request of 22 bytes in a TX buffer
of 20 is rejected, and no byte is handed over. -/
theorem test_send :
    endsWith ((Operation.send params .getTemperature .done).run State.reset)
      [0x00#8, 0x00#8, 0x03#8, 0x01#8, 0x8A#8, 0x05#8] (fun _ => true) = true ∧
    endsWith ((Operation.send params create13 .done).run tx20) [] (fun t => t.errRange && t.txlen == 0#16) = true := by
  decide +kernel
/-- R146's CRC service and errors row: V-TRL-1, V-TRL-7, the table entry of 01, and V-ERR-2. -/
theorem test_host_services :
    endsWith ((hostCrc [0x01#8]).run State.reset) 0x8005#16 (fun _ => true) = true ∧
    endsWith ((hostTrailer [0x00#8, 0x00#8, 0x03#8, 0x01#8]).run State.reset) [0x8A#8, 0x05#8] (fun _ => true) = true ∧
    endsWith ((hostCheck [0x00#8, 0x00#8, 0x03#8, 0x01#8, 0x8A#8, 0x05#8]).run State.reset) true (fun _ => true) = true ∧
    endsWith (hostErrors.run { State.reset with errOpc := true, errcmd := 7#32 }) (0x00000001#32, 0x00000007#32)
      (fun t => t.errWord == 0#32) = true := by decide +kernel
/-- L1-7: the bytes of the create-scenario request data, and 22 bytes of packet. -/
theorem test_create_scenario_request :
    (Operation.createScenario 1#8 0#8 ((List.range 13).map (BitVec.ofNat 8))).requestData params =
      [0x01#8, 0x01#8, 0x00#8, 0x00#8, 0x01#8, 0x02#8, 0x03#8, 0x04#8, 0x05#8, 0x06#8, 0x07#8, 0x08#8, 0x09#8, 0x0A#8,
        0x0B#8, 0x0C#8] ∧
    (Operation.createScenario 1#8 0#8 ((List.range 13).map (BitVec.ofNat 8))).requestSize params = 22 := by decide
/-- L1-4: the report packet with data DE AD. -/
theorem test_packet_bytes :
    packetBytes 0x03#8 0x22#8 [0xDE#8, 0xAD#8] =
      [0x03#8, 0x00#8, 0x05#8, 0x22#8, 0xDE#8, 0xAD#8, 0x09#8, 0x4A#8] := by decide +kernel
/-- R80 and R45: an offset from BLOCK_BASE. -/
theorem test_bus_address : busRead params 0x40000024 = some (rd 0x024) ∧ busRead params 0x3FFFFFFC = none := by decide

/-- R86 and R148: a call expects the report counterpart of its request. -/
theorem test_report_counterpart :
    Family.housekeeping.requestType.report = some Family.housekeeping.reportType ∧
    Family.functionCall.requestType.report = some Family.functionCall.reportType ∧
    MessageType.notReady.report = none := by decide

/-! Witnesses: for each obligation with hypotheses, states and operands that meet them together, by clause. -/

theorem witness_EncodeOfDecodedWordIsTheWord : decode 0x00FFFF05#32 = .command (.pktEnc 0xFF#8 0xFF#8) := by decide

theorem witness_OperandsAreTheBitSlicesOfTheWord :
    decode 0x00000001#32 = .command .crcInit ∧ decode 0x0000FF02#32 = .command (.crcByte 0xFF#8) ∧
    decode 0xFFFF0003#32 = .command (.trlGen 0xFFFF#16) ∧ decode 0xFFFF0004#32 = .command (.trlChk 0xFFFF#16) ∧
    decode 0x00FF0005#32 = .command (.pktEnc 0x00#8 0xFF#8) ∧ decode 0x0000FF06#32 = .command (.pktDec 0xFF#8 0x00#8) := by
  decide

theorem witness_UnassignedOpcodeRaisesEOpc :
    UnassignedOp 0x00000000#32 ∧ UnassignedOp 0x00000007#32 ∧ UnassignedOp 0xFFFFFFFF#32 ∧ ¬ UnassignedOp 0x00000006#32 := by
  decide

theorem witness_ReservedBitRaisesERsv :
    ReservedBitSet 0x80000001#32 ∧ ReservedBitSet 0x00010002#32 ∧ ReservedBitSet 0x00008003#32 ∧
    ReservedBitSet 0x00000104#32 ∧ ReservedBitSet 0x01000005#32 ∧ ReservedBitSet 0x80000006#32 :=
  ⟨by decide, by decide, by decide, by decide, by decide, by decide⟩

theorem witness_ZeroRemainderIsTrailerMatch : 2 ≤ [0x80#8, 0x05#8].length := by decide

theorem witness_CrcByteRunFoldsTheBytes :
    small.sizes.Legal ∧
    { small with pending := crcBytesEvents [0x31#8, 0x32#8] }.pending = crcBytesEvents [0x31#8, 0x32#8] ++ [] ∧
    { small with pending := crcSeqEvents [0x31#8] ++ [PortEvent.reset] }.pending =
      crcSeqEvents [0x31#8] ++ [PortEvent.reset] := by decide

theorem witness_CrcIsLinear : [0x12#8, 0x34#8].length = [0x56#8, 0x78#8].length := by decide

theorem witness_ZeroBytesLeaveTheCrcZero :
    (2 ≤ (6#16 : Half).toNat ∧ (6#16 : Half).toNat ≤ small.sizes.rxBytes ∧
      ∀ i, i < (6#16 : Half).toNat → (withRx small (List.replicate 6 0x00#8)).rxByte i = 0x00#8) ∧
    (2 ≤ (2#16 : Half).toNat ∧ ∀ i, i < (2#16 : Half).toNat → (withRx small [0x00#8, 0x00#8]).rxByte i = 0x00#8) := by
  decide

theorem witness_OddBitErrorsAreDetected :
    (1 < [0x00#8, 0x00#8].length ∧ 7 < 8 ∧ crc16 [0x00#8, 0x00#8] = 0x0000#16) ∧
    ([0x00#8, 0x00#8].length = [0x01#8, 0x03#8].length ∧ weight [0x01#8, 0x03#8] % 2 = 1) := by decide +kernel

theorem witness_CrcInitLoadsZero :
    BitVec.extractLsb' 0 8 (0x00000101#32 : Word) = 0x01#8 ∧ BitVec.extractLsb' 8 24 (0x00000101#32 : Word) ≠ 0#24 := by
  decide

theorem witness_CrcByteFoldsOneByte :
    (0x0000FF02#32 &&& 0xFFFF00FF#32 : Word) = 0x00000002#32 ∧
    (BitVec.extractLsb' 0 8 (0x00010002#32 : Word) = 0x02#8 ∧ BitVec.extractLsb' 16 16 (0x00010002#32 : Word) ≠ 0#16) := by
  decide

/-- In range at the largest count, out of range one above it, and the two kinds of word. -/
theorem witness_TrailerGenAppendsTheCrc :
    (4#16 : Half).toNat + 2 ≤ small.sizes.txBytes ∧ small.sizes.txBytes < (5#16 : Half).toNat + 2 ∧
    (0xFFFF0003#32 &&& 0x0000FFFF#32 : Word) = 0x00000003#32 ∧
    (BitVec.extractLsb' 0 8 (0x00008003#32 : Word) = 0x03#8 ∧ BitVec.extractLsb' 8 8 (0x00008003#32 : Word) ≠ 0#8) := by
  decide

/-- In range at both ends, out of range below and above, and the two kinds of word. -/
theorem witness_TrailerChkReportsTheRemainder :
    (2 ≤ (2#16 : Half).toNat ∧ (2#16 : Half).toNat ≤ small.sizes.rxBytes) ∧
    (2 ≤ (6#16 : Half).toNat ∧ (6#16 : Half).toNat ≤ small.sizes.rxBytes) ∧
    (1#16 : Half).toNat < 2 ∧ small.sizes.rxBytes < (7#16 : Half).toNat ∧
    (0x00000004#32 &&& 0x0000FFFF#32 : Word) = 0x00000004#32 ∧
    (BitVec.extractLsb' 0 8 (0x00000104#32 : Word) = 0x04#8 ∧ BitVec.extractLsb' 8 8 (0x00000104#32 : Word) ≠ 0#8) := by
  decide

/-- A faithful copy of an empty message's trailer, and a copy with the last byte's top bit changed. -/
theorem witness_TrailerChkAcceptsACopyAndDetectsOneChangedBit :
    (0#16 : Half).toNat + 2 ≤ small.sizes.txBytes ∧
    exec (.trlGen 0#16) small = .next (withTx small [0x00#8, 0x00#8]) ∧ small.sizes.Legal ∧
    (0#16 : Half).toNat + 2 ≤ small.sizes.rxBytes ∧
    (∀ i, i < (0#16 : Half).toNat + 2 →
      (withRx small [0x00#8, 0x00#8]).rxByte i = (withTx small [0x00#8, 0x00#8]).txByte i) ∧
    (∀ i, i < (0#16 : Half).toNat + 2 →
      (withRx small [0x00#8, 0x80#8]).rxByte i =
        if i = 1 then (withTx small [0x00#8, 0x00#8]).txByte i ^^^ (0x01#8 <<< 7)
        else (withTx small [0x00#8, 0x00#8]).txByte i) :=
  ⟨by decide, rfl, by decide, by decide, by decide, by decide⟩

/-- The largest legal data length, one above it, and the two kinds of word. -/
theorem witness_EncodeFramesThePacket :
    (small.sizes.Legal ∧ small.txplen.toNat + 6 ≤ small.sizes.txBytes) ∧
    small.sizes.txBytes < { small with txplen := 1#16 }.txplen.toNat + 6 ∧
    (0x00FFFF05#32 &&& 0xFF0000FF#32 : Word) = 0x00000005#32 ∧
    (BitVec.extractLsb' 0 8 (0x01000005#32 : Word) = 0x05#8 ∧ BitVec.extractLsb' 24 8 (0x01000005#32 : Word) ≠ 0#8) := by
  decide

/-- The block after V-ENC-1, its TX copied to RX. -/
def framed : State := { withTx small [0x00#8, 0x00#8, 0x03#8, 0x01#8, 0x8A#8, 0x05#8] with crc := 0x8A05#16, txlen := 6#16 }
def copied : State := withRx small [0x00#8, 0x00#8, 0x03#8, 0x01#8, 0x8A#8, 0x05#8]

/-- V-ENC-1. -/
theorem framed_of_encode : exec (.pktEnc 0x00#8 0x01#8) small = .next framed :=
  (execPktEnc_inRange 0x00#8 0x01#8 small (by decide)).trans (congrArg Host.Outcome.next (by decide +kernel))

theorem witness_EncodeOutputIsAWellFormedPacket :
    small.sizes.Legal ∧ small.txplen.toNat + 6 ≤ small.sizes.txBytes ∧
    exec (.pktEnc 0x00#8 0x01#8) small = .next framed ∧ framed.txlen.toNat ≤ copied.sizes.rxBytes ∧
    (∀ i, i < framed.txlen.toNat → copied.rxByte i = framed.txByte i) :=
  ⟨by decide, by decide, framed_of_encode, by decide, by decide⟩

/-- The same states meet the hypotheses of the round trip. -/
theorem witness_DecodeRecoversWhatEncodeFramed :
    small.sizes.Legal ∧ small.txplen.toNat + 6 ≤ small.sizes.txBytes ∧
    exec (.pktEnc 0x00#8 0x01#8) small = .next framed ∧ small.txplen.toNat + 6 ≤ copied.sizes.rxBytes ∧
    (∀ i, i < framed.txlen.toNat → copied.rxByte i = framed.txByte i) :=
  ⟨by decide, by decide, framed_of_encode, by decide, by decide⟩

/-- Mismatch of the type alone and of the id alone; L below 3 and L one above the largest; and at the largest L, a
non-zero remainder and a zero one. -/
theorem witness_DecodeReportsTheVerdict :
    (copied.rxByte 0 ≠ 0x01#8 ∧ copied.rxByte 3 = 0x01#8) ∧ (copied.rxByte 0 = 0x00#8 ∧ copied.rxByte 3 ≠ 0x02#8) ∧
    (∃ l : Half, ∃ s : State, l = pair (s.rxByte 1) (s.rxByte 2) ∧ s.rxByte 0 = 0x00#8 ∧ s.rxByte 3 = 0x01#8 ∧
      l.toNat < 3) ∧
    (∃ l : Half, ∃ s : State, l = pair (s.rxByte 1) (s.rxByte 2) ∧ s.rxByte 0 = 0x00#8 ∧ s.rxByte 3 = 0x01#8 ∧
      s.sizes.rxBytes < l.toNat + 3) ∧
    (∃ l c : Half, ∃ s : State, l = pair (s.rxByte 1) (s.rxByte 2) ∧ c = crc16 (s.rxBytesFrom 0 (l.toNat + 3)) ∧
      s.rxByte 0 = 0x00#8 ∧ s.rxByte 3 = 0x01#8 ∧ 3 ≤ l.toNat ∧ l.toNat + 3 ≤ s.sizes.rxBytes ∧ c ≠ 0x0000#16) ∧
    (∃ l : Half, ∃ s : State, l = pair (s.rxByte 1) (s.rxByte 2) ∧
      crc16 (s.rxBytesFrom 0 (l.toNat + 3)) = 0x0000#16 ∧
      s.rxByte 0 = 0x00#8 ∧ s.rxByte 3 = 0x01#8 ∧ 3 ≤ l.toNat ∧ l.toNat + 3 ≤ s.sizes.rxBytes) ∧
    (0x00FFFF06#32 &&& 0xFF0000FF#32 : Word) = 0x00000006#32 ∧
    (BitVec.extractLsb' 0 8 (0x80000006#32 : Word) = 0x06#8 ∧ BitVec.extractLsb' 24 8 (0x80000006#32 : Word) ≠ 0#8) := by
  refine ⟨by decide, by decide, ⟨2#16, withRx small [0x00#8, 0x00#8, 0x02#8, 0x01#8], by decide +kernel⟩,
    ⟨4#16, withRx small [0x00#8, 0x00#8, 0x04#8, 0x01#8], by decide +kernel⟩,
    ⟨3#16, 0x8005#16, withRx small [0x00#8, 0x00#8, 0x03#8, 0x01#8, 0x8A#8, 0x04#8], by decide +kernel⟩,
    ⟨3#16, copied, by decide +kernel⟩, by decide, by decide⟩

theorem witness_DecodeAcceptsExactlyAMatchingTrailer :
    3#16 = pair (copied.rxByte 1) (copied.rxByte 2) ∧ copied.rxByte 0 = 0x00#8 ∧ copied.rxByte 3 = 0x01#8 ∧
    3 ≤ (3#16 : Half).toNat ∧ (3#16 : Half).toNat + 3 ≤ copied.sizes.rxBytes := by decide +kernel

/-- Two blocks whose RX differ after the packet. -/
theorem witness_DecodeReadsOnlyThePacket :
    (withRx State.reset (report26 ++ [0xAA#8])).sizes = (withRx State.reset report26).sizes ∧
    (withRx State.reset (report26 ++ [0xAA#8])).crc = (withRx State.reset report26).crc ∧
    (∀ i, i < 4 → (withRx State.reset (report26 ++ [0xAA#8])).rxByte i = (withRx State.reset report26).rxByte i) ∧
    (∀ i, i < (pair ((withRx State.reset report26).rxByte 1) ((withRx State.reset report26).rxByte 2)).toNat + 3 →
      (withRx State.reset (report26 ++ [0xAA#8])).rxByte i = (withRx State.reset report26).rxByte i) := by
  decide +kernel

theorem witness_FramingTwiceIsFramingOnce :
    ((0#16 : Half).toNat + 2 ≤ small.sizes.txBytes ∧
      exec (.trlGen 0#16) small = .next (withTx small [0x00#8, 0x00#8])) ∧
    (small.sizes.Legal ∧ small.txplen.toNat + 6 ≤ small.sizes.txBytes ∧
      exec (.pktEnc 0x00#8 0x01#8) small = .next framed) :=
  ⟨⟨by decide, rfl⟩, by decide, by decide, framed_of_encode⟩

/-- One word for each clause: an unassigned OP, a reserved bit, each range check at its boundary, and a legal word. -/
theorem witness_RejectionWritesOnlyErrAndErrcmd :
    small.sizes.Legal ∧ (facing small (cmdWrite 7#32)).pending = .access (.write 32 0x000 7#32) :: [] ∧
    UnassignedOp 0x00000007#32 ∧ ReservedBitSet 0x00000101#32 ∧
    (decode 0x00050003#32 = .command (.trlGen 5#16) ∧ small.sizes.txBytes < (5#16 : Half).toNat + 2) ∧
    (decode 0x00010004#32 = .command (.trlChk 1#16) ∧ (1#16 : Half).toNat < 2) ∧
    (decode 0x00070004#32 = .command (.trlChk 7#16) ∧ small.sizes.rxBytes < (7#16 : Half).toNat) ∧
    (decode 0x00010005#32 = .command (.pktEnc 0x00#8 0x01#8) ∧
      small.sizes.txBytes < { small with txplen := 1#16 }.txplen.toNat + 6) ∧
    (decode 0x00000001#32 = .command .crcInit ∧
      nextHas (step (facing small (cmdWrite 1#32))) (fun _ => true) = true) := by decide +kernel

theorem witness_RejectionWritesOnlyErrAndErrcmd_inRange : ¬ OutOfRange small .crcInit := id

theorem witness_ExactlyTheFirstCauseIsReported :
    small.errOpc = false ∧ small.errRsv = false ∧ small.errRange = false ∧
    nextHas (runCommandWord 0x00000000#32 small) (fun t => t.errOpc) = true ∧
    nextHas (runCommandWord 0x01000005#32 { small with txplen := 1#16 }) (fun t => t.errRsv) = true ∧
    nextHas (runCommandWord 0x00050003#32 small) (fun t => t.errRange) = true := by decide +kernel

/-- An idle block with an ERR bit set. -/
def errored : State := { small with errOpc := true }

/-- A step that is neither a reset nor a write, two rejected words, and a command in range. -/
theorem witness_ErrorsAreStickyAndNeverBlock :
    (step errored = .next errored ∧ ¬ errored.NextIsReset ∧ (∀ v, ¬ errored.NextWrites 0x01C v) ∧
      (∀ w, errored.NextWrites 0x000 w → ¬ Rejected errored w)) ∧
    Rejected small 0x00000000#32 ∧ Rejected small 0x00050003#32 ∧ ¬ OutOfRange small (.trlGen 4#16) := by
  refine ⟨⟨rfl, fun h => ?_, fun _ h => ?_, fun _ h => ?_⟩,
    .inl ⟨.eOpc, by decide⟩, .inr ⟨.trlGen 5#16, by decide, ?_⟩, ?_⟩
  · obtain ⟨_, h⟩ := h; cases h
  · obtain ⟨_, h⟩ := h; cases h
  · obtain ⟨_, h⟩ := h; cases h
  · show small.sizes.txBytes < 7; decide
  · show ¬ small.sizes.txBytes < 6; decide

theorem witness_NoCommandReadsAFlag :
    SameButFlags small { small with
      eflag := .checksumError, lenbad := true, chkok := true, errOpc := true, errRsv := true, errRange := true } := by
  constructor <;> rfl

/-- Each piece of state changes in some step that is not a reset. -/
theorem witness_StateIsWrittenOnlyByItsOperations :
    nextHas (step (facing small (cmdWrite 0x00000102#32))) (fun t => t.crc != small.crc) = true ∧
    nextHas (step (facing small (cmdWrite 0x00010005#32))) (fun t => t.txlen != small.txlen) = true ∧
    nextHas (step (facing copied (cmdWrite 0x00060004#32))) (fun t => t.chkok != copied.chkok) = true ∧
    nextHas (step (facing copied (cmdWrite 0x00010006#32))) (fun t => t.rxdecl != copied.rxdecl) = true ∧
    nextHas (step (facing small (wr 0x008 1#32))) (fun t => t.txplen != small.txplen) = true ∧
    nextHas (step (facing small (cmdWrite 7#32))) (fun t => t.errcmd != small.errcmd) = true ∧
    nextHas (step (facing framed (wr 0x10000 9#32))) (fun t => t.txByte 0 != framed.txByte 0) = true ∧
    nextHas (step (facing copied (wr 0x20014 9#32))) (fun t => t.rxByte 5 != copied.rxByte 5) = true := by decide +kernel

theorem witness_StateIsWrittenOnlyByItsOperations_noReset : ¬ (facing small (cmdWrite 7#32)).NextIsReset :=
  fun ⟨_, h⟩ => by cases h

theorem witness_StepRunsTheDecodedCommand :
    small.sizes.Legal ∧ (facing small (cmdWrite 0x00010006#32)).pending = .access (.write 32 0x000 0x00010006#32) :: [] ∧
    decode 0x00010006#32 = .command (.pktDec 0x00#8 0x01#8) := by decide

theorem witness_EachStepTakesTheOldestEvent :
    nextHas (step { small with pending := [rd 0x004, wr 0x008 1#32] }) (fun t => t.pending == [wr 0x008 1#32]) = true := by
  decide +kernel

/-- The last word of the register range, of TABLE and of TX, and an access that is wrong in each way. -/
theorem witness_OnlyAlignedMappedWordsAreServed :
    small.sizes.Legal ∧ (facing small (rd 0x024)).pending = .access (.read 32 0x024) :: [] ∧
    Servable small.sizes 32 0x024 ∧ Servable small.sizes 32 0x7FC ∧ Servable small.sizes 32 0x10014 ∧
    ¬ Servable small.sizes 8 0x024 ∧ ¬ Servable small.sizes 32 0x025 ∧ ¬ Servable small.sizes 32 0x10018 ∧
    ¬ Servable small.sizes 32 0x40000 :=
  ⟨by decide, by decide, by decide, by decide, by decide, by decide, by decide, by decide, by decide⟩

/-- A safe state with an access pending, and one that is not safe. -/
theorem witness_OnlyABusErrorStopsTheBlock :
    small.sizes.Legal ∧ (facing small (rd 0x004)).Safe ∧ ¬ (facing small (rd 0x028)).Safe := by
  refine ⟨by decide, fun a rest h => ?_, fun h => ?_⟩
  · cases h; decide
  · exact absurd (h _ _ rfl) (by decide)

theorem witness_BusErrorChangesNothing :
    small.sizes.Legal ∧
    ¬ Servable small.sizes (Access.read 16 0x000).width (Access.read 16 0x000).offset := by decide

/-- A read that is answered, and a read of each kind of mapped word. -/
theorem witness_ReadsGiveCurrentValuesWithoutSideEffect :
    (facing small (rd 0x010)).pending = .access (.read 32 0x010) :: [] ∧
    nextHas (step (facing small (rd 0x010))) (fun _ => true) = true ∧ small.sizes.Legal ∧
    (255 < 256 ∧ 0x7FC = 0x00400 + 4 * 255) ∧ (5 < small.sizes.txBytes ∧ 0x10014 = 0x10000 + 4 * 5) ∧
    (5 < small.sizes.rxBytes ∧ 0x20014 = 0x20000 + 4 * 5) := by decide +kernel

theorem witness_TableWindowReadsTheTable :
    small.sizes.Legal ∧ 255 < 256 ∧
    (facing small (rd 0x7FC)).pending = .access (.read 32 (0x00400 + 4 * 255)) :: [] ∧
    (facing small (wr 0x7FC 1#32)).pending = .access (.write 32 (0x00400 + 4 * 255) 1#32) :: [] := by decide

theorem witness_TxWindowHoldsOneByteAWord :
    small.sizes.Legal ∧ 5 < small.sizes.txBytes ∧
    (facing small (rd 0x10014)).pending = .access (.read 32 (0x10000 + 4 * 5)) :: [] ∧
    (facing small (wr 0x10014 1#32)).pending = .access (.write 32 (0x10000 + 4 * 5) 1#32) :: [] := by decide

theorem witness_RxWindowHoldsOneByteAWord :
    small.sizes.Legal ∧ 5 < small.sizes.rxBytes ∧
    (facing small (rd 0x20014)).pending = .access (.read 32 (0x20000 + 4 * 5)) :: [] ∧
    (facing small (wr 0x20014 1#32)).pending = .access (.write 32 (0x20000 + 4 * 5) 1#32) :: [] := by decide

theorem witness_WritesHaveTheirEffect :
    small.sizes.Legal ∧ (facing small (wr 0x008 9#32)).pending = .access (.write 32 0x008 9#32) :: [] ∧
    (facing small (wr 0x01C 9#32)).pending = .access (.write 32 0x01C 9#32) :: [] ∧
    (facing small (wr 0x000 9#32)).pending = .access (.write 32 0x000 9#32) :: [] ∧
    (0x024 ∈ [0x004, 0x00C, 0x010, 0x014, 0x018, 0x020, 0x024] ∧
      (facing small (wr 0x024 9#32)).pending = .access (.write 32 0x024 9#32) :: []) := by decide

/-- A run that fills RX to its last byte. -/
theorem witness_RxFillPlacesItsBytes :
    small.sizes.Legal ∧ 4 + [0x8A#8, 0x05#8].length ≤ small.sizes.rxBytes ∧
    { small with pending := rxFillEvents 4 [0x8A#8, 0x05#8] }.pending = rxFillEvents 4 [0x8A#8, 0x05#8] ++ [] := by decide

theorem witness_IllegalConfigurationIsRefused :
    (State.resetWith ⟨5, 64⟩).sizes.txBytes < 6 ∧ 16384 < (State.resetWith ⟨64, 16385⟩).sizes.rxBytes ∧
    (6 ≤ (State.resetWith ⟨6, 16384⟩).sizes.txBytes ∧ (State.resetWith ⟨6, 16384⟩).sizes.rxBytes ≤ 16384) := by decide

theorem witness_IdleBlockKeepsItsState : small.sizes.Legal ∧ small.pending = [] := by decide

theorem witness_ResetSetsEveryRegister : small.sizes.Legal ∧ (facing framed .reset).pending = .reset :: [] := by decide

theorem witness_ResetInputRestoresTheResetState : small.sizes.Legal ∧ (facing framed .reset).pending = .reset :: [] := by
  decide

theorem witness_ConfigurationNeverChanges :
    nextHas (step (facing small .reset)) (fun _ => true) = true ∧ small.sizes.Legal := by decide

theorem witness_InvariantHoldsAtReset : BufferSizes.Legal ⟨6, 6⟩ ∧ BufferSizes.Legal ⟨16384, 16384⟩ := by decide

/-- A state that is not a reset state meets the invariant, and its step answers a next state. -/
theorem witness_EveryStepKeepsTheInvariant : framed.Inv ∧ step framed = .next framed := by
  refine ⟨⟨by decide, by decide, by decide, by decide, by decide, by decide, by decide, by decide, by decide, by decide,
    by decide⟩, rfl⟩

theorem witness_EncodeRecipeBuildsThePacket :
    State.reset.sizes.Legal ∧ [0xDE#8, 0xAD#8].length + 6 ≤ State.reset.sizes.txBytes ∧
    { State.reset with pending := pktFrameEvents 0x02#8 0x22#8 [0xDE#8, 0xAD#8] }.pending =
      pktFrameEvents 0x02#8 0x22#8 [0xDE#8, 0xAD#8] ++ [] := by decide

/-- A request that fits, at the last byte of TX, and one that is rejected. -/
theorem witness_SendHandsOverExactlyTxlenBytes :
    (small.Inv ∧ (Operation.requestData params .getTemperature).length + 4 ≤ small.sizes.txBytes ∧
      Operation.requestSize params .getTemperature ≤ small.sizes.txBytes) ∧
    (tx20.Inv ∧ (Operation.requestData params create13).length + 4 ≤ tx20.sizes.txBytes ∧
      tx20.sizes.txBytes < Operation.requestSize params create13) := by
  refine ⟨⟨⟨by decide, by decide, by decide, by decide, by decide, by decide, by decide, by decide, by decide, by decide,
    by decide⟩, by decide, by decide⟩, ⟨by decide, by decide, by decide, by decide, by decide, by decide, by decide,
    by decide, by decide, by decide, by decide⟩, by decide, by decide⟩

/-- The temperature call of L1-6, its reply cut at a response maximum of 6 bytes. -/
theorem witness_EveryCallEndsWithItsVerdict :
    small.sizes.Legal ∧ Operation.Fits params small.sizes 6 .getTemperature ∧
    [0x01#8, 0x00#8, 0x05#8, 0x01#8, 0x00#8, 0x1A#8] =
      ((fun _ => corrupted26) (packetBytes (Operation.getTemperature.family.requestType.code params)
        (Operation.getTemperature.commandId params) (Operation.getTemperature.requestData params))).take 6 := by decide

/-- The temperature call of L1-5, its reply as long as the response maximum. -/
theorem witness_MatchedCallDeliversTheData :
    State.reset.sizes.Legal ∧ Operation.Fits params State.reset.sizes 8 .getTemperature ∧
    [0x00#8, 0x1A#8].length + 6 ≤ 8 ∧
    (fun _ => report26) (packetBytes (Operation.getTemperature.family.requestType.code params)
        (Operation.getTemperature.commandId params) (Operation.getTemperature.requestData params)) =
      packetBytes (Operation.expectedType params .getTemperature) (Operation.commandId params .getTemperature)
        [0x00#8, 0x1A#8] := by decide +kernel

theorem witness_RequestSizesAndFailureValue :
    create13.wellFormed = true ∧ Operation.requestData params .getMclChanges = [] ∧
    { small with eflag := .checksumError }.eflag ≠ .none := by decide

/-- The largest count of error codes, which fills the data, and the shortest data of the others. -/
theorem witness_TypedResultsReadThePayload :
    (((withRx State.reset [0#8, 0#8, 0#8, 0#8, 8#8]).rxByte 4).toNat + 1 ≤ { withRx State.reset [0#8, 0#8, 0#8, 0#8, 8#8] with rxdlen := 9#16 }.rxdlen.toNat ∧
      ((withRx State.reset [0#8, 0#8, 0#8, 0#8, 8#8]).rxByte 4).toNat ≤ params.errMax) ∧
    2 ≤ { small with rxdlen := 2#16 }.rxdlen.toNat ∧ 1 ≤ { small with rxdlen := 1#16 }.rxdlen.toNat := by decide

end Sys2Proof.Tests
end

section
/-! Which steps are refused (spec/00_scope.md R6). -/

namespace Sys2Proof.Machine

/-- The port refuses no event: a reset answers a state, and an access a state or a bus error (spec/20_memory.md R54,
spec/60_exceptions.md R176). -/
theorem takeEvent_ne_refused (e : PortEvent) (s : State) (r : Refusal) : takeEvent e s ≠ .refused r := by
  rcases e with (⟨w, o⟩ | ⟨w, o, v⟩) | _
  · rw [takeEvent_read]
    cases locate s.sizes w o <;> simp
  · rw [takeEvent_write]
    cases locate s.sizes w o with
    | error c => simp
    | ok x =>
      obtain ⟨u, hu⟩ := writeTarget_next x v s
      simp [hu]
  · simp [takeEvent_reset]

/-- With nothing pending the step keeps the state (assumption log 6). -/
theorem step_idle (s : State) (hz : s.sizes.Legal) (h : s.pending = []) : step s = .next s := by
  simp only [step, stepMachine, if_pos hz, h]

theorem step_ne_refused_of_legal (s : State) (hz : s.sizes.Legal) (r : Refusal) : step s ≠ .refused r := by
  cases hp : s.pending with
  | nil => simp [step_idle s hz hp]
  | cons e rest =>
    rw [step_event s hz e rest hp]
    exact takeEvent_ne_refused e (s.setPending rest) r

theorem step_refused_of_not_legal (s : State) (hz : ¬ s.sizes.Legal) : step s = .refused .illegalConfiguration :=
  if_neg hz

/-- Settles O48: a legal configuration has no refusal at all, and an illegal one fails the guard of the step. -/
theorem illegalConfigurationIsRefused : Obligations.IllegalConfigurationIsRefused := by
  intro s
  constructor
  · intro hz
    exact step_ne_refused_of_legal s hz .illegalConfiguration
  · intro h
    have hz : ¬ s.sizes.Legal := by
      unfold BufferSizes.Legal
      omega
    exact step_refused_of_not_legal s hz

end Sys2Proof.Machine
end

section
/-! PARAM and the configuration (spec/10_state.md R36): every step keeps the two sizes. -/

namespace Sys2Proof.Machine

theorem writeTarget_sizes (x : Target) (v : Word) (s t : State) (h : writeTarget x v s = .next t) :
    t.sizes = s.sizes := by
  obtain ⟨-, ⟨i, -, he⟩ | ⟨c, -, rfl⟩⟩ | ⟨-, rfl⟩ | ⟨-, rfl⟩ | ⟨i, -, rfl⟩ | ⟨i, -, rfl⟩ | rfl :=
    writeTarget_cases x v s t h
  · exact (exec_frame i s t he).sizes
  all_goals rfl

theorem step_sizes (s t : State) (h : step s = .next t) : t.sizes = s.sizes := by
  obtain ⟨-, ⟨-, rfl⟩ | ⟨rest, -, rfl⟩ | ⟨w, o, rest, x, -, -, rfl⟩ | ⟨w, o, v, rest, x, -, -, hw⟩⟩ :=
    step_cases s t h
  · rfl
  · rfl
  · rfl
  · exact writeTarget_sizes x v (s.setPending rest) t hw

theorem regWord_param (s : State) :
    s.regWord .param = BitVec.ofNat 16 s.sizes.rxBytes ++ BitVec.ofNat 16 s.sizes.txBytes := rfl

/-- Settles O52: PARAM is computed from the sizes alone, no step changes those, and a legal size fits its 16 bits. -/
theorem configurationNeverChanges : Obligations.ConfigurationNeverChanges := by
  refine ⟨fun s t h => ?_, fun s hz => ?_⟩
  · have hs := step_sizes s t h
    exact ⟨hs, by rw [regWord_param, regWord_param, hs]⟩
  · obtain ⟨-, htx, -, hrx⟩ := hz
    rw [regWord_param, BitVec.extractLsb'_append_eq_right, BitVec.extractLsb'_append_eq_left,
      BitVec.toNat_ofNat, BitVec.toNat_ofNat]
    omega

end Sys2Proof.Machine
end

section
/-! A run of bytes written to TX, read back as a slice (spec/00_scope.md R10, R11). -/

namespace Sys2Proof.Machine

@[simp] theorem State.setTxBytes_txBytesFrom (s : State) (i : Nat) (bs : List Byte) :
    (s.setTxBytes i bs).txBytesFrom i bs.length = bs := by
  refine List.ext_getElem (by simp) fun k _ hk => ?_
  rw [State.txBytesFrom_getElem, State.setTxBytes_txByte, dif_pos (by omega)]
  simp only [Nat.add_sub_cancel_left]

/-- A trailer written to TX, read back. -/
theorem State.setTxBytes_be16_txBytesFrom (s : State) (i : Nat) (c : Half) :
    (s.setTxBytes i (be16 c)).txBytesFrom i 2 = be16 c := s.setTxBytes_txBytesFrom i (be16 c)

/-- A slice that ends before the written run or begins after it is unchanged. -/
theorem State.setTxBytes_txBytesFrom_of_disjoint (s : State) (i a n : Nat) (bs : List Byte)
    (h : a + n ≤ i ∨ i + bs.length ≤ a) : (s.setTxBytes i bs).txBytesFrom a n = s.txBytesFrom a n :=
  State.txBytesFrom_congr a n fun j _ _ => by rw [State.setTxBytes_txByte, dif_neg (by omega)]

end Sys2Proof.Machine
end

section
/-! ENCODE builds the packet in TX (spec/42_framer.md R115, R116). -/

namespace Sys2Proof

/-- The ENCODE word of R79 decodes to its command. -/
theorem decode_encode_pktEnc (ty id : Byte) : decode (encode (.pktEnc ty id)) = .command (.pktEnc ty id) := by
  obtain ⟨-, hop, hres⟩ := Laws.EncodedForm.pktEnc ty id
  have hty : typeField (encode (.pktEnc ty id)) = ty := by
    apply BitVec.eq_of_getLsbD_eq
    intro j hj
    simp only [typeField, encode, BitVec.getLsbD_extractLsb', BitVec.getLsbD_or, BitVec.getLsbD_shiftLeft]
    interval_cases j <;> simp
  have hid : idField (encode (.pktEnc ty id)) = id := by
    apply BitVec.eq_of_getLsbD_eq
    intro j hj
    simp only [idField, encode, BitVec.getLsbD_extractLsb', BitVec.getLsbD_or, BitVec.getLsbD_shiftLeft]
    interval_cases j <;> simp
  simp only [decode, hop]
  rw [if_pos hres]
  simp only [Laws.EncodedForm.opcode, commandOf, hty, hid]

end Sys2Proof

namespace Sys2Proof.Machine

/-- After the trailer ENCODE writes only registers. -/
theorem pktEncResult_txByte (ty id : Byte) (s : State) (j : Nat) :
    (pktEncResult ty id s).txByte j =
      ((encodeHeader ty id s).setTxBytes (4 + s.encodeCount) (be16 (encodeCrc ty id s))).txByte j := by
  rw [pktEncResult]
  exact State.txByte_congr (by rw [State.setTxlen_tx, State.setCrc_tx])
    (by rw [State.setTxlen_resets, State.setCrc_resets]) j

/-- The header and the data, over which ENCODE computes the CRC. -/
theorem encodeHeader_txBytesFrom (ty id : Byte) (s : State) :
    (encodeHeader ty id s).txBytesFrom 0 (4 + s.encodeCount) =
      packetHead ty id s.encodeCount ++ s.txBytesFrom 4 s.encodeCount := by
  have hhead : (encodeHeader ty id s).txBytesFrom 0 4 = packetHead ty id s.encodeCount :=
    State.setTxBytes_txBytesFrom s 0 (packetHead ty id s.encodeCount)
  have hdata : (encodeHeader ty id s).txBytesFrom 4 s.encodeCount = s.txBytesFrom 4 s.encodeCount :=
    State.setTxBytes_txBytesFrom_of_disjoint s 0 4 _ _ (.inr (Nat.le_refl 4))
  rw [State.txBytesFrom_add, Nat.zero_add, hhead, hdata]

/-- An ENCODE that is in range leaves the packet of TXPLEN's data in `TX[0..n+6)`. -/
theorem pktEncResult_txBytesFrom (ty id : Byte) (s : State) :
    (pktEncResult ty id s).txBytesFrom 0 (s.encodeCount + 6) =
      packetBytes ty id (s.txBytesFrom 4 s.encodeCount) := by
  have hcrc : encodeCrc ty id s = crc16 (packetHead ty id s.encodeCount ++ s.txBytesFrom 4 s.encodeCount) := by
    rw [encodeCrc, encodeHeader_txBytesFrom]
  calc (pktEncResult ty id s).txBytesFrom 0 (s.encodeCount + 6)
      = ((encodeHeader ty id s).setTxBytes (4 + s.encodeCount) (be16 (encodeCrc ty id s))).txBytesFrom 0
          (4 + s.encodeCount + 2) := by
        rw [show s.encodeCount + 6 = 4 + s.encodeCount + 2 by omega]
        exact State.txBytesFrom_congr 0 _ fun j _ _ => pktEncResult_txByte ty id s j
    _ = (encodeHeader ty id s).txBytesFrom 0 (4 + s.encodeCount) ++ be16 (encodeCrc ty id s) := by
        rw [State.txBytesFrom_add, State.setTxBytes_txBytesFrom_of_disjoint _ _ _ _ _ (.inl (by omega)), Nat.zero_add,
          State.setTxBytes_be16_txBytesFrom]
    _ = packetBytes ty id (s.txBytesFrom 4 s.encodeCount) := by
        rw [encodeHeader_txBytesFrom, hcrc, packetBytes, State.txBytesFrom_length]

theorem pktEncResult_txlen (ty id : Byte) (s : State) (hz : s.sizes.Legal)
    (h : encodeInRange s.sizes s.encodeCount) : (pktEncResult ty id s).txlen.toNat = s.encodeCount + 6 := by
  obtain ⟨-, htx, -, -⟩ := hz
  rw [pktEncResult, State.setTxlen_txlen, BitVec.toNat_ofNat]
  exact Nat.mod_eq_of_lt (by omega)

end Sys2Proof.Machine
end

section
/-! The host's place, frame and send (spec/45_host_protocol.md R146, R147). -/

namespace Sys2Proof.Machine

/-- A length written to TXPLEN: its low 16 bits are the length itself. -/
theorem toNat_extractLsb'_ofNat (n : Nat) (h : n < 2 ^ 16) : ((BitVec.ofNat 32 n).extractLsb' 0 16).toNat = n := by
  simp only [BitVec.extractLsb'_toNat, BitVec.toNat_ofNat, Nat.shiftRight_zero]
  omega

theorem takeEvent_wr_txplen (v : Word) (s : State) :
    takeEvent (wr (regOffset .txplen) v) s = .next (s.setTxplen (v.extractLsb' 0 16)) := by
  rw [wr, takeEvent_write]; rfl

@[simp] theorem State.setTxplen_txBytesFrom (s : State) (v : Half) (a n : Nat) :
    (s.setTxplen v).txBytesFrom a n = s.txBytesFrom a n :=
  State.txBytesFrom_congr a n fun _ _ _ => rfl

/-- `pkt.frame`: ENCODE runs on a block whose TX holds the data from index 4 and whose TXPLEN is its length, and the
host goes on from what it answers. -/
theorem HostProgram.run_pktFrame {α : Type} (ty id : Byte) (data : List Byte) (next : HostProgram α) (s : State)
    (hz : s.sizes.Legal) (h : data.length + 4 ≤ s.sizes.txBytes) :
    ∃ u, u = { s with tx := u.tx, txplen := u.txplen } ∧ u.encodeCount = data.length ∧
      u.txBytesFrom 4 data.length = data ∧
      ∀ t, execPktEnc ty id u = .next t → (issueAll (pktFrameEvents ty id data) next).run s = next.run t := by
  have htx : s.sizes.txBytes ≤ 16384 := hz.2.1
  obtain ⟨f, hfill, hdata, -, hf⟩ := HostProgram.run_txFill 4 data
    (issueAll [wr (regOffset .txplen) (BitVec.ofNat 32 data.length), cmdWrite (encode (.pktEnc ty id))] next)
    s hz (by omega)
  have hzf : f.sizes.Legal := by rw [hf]; exact hz
  refine ⟨f.setTxplen ((BitVec.ofNat 32 data.length).extractLsb' 0 16), ?_, ?_, ?_, fun t ht => ?_⟩
  · rw [hf]; rfl
  · exact toNat_extractLsb'_ofNat _ (by omega)
  · rw [State.setTxplen_txBytesFrom, hdata]
  · rw [pktFrameEvents, issueAll_append, hfill, issueAll, HostProgram.run_issue _ _ f _ hzf (takeEvent_wr_txplen _ f)]
    exact HostProgram.run_cmdWrite _ _ next _ t hzf (decode_encode_pktEnc ty id) ht

/-- What a run of host reads leaves: the values that the port has given back, and nothing else, are changed. -/
def State.setReads (s : State) (rs : List Word) : State := { s with reads := rs }

@[simp] theorem State.setReads_txBytesFrom (s : State) (rs : List Word) (a n : Nat) :
    (s.setReads rs).txBytesFrom a n = s.txBytesFrom a n :=
  State.txBytesFrom_congr a n fun _ _ _ => rfl

/-- The host reads TXLEN and then `TX[0..TXLEN)`: it goes on with those bytes, and only what it has read changes. -/
theorem HostProgram.run_readPacket {α : Type} (next : List Byte → HostProgram α) (s : State) (hz : s.sizes.Legal)
    (h : s.txlen.toNat ≤ s.sizes.txBytes) :
    ∃ rs, (HostProgram.read (regOffset .txlen) fun n => readBytes txBase 0 n.toNat next).run s =
      (next (s.txBytesFrom 0 s.txlen.toNat)).run (s.setReads rs) := by
  have hl : locate s.sizes 32 (regOffset .txlen) = .ok (.reg .txlen) := rfl
  have hn : (s.portWord (.reg .txlen)).toNat = s.txlen.toNat := toNat_zeroExtended_half s.txlen
  obtain ⟨t, hrun, ht⟩ := HostProgram.run_readTx 0 s.txlen.toNat next (s.logRead (s.portWord (.reg .txlen))) hz
    (show 0 + s.txlen.toNat ≤ s.sizes.txBytes by omega)
  have hreads : t = s.setReads t.reads := ht
  have hbytes : (s.logRead (s.portWord (.reg .txlen))).txBytesFrom 0 s.txlen.toNat = s.txBytesFrom 0 s.txlen.toNat :=
    s.setReads_txBytesFrom _ 0 _
  exact ⟨t.reads, by rw [HostProgram.run_read _ _ s _ hz hl, hn, hrun, hbytes, ← hreads]⟩

/-- Place, frame and send where the request fits TX: the host goes on with the request packet, which `TX[0..TXLEN)`
holds, and RX is as before. -/
theorem Operation.run_send_of_fits {α : Type} (p : HostParams) (op : Operation) (next : List Byte → HostProgram α)
    (s : State) (hz : s.sizes.Legal) (h : op.requestSize p ≤ s.sizes.txBytes) :
    ∃ t, (op.send p next).run s = (next (t.txBytesFrom 0 t.txlen.toNat)).run t ∧
      t.txlen.toNat = op.requestSize p ∧
      t.txBytesFrom 0 t.txlen.toNat =
        packetBytes (op.family.requestType.code p) (op.commandId p) (op.requestData p) ∧
      t.sizes = s.sizes ∧ t.pending = s.pending ∧ t.rx = s.rx ∧ t.resets = s.resets := by
  unfold Operation.requestSize at h ⊢
  rw [Operation.send]
  generalize op.family.requestType.code p = ty, op.commandId p = id, op.requestData p = data at h ⊢
  obtain ⟨u, hu, hn, hdata, hrun⟩ := HostProgram.run_pktFrame ty id data
    (.read (regOffset .txlen) fun n => readBytes txBase 0 n.toNat next) s hz (by omega)
  have hsizes : u.sizes = s.sizes := by rw [hu]
  have hexec := execPktEnc_inRange ty id u (by rwa [hsizes, hn])
  have hframe := exec_frame (.pktEnc ty id) u _ hexec
  have hlen := pktEncResult_txlen ty id u (hsizes ▸ hz) (by rwa [hsizes, hn])
  have hbytes := pktEncResult_txBytesFrom ty id u
  rw [hn] at hlen hbytes
  rw [hdata] at hbytes
  have htsizes := hframe.sizes.trans hsizes
  obtain ⟨rs, hread⟩ := HostProgram.run_readPacket next (pktEncResult ty id u) (htsizes ▸ hz)
    (by rwa [hlen, htsizes])
  refine ⟨(pktEncResult ty id u).setReads rs, ?_, hlen, ?_, htsizes, ?_, ?_, ?_⟩
  · rw [hrun _ hexec, hread, State.setReads_txBytesFrom]; rfl
  · rw [State.setReads_txBytesFrom, ← hbytes, ← hlen]; rfl
  · exact hframe.pending.trans (by rw [hu])
  · exact hframe.rx.trans (by rw [hu])
  · exact hframe.resets.trans (by rw [hu])

/-- Place, frame and send where the data fits TX but its packet does not: ENCODE raises E_RANGE, and the host goes on
with `TX[0..TXLEN)` of the TXLEN from before. -/
theorem Operation.run_send_of_not_fits {α : Type} (p : HostParams) (op : Operation)
    (next : List Byte → HostProgram α) (s : State) (hz : s.sizes.Legal)
    (hdata : (op.requestData p).length + 4 ≤ s.sizes.txBytes) (h : s.sizes.txBytes < op.requestSize p)
    (htxlen : s.txlen.toNat ≤ s.sizes.txBytes) :
    ∃ t, (op.send p next).run s = (next (t.txBytesFrom 0 t.txlen.toNat)).run t ∧
      t.txlen = s.txlen ∧ t.errRange = true ∧ t.pending = s.pending := by
  unfold Operation.requestSize at h
  rw [Operation.send]
  generalize op.family.requestType.code p = ty, op.commandId p = id, op.requestData p = data at hdata h ⊢
  obtain ⟨u, hu, hn, -, hrun⟩ := HostProgram.run_pktFrame ty id data
    (.read (regOffset .txlen) fun n => readBytes txBase 0 n.toNat next) s hz hdata
  have hsizes : u.sizes = s.sizes := by rw [hu]
  have hlen : u.txlen = s.txlen := by rw [hu]
  have hpending : u.pending = s.pending := by rw [hu]
  have hexec := execPktEnc_outOfRange ty id u (by rw [hsizes, hn]; omega)
  obtain ⟨rs, hread⟩ := HostProgram.run_readPacket next (u.raiseCmdError .eRange (encode (.pktEnc ty id)))
    (by rwa [State.raiseCmdError_sizes, hsizes])
    (by rwa [State.raiseCmdError_txlen, State.raiseCmdError_sizes, hlen, hsizes])
  refine ⟨(u.raiseCmdError .eRange (encode (.pktEnc ty id))).setReads rs, ?_, hlen, ?_, ?_⟩
  · rw [hrun _ hexec, hread, State.setReads_txBytesFrom]; rfl
  · exact Bool.or_true u.errRange
  · exact hpending

/-- The TXLEN of any state that meets the invariant lies in TX (spec/10_state.md R27). -/
theorem State.Inv.txlen_le {s : State} (h : s.Inv) : s.txlen.toNat ≤ s.sizes.txBytes := by
  obtain h0 | ⟨-, hle⟩ := h.txlenFits
  · simp [h0]
  · exact hle

/-- Settles O56: ENCODE in range leaves the request packet and its size; ENCODE out of range leaves the TXLEN from
before, which the invariant keeps inside TX; either way the host reads TXLEN and that many bytes. -/
theorem sendHandsOverExactlyTxlenBytes : Obligations.SendHandsOverExactlyTxlenBytes := by
  intro s p op hinv hdata
  by_cases hfit : op.requestSize p ≤ s.sizes.txBytes
  · obtain ⟨t, hrun, hlen, hbytes, -, hpending, -, -⟩ := op.run_send_of_fits p .done s hinv.sizesLegal hfit
    exact ⟨t, hrun, hpending, fun _ => ⟨hlen, hbytes⟩, fun hlt => absurd hfit (Nat.not_le.2 hlt)⟩
  · obtain ⟨t, hrun, hlen, herr, hpending⟩ :=
      op.run_send_of_not_fits p .done s hinv.sizesLegal hdata (Nat.not_le.1 hfit) hinv.txlen_le
    exact ⟨t, hrun, hpending, fun hle => absurd hle hfit, fun _ => ⟨hlen, herr⟩⟩

end Sys2Proof.Machine
end

section
/-! Which accesses the port serves (spec/20_memory.md R51), and the bus error of any other (R54). -/

namespace Sys2Proof.Machine

theorem locate_error_of_not_servable (z : BufferSizes) (hz : z.Legal) (width offset : Nat)
    (h : ¬ Servable z width offset) : ∃ c, locate z width offset = .error c := by
  cases hl : locate z width offset with
  | error c => exact ⟨c, rfl⟩
  | ok x => exact absurd ((locate_ok_iff z hz width offset).1 ⟨x, hl⟩) h

/-- A served access answers a next state: a read its word, a write its effect. -/
theorem takeEvent_next_of_servable (a : Access) (s : State) (hz : s.sizes.Legal)
    (h : Servable s.sizes a.width a.offset) : ∃ t, takeEvent (.access a) s = .next t := by
  cases a with
  | read width offset =>
    obtain ⟨x, hl⟩ := (locate_ok_iff s.sizes hz width offset).2 h
    rw [takeEvent_read, hl]
    exact ⟨_, rfl⟩
  | write width offset v =>
    obtain ⟨x, hl⟩ := (locate_ok_iff s.sizes hz width offset).2 h
    rw [takeEvent_write, hl]
    exact writeTarget_next x v s

/-- An access that is not served gets the bus-error reply. -/
theorem serveAccess_busErrorReply (a : Access) (s : State) (hz : s.sizes.Legal)
    (h : ¬ Servable s.sizes a.width a.offset) : ∃ c, serveAccess a s = .next (busErrorReply a c s) := by
  cases a with
  | read width offset =>
    obtain ⟨c, hl⟩ := locate_error_of_not_servable s.sizes hz width offset h
    exact ⟨c, by simp only [serveAccess, hl]⟩
  | write width offset v =>
    obtain ⟨c, hl⟩ := locate_error_of_not_servable s.sizes hz width offset h
    exact ⟨c, by simp only [serveAccess, hl]⟩

@[simp] theorem busErrorReply_block (a : Access) (c : BusErrorCause) (s : State) :
    (busErrorReply a c s).block = s := by cases a <;> rfl

@[simp] theorem busErrorReply_error (a : Access) (c : BusErrorCause) (s : State) :
    (busErrorReply a c s).error = some c := by cases a <;> rfl

@[simp] theorem busErrorReply_read_rdata (width offset : Nat) (c : BusErrorCause) (s : State) :
    (busErrorReply (.read width offset) c s).rdata = some 0x00000000#32 := rfl

/-- An answer with an error response ends the run. -/
theorem takeEvent_of_serveAccess_error (a : Access) (s : State) (r : Reply) (c : BusErrorCause)
    (hs : serveAccess a s = .next r) (he : r.error = some c) : takeEvent (.access a) s = .fault (.busError c) := by
  simp only [takeEvent, hs, afterReply, he]

/-- Settles O41: an access that is not served gets the bus-error reply, which holds the block as it was. -/
theorem busErrorChangesNothing : Obligations.BusErrorChangesNothing := by
  intro s a hz h
  obtain ⟨c, hs⟩ := serveAccess_busErrorReply a s hz h
  refine ⟨busErrorReply a c s, c, hs, busErrorReply_block a c s, busErrorReply_error a c s, ?_, ?_⟩
  · rintro w o rfl
    exact busErrorReply_read_rdata w o c s
  · exact takeEvent_of_serveAccess_error a s _ c hs (busErrorReply_error a c s)

/-- Settles O39: taking the access off the queue changes no size, and then a served access answers a state and any
other is the fault of O41. -/
theorem onlyAlignedMappedWordsAreServed : Obligations.OnlyAlignedMappedWordsAreServed := by
  intro s a rest hz hp
  rw [step_event s hz (.access a) rest hp]
  constructor
  · intro h
    exact takeEvent_next_of_servable a (s.setPending rest) hz h
  · intro h
    obtain ⟨r, c, -, -, -, -, hfault⟩ := busErrorChangesNothing (s.setPending rest) a hz h
    exact ⟨c, hfault⟩

end Sys2Proof.Machine
end

section
/-! What each mapped word reads as, written out by its fields (spec/20_memory.md R48 to R50, R55). -/

namespace Sys2Proof.Machine

theorem setWidth_byte_eq_append (b : Byte) : (b.setWidth 32 : Word) = 0#24 ++ b :=
  (BitVec.setWidth_eq_append (by decide)).trans (BitVec.cast_eq _ _)

theorem setWidth_half_eq_append (h : Half) : (h.setWidth 32 : Word) = 0#16 ++ h :=
  (BitVec.setWidth_eq_append (by decide)).trans (BitVec.cast_eq _ _)

/-- RESULT's fields in place (spec/10_state.md R30). -/
theorem resultWord_eq_append (s : State) :
    s.resultWord = 0#28 ++ BitVec.ofBool s.chkok ++ BitVec.ofBool s.lenbad ++ errorFlagCode s.eflag := by
  unfold State.resultWord
  cases s.chkok <;> cases s.lenbad <;> cases s.eflag <;> rfl

/-- ERR's bits in place (spec/10_state.md R34). -/
theorem errWord_eq_append (s : State) :
    s.errWord = 0#29 ++ BitVec.ofBool s.errRange ++ BitVec.ofBool s.errRsv ++ BitVec.ofBool s.errOpc := by
  unfold State.errWord
  cases s.errRange <;> cases s.errRsv <;> cases s.errOpc <;> rfl

/-- PARAM as a number (spec/10_state.md R36): the RX size in the high half, the TX size in the low half. -/
theorem regWord_param_eq_ofNat (s : State) (hz : s.sizes.Legal) :
    s.regWord .param = BitVec.ofNat 32 (s.sizes.rxBytes * 65536 + s.sizes.txBytes) := by
  obtain ⟨-, htx, -, hrx⟩ := hz
  apply BitVec.eq_of_toNat_eq
  rw [regWord_param, BitVec.toNat_append, ← Nat.shiftLeft_add_eq_or_of_lt (BitVec.isLt _), Nat.shiftLeft_eq]
  simp only [BitVec.toNat_ofNat]
  omega

theorem locate_reg (z : BufferSizes) (r : Reg) : locate z 32 (regOffset r) = .ok (.reg r) := by
  cases r <;> rfl

/-- A step whose event is a read of a word with a known value: it goes to the host, and nothing else changes. -/
theorem step_read_value (s : State) (offset : Nat) (rest : List PortEvent) (x : Target) (v : Word)
    (hz : s.sizes.Legal) (hp : s.pending = .access (.read 32 offset) :: rest)
    (hl : locate s.sizes 32 offset = .ok x) (hv : s.portWord x = v) :
    step s = .next { s with pending := rest, reads := v :: s.reads } := by
  rw [step_read s offset rest x hz hp hl, hv]
  rfl

/-- A step that answers a read gives the host one word and changes nothing else. -/
theorem step_of_read_eq (s t : State) (width offset : Nat) (rest : List PortEvent)
    (hp : s.pending = .access (.read width offset) :: rest) (h : step s = .next t) :
    ∃ v, t = { s with pending := rest, reads := v :: s.reads } := by
  obtain ⟨-, ⟨hp', -⟩ | ⟨r, hp', -⟩ | ⟨w, o, r, x, hp', -, ht⟩ | ⟨w, o, v, r, x, hp', -, -⟩⟩ := step_cases s t h
  all_goals
    rw [hp] at hp'
    cases hp'
  exact ⟨s.portWord x, ht⟩

/-- Settles O42: the step of a read is the same for every word, so what is left is the target of each offset and the
target's word. -/
theorem readsGiveCurrentValuesWithoutSideEffect : Obligations.ReadsGiveCurrentValuesWithoutSideEffect := by
  refine ⟨step_of_read_eq, fun s rest offset v hz h hp => ?_⟩
  obtain ⟨x, hl, hv⟩ : ∃ x, locate s.sizes 32 offset = .ok x ∧ s.portWord x = v := by
    obtain ⟨i, hi, rfl, rfl⟩ | ⟨i, hi, rfl, rfl⟩ | ⟨i, hi, rfl, rfl⟩ | hreg := h
    · exact ⟨_, locate_table s.sizes i hi, setWidth_half_eq_append _⟩
    · exact ⟨_, locate_tx s.sizes hz i hi, setWidth_byte_eq_append _⟩
    · exact ⟨_, locate_rx s.sizes hz i hi, setWidth_byte_eq_append _⟩
    · simp only [List.mem_cons, Prod.mk.injEq, List.not_mem_nil, or_false] at hreg
      obtain ⟨rfl, rfl⟩ | ⟨rfl, rfl⟩ | ⟨rfl, rfl⟩ | ⟨rfl, rfl⟩ | ⟨rfl, rfl⟩ | ⟨rfl, rfl⟩ | ⟨rfl, rfl⟩ | ⟨rfl, rfl⟩ |
        ⟨rfl, rfl⟩ | ⟨rfl, rfl⟩ := hreg
      · exact ⟨_, locate_reg _ .cmd, rfl⟩
      · exact ⟨_, locate_reg _ .crc, setWidth_half_eq_append _⟩
      · exact ⟨_, locate_reg _ .txplen, setWidth_half_eq_append _⟩
      · exact ⟨_, locate_reg _ .txlen, setWidth_half_eq_append _⟩
      · exact ⟨_, locate_reg _ .result, resultWord_eq_append s⟩
      · exact ⟨_, locate_reg _ .rxdlen, setWidth_half_eq_append _⟩
      · exact ⟨_, locate_reg _ .rxdecl, setWidth_half_eq_append _⟩
      · exact ⟨_, locate_reg _ .err, errWord_eq_append s⟩
      · exact ⟨_, locate_reg _ .errcmd, rfl⟩
      · exact ⟨_, locate_reg _ .param, regWord_param_eq_ofNat s hz⟩
  exact step_read_value s offset rest x v hz hp hl hv

end Sys2Proof.Machine
end

section
/-! What a write to each mapped word does (spec/20_memory.md R48 to R50, R56). -/

namespace Sys2Proof.Machine

/-- A step whose event is a write to a register. -/
theorem step_writeReg (s : State) (r : Reg) (v : Word) (rest : List PortEvent) (hz : s.sizes.Legal)
    (hp : s.pending = .access (.write 32 (regOffset r) v) :: rest) :
    step s = writeTarget (.reg r) v (s.setPending rest) :=
  step_write s (regOffset r) v rest (.reg r) hz hp (locate_reg s.sizes r)

theorem writeTarget_readOnlyReg (r : Reg) (h : r ∈ [.crc, .txlen, .result, .rxdlen, .rxdecl, .errcmd, .param])
    (v : Word) (s : State) : writeTarget (.reg r) v s = .next s := by
  simp only [List.mem_cons, List.not_mem_nil, or_false] at h
  obtain rfl | rfl | rfl | rfl | rfl | rfl | rfl := h
  all_goals rfl

/-- The read-only registers ignore a write. -/
theorem step_writeReadOnlyReg (s : State) (offset : Nat) (v : Word) (rest : List PortEvent) (hz : s.sizes.Legal)
    (ho : offset ∈ [0x004, 0x00C, 0x010, 0x014, 0x018, 0x020, 0x024])
    (hp : s.pending = .access (.write 32 offset v) :: rest) : step s = .next { s with pending := rest } := by
  obtain ⟨r, hr, rfl⟩ : ∃ r ∈ [Reg.crc, .txlen, .result, .rxdlen, .rxdecl, .errcmd, .param], regOffset r = offset :=
    List.mem_map.1 ho
  rw [step_writeReg s r v rest hz hp, writeTarget_readOnlyReg r hr]
  rfl

/-- A bit of ERR written with 1 is cleared, and one written with 0 is kept (spec/10_state.md R34). -/
theorem clearErr_eq_ite (s : State) (v : Word) :
    s.clearErr v = { s with
      errOpc := if v.getLsbD 0 then false else s.errOpc
      errRsv := if v.getLsbD 1 then false else s.errRsv
      errRange := if v.getLsbD 2 then false else s.errRange } := by
  unfold State.clearErr
  cases v.getLsbD 0 <;> cases v.getLsbD 1 <;> cases v.getLsbD 2 <;> simp

/-- The TABLE window ignores a write. -/
theorem step_writeTable (s : State) (i : Nat) (v : Word) (rest : List PortEvent) (hz : s.sizes.Legal) (hi : i < 256)
    (hp : s.pending = .access (.write 32 (0x00400 + 4 * i) v) :: rest) : step s = .next { s with pending := rest } :=
  step_write s _ v rest _ hz hp (locate_table s.sizes i hi)

/-- A write to the TX window sets its one byte. -/
theorem step_writeTx (s : State) (i : Nat) (v : Word) (rest : List PortEvent) (hz : s.sizes.Legal)
    (hi : i < s.sizes.txBytes) (hp : s.pending = .access (.write 32 (0x10000 + 4 * i) v) :: rest) :
    ∃ t, step s = .next t ∧ t.txByte i = v.extractLsb' 0 8 ∧ (∀ j, j ≠ i → t.txByte j = s.txByte j) ∧
      t = { s with pending := rest, tx := t.tx } := by
  refine ⟨_, step_write s _ v rest _ hz hp (locate_tx s.sizes hz i hi), ?_, fun j hj => ?_, rfl⟩
  · rw [State.setTxByte_txByte, if_pos rfl]
  · rw [State.setTxByte_txByte, if_neg hj]
    exact State.txByte_congr rfl rfl j

/-- A write to the RX window sets its one byte. -/
theorem step_writeRx (s : State) (i : Nat) (v : Word) (rest : List PortEvent) (hz : s.sizes.Legal)
    (hi : i < s.sizes.rxBytes) (hp : s.pending = .access (.write 32 (0x20000 + 4 * i) v) :: rest) :
    ∃ t, step s = .next t ∧ t.rxByte i = v.extractLsb' 0 8 ∧ (∀ j, j ≠ i → t.rxByte j = s.rxByte j) ∧
      t = { s with pending := rest, rx := t.rx } := by
  refine ⟨_, step_write s _ v rest _ hz hp (locate_rx s.sizes hz i hi), ?_, fun j hj => ?_, rfl⟩
  · rw [State.setRxByte_rxByte, if_pos rfl]
  · rw [State.setRxByte_rxByte, if_neg hj]
    exact State.rxByte_congr rfl rfl j

/-- Settles O43: a read of the window is the entry zero-extended, and a write to it is ignored. -/
theorem tableWindowReadsTheTable : Obligations.TableWindowReadsTheTable := by
  intro s i rest hz hi
  constructor
  · intro hp
    exact step_read_value s _ rest _ _ hz hp (locate_table s.sizes i hi) (setWidth_half_eq_append _)
  · intro v hp
    exact step_writeTable s i v rest hz hi hp

/-- Settles O44: the word of the window at `4 * i` is byte `i` of TX, zero-extended on a read. -/
theorem txWindowHoldsOneByteAWord : Obligations.TxWindowHoldsOneByteAWord := by
  intro s i rest hz hi
  constructor
  · intro hp
    exact step_read_value s _ rest _ _ hz hp (locate_tx s.sizes hz i hi) (setWidth_byte_eq_append _)
  · intro v hp
    exact step_writeTx s i v rest hz hi hp

/-- Settles O45: the word of the window at `4 * i` is byte `i` of RX, zero-extended on a read. -/
theorem rxWindowHoldsOneByteAWord : Obligations.RxWindowHoldsOneByteAWord := by
  intro s i rest hz hi
  constructor
  · intro hp
    exact step_read_value s _ rest _ _ hz hp (locate_rx s.sizes hz i hi) (setWidth_byte_eq_append _)
  · intro v hp
    exact step_writeRx s i v rest hz hi hp

/-- Settles O46: one lemma per kind of target, the step of a served write being the write to its target. -/
theorem writesHaveTheirEffect : Obligations.WritesHaveTheirEffect := by
  intro s v rest hz
  refine ⟨?txplen, ?err, ?cmd, ?readOnly, ?table, ?tx, ?rx⟩
  case txplen => exact step_writeReg s .txplen v rest hz
  case err =>
    intro hp
    rw [step_writeReg s .err v rest hz hp]
    exact congrArg Host.Outcome.next (clearErr_eq_ite (s.setPending rest) v)
  case cmd => exact step_writeReg s .cmd v rest hz
  case readOnly => exact fun offset ho hp => step_writeReadOnlyReg s offset v rest hz ho hp
  case table => exact fun i hi hp => step_writeTable s i v rest hz hi hp
  case tx => exact fun i hi hp => step_writeTx s i v rest hz hi hp
  case rx => exact fun i hi hp => step_writeRx s i v rest hz hi hp

end Sys2Proof.Machine
end

section
/-! A command word by its four bytes: its slices (spec/30_encoding.md R72) and its bitwise and. -/

namespace Sys2Proof

open Machine (pair)

/-- A word by its bytes, the high byte first. -/
def wordOf (b3 b2 b1 b0 : Byte) : Word := b3 ++ b2 ++ b1 ++ b0

theorem exists_eq_wordOf (w : Word) : ∃ b3 b2 b1 b0, w = wordOf b3 b2 b1 b0 := by
  have h24 : w.extractLsb' 24 8 ++ w.extractLsb' 16 8 = w.extractLsb' 16 16 :=
    BitVec.extractLsb'_append_extractLsb'_eq_extractLsb' (by decide)
  have h16 : w.extractLsb' 16 16 ++ w.extractLsb' 8 8 = w.extractLsb' 8 24 :=
    BitVec.extractLsb'_append_extractLsb'_eq_extractLsb' (by decide)
  refine ⟨w.extractLsb' 24 8, w.extractLsb' 16 8, w.extractLsb' 8 8, w.extractLsb' 0 8, ?_⟩
  rw [wordOf, h24, h16]
  exact (BitVec.extractLsb'_append_extractLsb' (w := 24) (len := 8)).symm

@[simp] theorem opField_wordOf (b3 b2 b1 b0 : Byte) : opField (wordOf b3 b2 b1 b0) = b0 :=
  BitVec.extractLsb'_append_eq_right

@[simp] theorem dataField_wordOf (b3 b2 b1 b0 : Byte) : dataField (wordOf b3 b2 b1 b0) = b1 :=
  (BitVec.extractLsb'_append_eq_of_le (by decide)).trans BitVec.extractLsb'_append_eq_right

@[simp] theorem typeField_wordOf (b3 b2 b1 b0 : Byte) : typeField (wordOf b3 b2 b1 b0) = b1 :=
  dataField_wordOf b3 b2 b1 b0

@[simp] theorem idField_wordOf (b3 b2 b1 b0 : Byte) : idField (wordOf b3 b2 b1 b0) = b2 :=
  (BitVec.extractLsb'_append_eq_of_le (by decide)).trans
    ((BitVec.extractLsb'_append_eq_of_le (by decide)).trans BitVec.extractLsb'_append_eq_right)

theorem extractLsb'_8_24_wordOf (b3 b2 b1 b0 : Byte) : (wordOf b3 b2 b1 b0).extractLsb' 8 24 = b3 ++ b2 ++ b1 :=
  BitVec.extractLsb'_append_eq_left

@[simp] theorem countField_wordOf (b3 b2 b1 b0 : Byte) : countField (wordOf b3 b2 b1 b0) = pair b3 b2 :=
  (BitVec.extractLsb'_append_eq_of_le (by decide)).trans BitVec.extractLsb'_append_eq_left

theorem extractLsb'_24_8_wordOf (b3 b2 b1 b0 : Byte) : (wordOf b3 b2 b1 b0).extractLsb' 24 8 = b3 :=
  (BitVec.extractLsb'_append_eq_of_le (by decide)).trans
    ((BitVec.extractLsb'_append_eq_of_le (by decide)).trans BitVec.extractLsb'_append_eq_left)

theorem append_eq_append_iff {m n : Nat} (a c : BitVec m) (b d : BitVec n) : a ++ b = c ++ d ↔ a = c ∧ b = d := by
  constructor
  · intro h
    have hl := congrArg (BitVec.extractLsb' n m) h
    have hr := congrArg (BitVec.extractLsb' 0 n) h
    simp only [BitVec.extractLsb'_append_eq_left, BitVec.extractLsb'_append_eq_right] at hl hr
    exact ⟨hl, hr⟩
  · rintro ⟨rfl, rfl⟩
    rfl

theorem wordOf_eq_wordOf_iff (a3 a2 a1 a0 b3 b2 b1 b0 : Byte) :
    wordOf a3 a2 a1 a0 = wordOf b3 b2 b1 b0 ↔ a3 = b3 ∧ a2 = b2 ∧ a1 = b1 ∧ a0 = b0 := by
  calc wordOf a3 a2 a1 a0 = wordOf b3 b2 b1 b0
      ↔ a3 ++ a2 ++ a1 = b3 ++ b2 ++ b1 ∧ a0 = b0 := append_eq_append_iff _ _ _ _
    _ ↔ a3 = b3 ∧ a2 = b2 ∧ a1 = b1 ∧ a0 = b0 := by simp only [append_eq_append_iff, and_assoc]

theorem wordOf_and_wordOf (a3 a2 a1 a0 b3 b2 b1 b0 : Byte) :
    wordOf a3 a2 a1 a0 &&& wordOf b3 b2 b1 b0 = wordOf (a3 &&& b3) (a2 &&& b2) (a1 &&& b1) (a0 &&& b0) := by
  calc wordOf a3 a2 a1 a0 &&& wordOf b3 b2 b1 b0
      = ((a3 ++ a2 ++ a1) &&& (b3 ++ b2 ++ b1)) ++ (a0 &&& b0) := BitVec.and_append
    _ = wordOf (a3 &&& b3) (a2 &&& b2) (a1 &&& b1) (a0 &&& b0) := by simp only [BitVec.and_append, wordOf]

end Sys2Proof
end

section
/-! The opcodes (spec/30_encoding.md R74), and the word of each command by its bytes (R79's table). -/

namespace Sys2Proof

open Machine (pair hiByte loByte)
open Laws.EncodedForm (opcode)

/-- The OP of each opcode (R74). -/
def opByte : Opcode → Byte
  | .crcInit => 0x01#8
  | .crcByte => 0x02#8
  | .trlGen => 0x03#8
  | .trlChk => 0x04#8
  | .pktEnc => 0x05#8
  | .pktDec => 0x06#8

theorem opcodeOf_eq_some_iff (b : Byte) (op : Opcode) : opcodeOf b = some op ↔ b = opByte op := by
  revert b
  cases op <;> decide

theorem opcodeOf_eq_none_iff (b : Byte) : opcodeOf b = none ↔ b = 0x00#8 ∨ 7 ≤ b.toNat := by
  revert b
  decide

theorem opcode_commandOf (op : Opcode) (w : Word) : opcode (commandOf op w) = op := by
  cases op <;> rfl

theorem exists_opcode_iff {P : Opcode → Prop} :
    (∃ op, P op) ↔ P .crcInit ∨ P .crcByte ∨ P .trlGen ∨ P .trlChk ∨ P .pktEnc ∨ P .pktDec := by
  constructor
  · rintro ⟨op, h⟩
    cases op <;> simp only [h, true_or, or_true]
  · rintro (h | h | h | h | h | h) <;> exact ⟨_, h⟩

/-- The bytes of a word at their places. -/
theorem wordOf_eq_or (b3 b2 b1 b0 : Byte) :
    wordOf b3 b2 b1 b0 =
      b3.setWidth 32 <<< 24 ||| b2.setWidth 32 <<< 16 ||| b1.setWidth 32 <<< 8 ||| b0.setWidth 32 :=
  (BitVec.setWidth_eq _).symm.trans BitVec.setWidth_append_append_append_eq_shiftLeft_setWidth_or

/-- A COUNT at its place. -/
theorem setWidth_shiftLeft_eq_or (k : Half) :
    (k.setWidth 32 : Word) <<< 16 = (hiByte k).setWidth 32 <<< 24 ||| (loByte k).setWidth 32 <<< 16 := by
  have h : (BitVec.setWidth 32 (pair (hiByte k) (loByte k)) : Word) =
      (hiByte k).setWidth 32 <<< 8 ||| (loByte k).setWidth 32 := BitVec.setWidth_append_eq_shiftLeft_setWidth_or
  rw [Machine.pair_hiByte_loByte] at h
  rw [h, BitVec.shiftLeft_or_distrib, ← BitVec.shiftLeft_add]

theorem encode_crcByte (b : Byte) : encode (.crcByte b) = wordOf 0x00#8 0x00#8 b 0x02#8 := by
  simp [encode, wordOf_eq_or]

theorem encode_trlGen (k : Half) : encode (.trlGen k) = wordOf (hiByte k) (loByte k) 0x00#8 0x03#8 := by
  simp [encode, wordOf_eq_or, setWidth_shiftLeft_eq_or]

theorem encode_trlChk (k : Half) : encode (.trlChk k) = wordOf (hiByte k) (loByte k) 0x00#8 0x04#8 := by
  simp [encode, wordOf_eq_or, setWidth_shiftLeft_eq_or]

theorem encode_pktEnc (t d : Byte) : encode (.pktEnc t d) = wordOf 0x00#8 d t 0x05#8 := by
  simp [encode, wordOf_eq_or]

theorem encode_pktDec (t d : Byte) : encode (.pktDec t d) = wordOf 0x00#8 d t 0x06#8 := by
  simp [encode, wordOf_eq_or]

/-- The fields of a command's word are its operands. -/
theorem commandOf_encode (i : Instr) : commandOf (opcode i) (encode i) = i := by
  cases i with
  | crcInit => rfl
  | crcByte b => simp [opcode, commandOf, encode_crcByte]
  | trlGen k => simp [opcode, commandOf, encode_trlGen]
  | trlChk k => simp [opcode, commandOf, encode_trlChk]
  | pktEnc t d => simp [opcode, commandOf, encode_pktEnc]
  | pktDec t d => simp [opcode, commandOf, encode_pktDec]

end Sys2Proof
end

section
/-! The reserved bits of each format (spec/30_encoding.md R71), by bytes and as one slice, and the rows of R74. -/

namespace Sys2Proof

@[simp] theorem byte_and_0xFF (b : Byte) : b &&& 0xFF#8 = b := BitVec.and_allOnes

theorem wordOf_eq_zero_iff (b3 b2 b1 b0 : Byte) :
    wordOf b3 b2 b1 b0 = 0#32 ↔ b3 = 0#8 ∧ b2 = 0#8 ∧ b1 = 0#8 ∧ b0 = 0#8 :=
  wordOf_eq_wordOf_iff b3 b2 b1 b0 0#8 0#8 0#8 0#8

theorem wordOf_and_reservedBits_n (b3 b2 b1 b0 : Byte) :
    wordOf b3 b2 b1 b0 &&& reservedBits .n = 0#32 ↔ b3 = 0#8 ∧ b2 = 0#8 ∧ b1 = 0#8 := by
  rw [show reservedBits .n = wordOf 0xFF#8 0xFF#8 0xFF#8 0x00#8 from rfl, wordOf_and_wordOf, wordOf_eq_zero_iff]
  simp

theorem wordOf_and_reservedBits_b (b3 b2 b1 b0 : Byte) :
    wordOf b3 b2 b1 b0 &&& reservedBits .b = 0#32 ↔ b3 = 0#8 ∧ b2 = 0#8 := by
  rw [show reservedBits .b = wordOf 0xFF#8 0xFF#8 0x00#8 0x00#8 from rfl, wordOf_and_wordOf, wordOf_eq_zero_iff]
  simp

theorem wordOf_and_reservedBits_k (b3 b2 b1 b0 : Byte) :
    wordOf b3 b2 b1 b0 &&& reservedBits .k = 0#32 ↔ b1 = 0#8 := by
  rw [show reservedBits .k = wordOf 0x00#8 0x00#8 0xFF#8 0x00#8 from rfl, wordOf_and_wordOf, wordOf_eq_zero_iff]
  simp

theorem wordOf_and_reservedBits_p (b3 b2 b1 b0 : Byte) :
    wordOf b3 b2 b1 b0 &&& reservedBits .p = 0#32 ↔ b3 = 0#8 := by
  rw [show reservedBits .p = wordOf 0xFF#8 0x00#8 0x00#8 0x00#8 from rfl, wordOf_and_wordOf, wordOf_eq_zero_iff]
  simp

/-! The same bits as one slice of the word. -/

theorem and_reservedBits_n (w : Word) : w &&& reservedBits .n = 0#32 ↔ w.extractLsb' 8 24 = 0#24 := by
  obtain ⟨b3, b2, b1, b0, rfl⟩ := exists_eq_wordOf w
  rw [wordOf_and_reservedBits_n, extractLsb'_8_24_wordOf]
  calc b3 = 0#8 ∧ b2 = 0#8 ∧ b1 = 0#8 ↔ b3 ++ b2 = 0#8 ++ 0#8 ∧ b1 = 0#8 := by rw [append_eq_append_iff, and_assoc]
    _ ↔ b3 ++ b2 ++ b1 = 0#24 := (append_eq_append_iff (b3 ++ b2) (0#8 ++ 0#8) b1 0#8).symm

theorem and_reservedBits_b (w : Word) : w &&& reservedBits .b = 0#32 ↔ w.extractLsb' 16 16 = 0#16 := by
  obtain ⟨b3, b2, b1, b0, rfl⟩ := exists_eq_wordOf w
  rw [wordOf_and_reservedBits_b]
  change _ ↔ countField (wordOf b3 b2 b1 b0) = 0#16
  rw [countField_wordOf]
  exact (append_eq_append_iff b3 0#8 b2 0#8).symm

theorem and_reservedBits_k (w : Word) : w &&& reservedBits .k = 0#32 ↔ w.extractLsb' 8 8 = 0#8 := by
  obtain ⟨b3, b2, b1, b0, rfl⟩ := exists_eq_wordOf w
  rw [wordOf_and_reservedBits_k]
  change _ ↔ dataField (wordOf b3 b2 b1 b0) = 0#8
  rw [dataField_wordOf]

theorem and_reservedBits_p (w : Word) : w &&& reservedBits .p = 0#32 ↔ w.extractLsb' 24 8 = 0#8 := by
  obtain ⟨b3, b2, b1, b0, rfl⟩ := exists_eq_wordOf w
  rw [wordOf_and_reservedBits_p, extractLsb'_24_8_wordOf]

/-- No bit of a legal word is outside its opcode and its fields. -/
theorem encode_commandOf (op : Opcode) (w : Word) (hop : opField w = opByte op)
    (hres : w &&& reservedBits (formatOf op) = 0#32) : encode (commandOf op w) = w := by
  obtain ⟨b3, b2, b1, b0, rfl⟩ := exists_eq_wordOf w
  rw [opField_wordOf] at hop
  subst hop
  cases op with
  | crcInit =>
    obtain ⟨rfl, rfl, rfl⟩ := (wordOf_and_reservedBits_n ..).1 hres
    rfl
  | crcByte =>
    obtain ⟨rfl, rfl⟩ := (wordOf_and_reservedBits_b ..).1 hres
    simp [commandOf, encode_crcByte, opByte]
  | trlGen =>
    obtain rfl := (wordOf_and_reservedBits_k ..).1 hres
    simp [commandOf, encode_trlGen, opByte]
  | trlChk =>
    obtain rfl := (wordOf_and_reservedBits_k ..).1 hres
    simp [commandOf, encode_trlChk, opByte]
  | pktEnc =>
    obtain rfl := (wordOf_and_reservedBits_p ..).1 hres
    simp [commandOf, encode_pktEnc, opByte]
  | pktDec =>
    obtain rfl := (wordOf_and_reservedBits_p ..).1 hres
    simp [commandOf, encode_pktDec, opByte]

/-- A mask of all of OP and some reserved bits: the match says OP and that those bits are 0. -/
theorem and_rowMask_eq_iff (w : Word) (r3 r2 r1 op : Byte) :
    w &&& wordOf r3 r2 r1 0xFF#8 = wordOf 0x00#8 0x00#8 0x00#8 op ↔
      opField w = op ∧ w &&& wordOf r3 r2 r1 0x00#8 = 0#32 := by
  obtain ⟨b3, b2, b1, b0, rfl⟩ := exists_eq_wordOf w
  rw [wordOf_and_wordOf, wordOf_and_wordOf, wordOf_eq_wordOf_iff, wordOf_eq_zero_iff]
  simp only [opField_wordOf, byte_and_0xFF, BitVec.and_zero]
  tauto

/-- R74: each row of the opcode map. -/
theorem opcodeRows_match_iff (r : OpcodeRow) (hr : r ∈ opcodeRows) (w : Word) :
    w &&& r.mask = r.pattern ↔ opField w = opByte r.opcode ∧ w &&& reservedBits (formatOf r.opcode) = 0#32 := by
  simp only [opcodeRows, List.mem_cons, List.not_mem_nil, or_false] at hr
  obtain rfl | rfl | rfl | rfl | rfl | rfl := hr
  · exact and_rowMask_eq_iff w 0xFF#8 0xFF#8 0xFF#8 0x01#8
  · exact and_rowMask_eq_iff w 0xFF#8 0xFF#8 0x00#8 0x02#8
  · exact and_rowMask_eq_iff w 0x00#8 0x00#8 0xFF#8 0x03#8
  · exact and_rowMask_eq_iff w 0x00#8 0x00#8 0xFF#8 0x04#8
  · exact and_rowMask_eq_iff w 0xFF#8 0x00#8 0x00#8 0x05#8
  · exact and_rowMask_eq_iff w 0xFF#8 0x00#8 0x00#8 0x06#8

end Sys2Proof
end

section
/-! Which words decode to what (spec/30_encoding.md R70, R74, R77, R78). -/

namespace Sys2Proof

open Laws.EncodedForm (opcode)

/-- All that `decode` can answer (R70). -/
theorem decode_cases (w : Word) :
    (opcodeOf (opField w) = none ∧ decode w = .rejected .eOpc) ∨
    (∃ op, opField w = opByte op ∧ w &&& reservedBits (formatOf op) ≠ 0#32 ∧ decode w = .rejected .eRsv) ∨
    (∃ op, opField w = opByte op ∧ w &&& reservedBits (formatOf op) = 0#32 ∧
      decode w = .command (commandOf op w)) := by
  cases hop : opcodeOf (opField w) with
  | none => exact .inl ⟨rfl, by rw [decode, hop]⟩
  | some op =>
    have hbyte := (opcodeOf_eq_some_iff _ _).1 hop
    by_cases hres : w &&& reservedBits (formatOf op) = 0#32
    · exact .inr (.inr ⟨op, hbyte, hres, by simp only [decode, hop, if_pos hres]⟩)
    · exact .inr (.inl ⟨op, hbyte, hres, by simp only [decode, hop, if_neg hres]⟩)

theorem decode_eq_eOpc_iff (w : Word) : decode w = .rejected .eOpc ↔ opcodeOf (opField w) = none := by
  constructor
  · intro h
    obtain ⟨hop, -⟩ | ⟨op, -, -, hd⟩ | ⟨op, -, -, hd⟩ := decode_cases w
    · exact hop
    all_goals rw [hd] at h; cases h
  · intro hop
    rw [decode, hop]

theorem decode_eq_eRsv_iff (w : Word) :
    decode w = .rejected .eRsv ↔ ∃ op, opField w = opByte op ∧ w &&& reservedBits (formatOf op) ≠ 0#32 := by
  constructor
  · intro h
    obtain ⟨-, hd⟩ | ⟨op, hop, hres, -⟩ | ⟨op, -, -, hd⟩ := decode_cases w
    · rw [hd] at h; cases h
    · exact ⟨op, hop, hres⟩
    · rw [hd] at h; cases h
  · rintro ⟨op, hop, hres⟩
    simp only [decode, (opcodeOf_eq_some_iff _ _).2 hop, if_neg hres]

theorem decode_eq_command_iff (w : Word) (i : Instr) :
    decode w = .command i ↔
      opField w = opByte (opcode i) ∧ w &&& reservedBits (formatOf (opcode i)) = 0#32 ∧ commandOf (opcode i) w = i := by
  constructor
  · intro h
    obtain ⟨-, hd⟩ | ⟨op, -, -, hd⟩ | ⟨op, hop, hres, hd⟩ := decode_cases w
    · rw [hd] at h; cases h
    · rw [hd] at h; cases h
    · obtain rfl := Decoded.command.inj (hd.symm.trans h)
      rw [opcode_commandOf]
      exact ⟨hop, hres, rfl⟩
  · rintro ⟨hop, hres, hi⟩
    simp only [decode, (opcodeOf_eq_some_iff _ _).2 hop, if_pos hres, hi]

theorem unassignedOp_iff (w : Word) : Machine.UnassignedOp w ↔ decode w = .rejected .eOpc := by
  rw [decode_eq_eOpc_iff, opcodeOf_eq_none_iff]
  rfl

theorem reservedBitSet_iff (w : Word) : Machine.ReservedBitSet w ↔ decode w = .rejected .eRsv := by
  simp only [decode_eq_eRsv_iff, exists_opcode_iff, opByte, formatOf, ne_eq, and_reservedBits_n, and_reservedBits_b,
    and_reservedBits_k, and_reservedBits_p]
  rfl

/-- The word of a command has its opcode and no reserved bit. -/
theorem encodedForm (i : Instr) : Laws.EncodedForm.Statement i := by
  cases i with
  | crcInit => exact Laws.EncodedForm.crcInit
  | crcByte b => exact Laws.EncodedForm.crcByte b
  | trlGen k => exact Laws.EncodedForm.trlGen k
  | trlChk k => exact Laws.EncodedForm.trlChk k
  | pktEnc t d => exact Laws.EncodedForm.pktEnc t d
  | pktDec t d => exact Laws.EncodedForm.pktDec t d

theorem decode_encode (i : Instr) : decode (encode i) = .command i := by
  obtain ⟨-, hop, hres⟩ := encodedForm i
  exact (decode_eq_command_iff _ _).2 ⟨(opcodeOf_eq_some_iff _ _).1 hop, hres, commandOf_encode i⟩

theorem encode_of_decode {w : Word} {i : Instr} (h : decode w = .command i) : encode i = w := by
  obtain ⟨hop, hres, hi⟩ := (decode_eq_command_iff w i).1 h
  rw [← hi]
  exact encode_commandOf (opcode i) w hop hres

end Sys2Proof
end

section
/-! The obligations on the command word and its running (spec/30_encoding.md Part A). -/

namespace Sys2Proof.Machine

open Laws.EncodedForm (opcode)

theorem runCommandWord_of_rejected {w : Word} {c : CmdError} (s : State) (h : decode w = .rejected c) :
    runCommandWord w s = .next (s.raiseCmdError c w) := by
  rw [runCommandWord, h]

theorem runCommandWord_of_command {w : Word} {i : Instr} (s : State) (h : decode w = .command i) :
    runCommandWord w s = exec i s := by
  rw [runCommandWord, h]

/-- Settles O1: the word of a command has its opcode, no reserved bit, and its operands as its fields. -/
theorem decodeOfEncodeIsTheCommand : Obligations.DecodeOfEncodeIsTheCommand := by
  intro i
  obtain ⟨hwf, -, -⟩ := encodedForm i
  exact ⟨hwf, decode_encode i⟩

/-- Settles O2: a legal word is its opcode and its fields, every other bit being reserved. -/
theorem encodeOfDecodedWordIsTheWord : Obligations.EncodeOfDecodedWordIsTheWord := fun _ _ => encode_of_decode

/-- Settles O3: the operands of `commandOf` are the fields of the word. -/
theorem operandsAreTheBitSlicesOfTheWord : Obligations.OperandsAreTheBitSlicesOfTheWord := by
  simp only [Obligations.OperandsAreTheBitSlicesOfTheWord, decode_eq_command_iff, opcode, commandOf]
  refine ⟨?_, ?_, ?_, ?_, ?_, ?_⟩
  · rintro w ⟨hop, -, -⟩
    exact hop
  · rintro w _ ⟨hop, -, ⟨⟩⟩
    exact ⟨hop, rfl⟩
  · rintro w _ ⟨hop, -, ⟨⟩⟩
    exact ⟨hop, rfl⟩
  · rintro w _ ⟨hop, -, ⟨⟩⟩
    exact ⟨hop, rfl⟩
  · rintro w _ _ ⟨hop, -, ⟨⟩⟩
    exact ⟨hop, rfl, rfl⟩
  · rintro w _ _ ⟨hop, -, ⟨⟩⟩
    exact ⟨hop, rfl, rfl⟩

/-- Settles O4: a word is a command of an opcode exactly when it has that OP and no reserved bit, which is the match of
the opcode's row; the other words are rejected by their OP or by a reserved bit. -/
theorem legalWordsAreTheRowsOfTheOpcodeMap : Obligations.LegalWordsAreTheRowsOfTheOpcodeMap := by
  intro w
  have hrow (op : Opcode) (pattern mask : Word) (h : ⟨op, pattern, mask⟩ ∈ opcodeRows) :
      opField w = opByte op ∧ w &&& reservedBits (formatOf op) = 0#32 ↔ w &&& mask = pattern :=
    (opcodeRows_match_iff ⟨op, pattern, mask⟩ h w).symm
  simp only [decode_eq_command_iff, opcode, commandOf, Instr.crcByte.injEq, Instr.trlGen.injEq, Instr.trlChk.injEq,
    Instr.pktEnc.injEq, Instr.pktDec.injEq, exists_and_left, exists_eq', and_true]
  refine ⟨?crcInit, ?crcByte, ?trlGen, ?trlChk, ?pktEnc, ?pktDec, ?eOpc, ?eRsv⟩
  case crcInit => exact hrow .crcInit _ _ (by decide)
  case crcByte => exact hrow .crcByte _ _ (by decide)
  case trlGen => exact hrow .trlGen _ _ (by decide)
  case trlChk => exact hrow .trlChk _ _ (by decide)
  case pktEnc => exact hrow .pktEnc _ _ (by decide)
  case pktDec => exact hrow .pktDec _ _ (by decide)
  case eOpc => exact (unassignedOp_iff w).symm
  case eRsv => exact (reservedBitSet_iff w).symm

/-- Settles O5: an unassigned OP decodes to the rejection E_OPC, and a word with another OP decodes to its command or to
the rejection E_RSV. -/
theorem unassignedOpcodeRaisesEOpc : Obligations.UnassignedOpcodeRaisesEOpc := by
  constructor
  · intro w s h
    rw [runCommandWord_of_rejected s ((unassignedOp_iff w).1 h)]
    simp [State.raiseCmdError]
  · intro w
    obtain ⟨-, hd⟩ | ⟨op, -, -, hd⟩ | ⟨op, -, -, hd⟩ := decode_cases w
    · exact .inr (.inl hd)
    · exact .inr (.inr hd)
    · exact .inl ⟨commandOf op w, hd, encode_of_decode hd⟩

/-- Settles O6: such a word decodes to the rejection E_RSV. -/
theorem reservedBitRaisesERsv : Obligations.ReservedBitRaisesERsv := by
  intro w s h
  rw [runCommandWord_of_rejected s ((reservedBitSet_iff w).1 h)]
  simp [State.raiseCmdError]

/-- Settles O37: a write to CMD is served in every legal configuration, and runs the word's command. -/
theorem stepRunsTheDecodedCommand : Obligations.StepRunsTheDecodedCommand := by
  intro s w i rest hz hp hd
  calc step s = writeTarget (.reg .cmd) w (s.setPending rest) := step_writeReg s .cmd w rest hz hp
    _ = exec i { s with pending := rest } := runCommandWord_of_command _ hd

end Sys2Proof.Machine
end

section
/-! The assembler (spec/30_encoding.md Part A2, R79). -/

namespace Sys2Proof

/-- An operand in its range, put at its field's place. -/
theorem setWidth_ofNat_shiftLeft {n x : Nat} (hn : n ≤ 32) (hx : x < 2 ^ n) (k : Nat) :
    ((BitVec.ofNat n x).setWidth 32 : Word) <<< k = BitVec.ofNat 32 (x <<< k) := by
  rw [BitVec.setWidth_ofNat_of_le_of_lt hn hx]
  apply BitVec.eq_of_toNat_eq
  simp [Nat.shiftLeft_eq]

theorem encode_crcByte_ofNat {b : Nat} (h : b ≤ 255) :
    encode (.crcByte (BitVec.ofNat 8 b)) = BitVec.ofNat 32 ((b <<< 8) ||| 0x02) := by
  rw [encode, setWidth_ofNat_shiftLeft (by decide) (by omega), BitVec.ofNat_or]

theorem encode_trlGen_ofNat {k : Nat} (h : k ≤ 65535) :
    encode (.trlGen (BitVec.ofNat 16 k)) = BitVec.ofNat 32 ((k <<< 16) ||| 0x03) := by
  rw [encode, setWidth_ofNat_shiftLeft (by decide) (by omega), BitVec.ofNat_or]

theorem encode_trlChk_ofNat {k : Nat} (h : k ≤ 65535) :
    encode (.trlChk (BitVec.ofNat 16 k)) = BitVec.ofNat 32 ((k <<< 16) ||| 0x04) := by
  rw [encode, setWidth_ofNat_shiftLeft (by decide) (by omega), BitVec.ofNat_or]

theorem encode_pktEnc_ofNat {t i : Nat} (ht : t ≤ 255) (hi : i ≤ 255) :
    encode (.pktEnc (BitVec.ofNat 8 t) (BitVec.ofNat 8 i)) = BitVec.ofNat 32 ((i <<< 16) ||| (t <<< 8) ||| 0x05) := by
  rw [encode, setWidth_ofNat_shiftLeft (by decide) (by omega), setWidth_ofNat_shiftLeft (by decide) (by omega),
    BitVec.ofNat_or, BitVec.ofNat_or]

theorem encode_pktDec_ofNat {t i : Nat} (ht : t ≤ 255) (hi : i ≤ 255) :
    encode (.pktDec (BitVec.ofNat 8 t) (BitVec.ofNat 8 i)) = BitVec.ofNat 32 ((i <<< 16) ||| (t <<< 8) ||| 0x06) := by
  rw [encode, setWidth_ofNat_shiftLeft (by decide) (by omega), setWidth_ofNat_shiftLeft (by decide) (by omega),
    BitVec.ofNat_or, BitVec.ofNat_or]

/-- Settles O7: the guard of each line is its operands' ranges, and in range an operand's field is the operand. The raw
word's equation is `assemble`'s own. -/
theorem assemblerEmitsTheWordsOfItsSyntax : Obligations.AssemblerEmitsTheWordsOfItsSyntax := by
  unfold Obligations.AssemblerEmitsTheWordsOfItsSyntax
  simp only [assemble, AsmLine.wellFormed, Bool.and_eq_true, decide_eq_true_eq, implies_true, and_true]
  refine ⟨?crcInit, ?crcByte, ?trlGen, ?trlChk, ?pktEnc, ?pktDec⟩
  case crcInit => rfl
  case crcByte => exact fun b => ite_congr rfl (fun h => congrArg some (encode_crcByte_ofNat h)) fun _ => rfl
  case trlGen => exact fun k => ite_congr rfl (fun h => congrArg some (encode_trlGen_ofNat h)) fun _ => rfl
  case trlChk => exact fun k => ite_congr rfl (fun h => congrArg some (encode_trlChk_ofNat h)) fun _ => rfl
  case pktEnc => exact fun t i => ite_congr rfl (fun ⟨ht, hi⟩ => congrArg some (encode_pktEnc_ofNat ht hi)) fun _ => rfl
  case pktDec => exact fun t i => ite_congr rfl (fun ⟨ht, hi⟩ => congrArg some (encode_pktDec_ofNat ht hi)) fun _ => rfl

end Sys2Proof
end

section
/-! The algebra of the CRC step (spec/40_crc_engine.md R90 to R92, R96). -/

namespace Sys2Proof.Machine

theorem crc16_append (as bs : List Byte) : crc16 (as ++ bs) = bs.foldl crcStep (crc16 as) := List.foldl_append

theorem pair_eq_shiftLeft_xor (a b : Byte) : pair a b = (a.setWidth 16 : Half) <<< 8 ^^^ (b.setWidth 16 : Half) := by
  apply BitVec.eq_of_getLsbD_eq
  intro i hi
  rw [pair_getLsbD, BitVec.getLsbD_xor, BitVec.getLsbD_shiftLeft, BitVec.getLsbD_setWidth, BitVec.getLsbD_setWidth]
  by_cases h8 : i < 8
  · simp [h8, hi]
  · simp [h8, hi, show i - 8 < 16 by omega, BitVec.getLsbD_of_ge b i (by omega)]

/-- The bits that `<< 8` drops are the high byte's. -/
theorem pair_shiftLeft (a b : Byte) : (pair a b : Half) <<< 8 = (b.setWidth 16 : Half) <<< 8 := by
  apply BitVec.eq_of_getLsbD_eq
  intro i hi
  rw [BitVec.getLsbD_shiftLeft, BitVec.getLsbD_shiftLeft, BitVec.getLsbD_setWidth, pair_getLsbD]
  simp [show i - 8 < 8 by omega, show i - 8 < 16 by omega]

/-- The table form of the step is the bit-serial form (R92): the table holds eight rounds of the high byte, and eight
rounds of the low byte are a shift. -/
theorem crcStep_eq_crcRounds (c : Half) (b : Byte) :
    crcStep c b = crcRounds 8 (c ^^^ (b.setWidth 16 : Half) <<< 8) := by
  obtain ⟨x, y, rfl⟩ : ∃ x y, c = pair x y := ⟨hiByte c, loByte c, (pair_hiByte_loByte c).symm⟩
  have hindex : pair x y ^^^ (b.setWidth 16 : Half) <<< 8 =
      ((b ^^^ x).setWidth 16 : Half) <<< 8 ^^^ (y.setWidth 16 : Half) := by
    rw [pair_eq_shiftLeft_xor, BitVec.setWidth_xor, BitVec.shiftLeft_xor_distrib]
    ac_rfl
  calc crcStep (pair x y) b = tableEntry (b ^^^ hiByte (pair x y)) ^^^ pair x y <<< 8 := rfl
    _ = tableEntry (b ^^^ x) ^^^ crcRounds 8 (y.setWidth 16) := by rw [hiByte_pair, pair_shiftLeft, crcRounds_low]
    _ = crcRounds 8 (pair x y ^^^ (b.setWidth 16 : Half) <<< 8) := by rw [hindex, crcRounds_xor, tableEntry]

/-- Two bytes are folded in as one 16-bit value (R96's `(c xor T) * x^16`). -/
theorem crcStep_crcStep (c : Half) (a b : Byte) :
    crcStep (crcStep c a) b = crcRounds 8 (crcRounds 8 (c ^^^ pair a b)) := by
  rw [crcStep_eq_crcRounds, crcStep_eq_crcRounds, ← crcRounds_low b, ← crcRounds_xor, pair_eq_shiftLeft_xor,
    BitVec.xor_assoc]

/-- Rounds are injective and keep 0, so two bytes leave 0 only when they are the value they are folded into. -/
theorem crcStep_crcStep_eq_zero_iff (c : Half) (a b : Byte) :
    crcStep (crcStep c a) b = 0x0000#16 ↔ c = pair a b := by
  rw [crcStep_crcStep]
  constructor
  · exact fun h => BitVec.xor_eq_zero_iff.1 (crcRounds_eq_zero 8 _ (crcRounds_eq_zero 8 _ h))
  · rintro rfl
    rw [BitVec.xor_self, crcRounds_zero, crcRounds_zero]

theorem exists_eq_append_two {p : List Byte} (h : 2 ≤ p.length) : ∃ q a b, p = q ++ [a, b] := by
  have hlen : (p.drop (p.length - 2)).length = 2 := by rw [List.length_drop]; omega
  obtain ⟨a, b, hab⟩ := List.length_eq_two.1 hlen
  exact ⟨p.take (p.length - 2), a, b, by rw [← hab, List.take_append_drop]⟩

/-- Settles O12: the trailer's two bytes leave remainder 0 exactly when they are the CRC they are folded into. -/
theorem zeroRemainderIsTrailerMatch : Obligations.ZeroRemainderIsTrailerMatch := by
  intro p h
  obtain ⟨q, a, b, rfl⟩ := exists_eq_append_two h
  rw [crc16_append]
  simpa using crcStep_crcStep_eq_zero_iff (crc16 q) a b

/-- Settles O9: `crc16` is that fold, and a fold over an appended byte is one more step. -/
theorem crcAppliesTheStepToEachByte : Obligations.CrcAppliesTheStepToEachByte :=
  ⟨rfl, fun bs b => crc16_append bs [b], fun _ => rfl⟩

end Sys2Proof.Machine
end

section
/-! The byte-stream engine: CRC_INIT, CRC_BYTE and runs of them (spec/40_crc_engine.md R93, R94, R97). -/

namespace Sys2Proof.Machine

theorem runSteps_succ_of_next {s t : State} (n : Nat) (h : step s = .next t) : runSteps (n + 1) s = runSteps n t := by
  rw [runSteps, h]

/-- A host write of a command's own word runs the command. -/
theorem step_cmdWrite_encode (s : State) (i : Instr) (rest : List PortEvent) (hz : s.sizes.Legal)
    (hp : s.pending = cmdWrite (encode i) :: rest) : step s = exec i (s.setPending rest) :=
  stepRunsTheDecodedCommand s (encode i) i rest hz hp (decode_encode i)

/-- The fold is over the bytes the host wrote, from whatever CRC holds (R97). -/
theorem runSteps_crcBytesEvents (s : State) (bs : List Byte) (rest : List PortEvent) (hz : s.sizes.Legal)
    (hp : s.pending = crcBytesEvents bs ++ rest) :
    runSteps bs.length s = .next { s with crc := bs.foldl crcStep s.crc, pending := rest } := by
  induction bs generalizing s with
  | nil =>
    obtain rfl : s.pending = rest := hp
    rfl
  | cons b bs ih =>
    have hstep := step_cmdWrite_encode s (.crcByte b) (crcBytesEvents bs ++ rest) hz hp
    rw [List.length_cons, runSteps_succ_of_next _ hstep]
    exact ih _ hz rfl

theorem runSteps_crcSeqEvents (s : State) (bs : List Byte) (rest : List PortEvent) (hz : s.sizes.Legal)
    (hp : s.pending = crcSeqEvents bs ++ rest) :
    runSteps (bs.length + 1) s = .next { s with crc := crc16 bs, pending := rest } := by
  have hstep := step_cmdWrite_encode s .crcInit (crcBytesEvents bs ++ rest) hz hp
  rw [runSteps_succ_of_next _ hstep]
  exact runSteps_crcBytesEvents _ bs rest hz rfl

/-- Settles O13: each CRC_BYTE is one step of the machine and one step of the fold. -/
theorem crcByteRunFoldsTheBytes : Obligations.CrcByteRunFoldsTheBytes :=
  ⟨runSteps_crcBytesEvents, runSteps_crcSeqEvents, crc16_append, fun _ => rfl⟩

/-- `(c << 8) mod 2^16` (R90) as a number. -/
theorem shiftLeft_eight_eq_ofNat (c : Half) : c <<< 8 = BitVec.ofNat 16 (c.toNat * 256) := by
  apply BitVec.eq_of_toNat_eq
  rw [BitVec.toNat_shiftLeft, BitVec.toNat_ofNat, Nat.shiftLeft_eq]

theorem decode_eq_crcByte_of_and_mask {w : Word} (h : w &&& 0xFFFF00FF#32 = 0x00000002#32) :
    decode w = .command (.crcByte (w.extractLsb' 8 8)) := by
  obtain ⟨hop, hres⟩ := (opcodeRows_match_iff ⟨.crcByte, 0x00000002#32, 0xFFFF00FF#32⟩ (by decide) w).1 h
  exact (decode_eq_command_iff w _).2 ⟨hop, hres, rfl⟩

/-- Settles O19: `exec` is one step of the CRC with `c << 8` as a number; the words are the opcode map's row of
CRC_BYTE, and bits 31:16 are its format's reserved bits. -/
theorem crcByteFoldsOneByte : Obligations.CrcByteFoldsOneByte := by
  refine ⟨fun b s => ?_, fun w => decode_eq_crcByte_of_and_mask, fun w hop hbits => ?_⟩
  · rw [← shiftLeft_eight_eq_ofNat]
    exact execCrcByte_eq b s
  · exact (reservedBitSet_iff w).1 (.inr (.inl ⟨hop, hbits⟩))

/-- Settles O18: a command has one word, which for CRC_INIT is 0x00000001, and bits 31:8 are its format's reserved
bits. -/
theorem crcInitLoadsZero : Obligations.CrcInitLoadsZero := by
  refine ⟨execCrcInit_eq, fun w => ⟨fun h => (encode_of_decode h).symm, ?_⟩, fun w hop hbits => ?_⟩
  · rintro rfl
    exact decode_encode .crcInit
  · exact (reservedBitSet_iff w).1 (.inl ⟨hop, hbits⟩)

end Sys2Proof.Machine
end

section
/-! The trailer commands TRAILER_GEN and TRAILER_CHK (spec/41_trailer.md R105, R106). -/

namespace Sys2Proof

/-- A word that matches a row of the opcode map decodes to the row's command with the word's fields. -/
theorem decode_of_opcodeRow_match (r : OpcodeRow) (hr : r ∈ opcodeRows) {w : Word} (h : w &&& r.mask = r.pattern) :
    decode w = .command (commandOf r.opcode w) := by
  obtain ⟨hop, hres⟩ := (opcodeRows_match_iff r hr w).1 h
  rw [decode_eq_command_iff, opcode_commandOf]
  exact ⟨hop, hres, rfl⟩

end Sys2Proof

namespace Sys2Proof.Machine

theorem State.raiseCmdError_eRange (s : State) (w : Word) :
    s.raiseCmdError .eRange w = { s with errRange := true, errcmd := w } := by simp [State.raiseCmdError]

/-- The two bytes of the trailer are TX's only change (R105). -/
theorem trlGenResult_txByte (k : Half) (s : State) (j : Nat) :
    (trlGenResult k s).txByte j =
      if j = k.toNat then hiByte (trlGenResult k s).crc
      else if j = k.toNat + 1 then loByte (trlGenResult k s).crc else s.txByte j :=
  (State.txByte_congr rfl rfl j).trans (s.setTxBytes_be16_txByte k.toNat j (crc16 (s.txBytesFrom 0 k.toNat)))

theorem trlGenResult_eq (k : Half) (s : State) :
    trlGenResult k s = { s with tx := (trlGenResult k s).tx, crc := (trlGenResult k s).crc } :=
  congrArg (State.setCrc · (crc16 (s.txBytesFrom 0 k.toNat)))
    (s.setTxBytes_eq k.toNat (be16 (crc16 (s.txBytesFrom 0 k.toNat))))

/-- Settles O20: in range, `trlGenResult` writes the CRC as the two bytes of the trailer and into CRC, and nothing else;
the words are the opcode map's row of TRAILER_GEN, and bits 15:8 are its format's reserved bits. -/
theorem trailerGenAppendsTheCrc : Obligations.TrailerGenAppendsTheCrc := by
  refine ⟨fun k s hk => ?inRange, fun k s hk => ?outOfRange, fun w h => ?words, fun w hop hbits => ?reserved⟩
  case inRange =>
    refine ⟨trlGenResult k s, execTrlGen_inRange k s hk, rfl, ?high, ?low, fun i hhigh hlow => ?frame, fun i => ?rx,
      trlGenResult_eq k s⟩
    case high => exact (trlGenResult_txByte ..).trans (if_pos rfl)
    case low => exact (trlGenResult_txByte ..).trans ((if_neg (Nat.succ_ne_self _)).trans (if_pos rfl))
    case frame => rw [trlGenResult_txByte, if_neg hhigh, if_neg hlow]
    case rx => rw [trlGenResult_eq]; rfl
  case outOfRange =>
    rw [← State.raiseCmdError_eRange]
    exact execTrlGen_outOfRange k s (Nat.not_le.2 hk)
  case words => exact decode_of_opcodeRow_match ⟨.trlGen, 0x00000003#32, 0x0000FFFF#32⟩ (by decide) h
  case reserved => exact (reservedBitSet_iff w).1 (.inr (.inr (.inl ⟨hop, hbits⟩)))

/-- R96 for a sequence given with its trailer. -/
theorem crc16_append_two_eq_zero_iff (bs : List Byte) (a b : Byte) :
    crc16 (bs ++ [a, b]) = 0x0000#16 ↔ crc16 bs = pair a b := by
  rw [crc16_append]
  exact crcStep_crcStep_eq_zero_iff (crc16 bs) a b

theorem State.crc16_rxBytesFrom_add_two_eq_zero_iff (s : State) (a n : Nat) :
    crc16 (s.rxBytesFrom a (n + 2)) = 0x0000#16 ↔
      crc16 (s.rxBytesFrom a n) = pair (s.rxByte (a + n)) (s.rxByte (a + n + 1)) := by
  rw [State.rxBytesFrom_add]
  exact crc16_append_two_eq_zero_iff ..

/-- Settles O21: `trlChkResult` is the remainder in CRC and whether it is 0 in CHKOK; the remainder is 0 exactly when the
last two bytes are the value they are folded into. -/
theorem trailerChkReportsTheRemainder : Obligations.TrailerChkReportsTheRemainder := by
  refine ⟨fun k s hlow hhigh => execTrlChk_inRange k s ⟨hlow, hhigh⟩, fun k s hk => ?outOfRange, fun w h => ?words,
    fun w hop hbits => ?reserved, fun k s hk => ?zeroRemainder⟩
  case outOfRange =>
    rw [← State.raiseCmdError_eRange]
    exact execTrlChk_outOfRange k s (by omega)
  case words => exact decode_of_opcodeRow_match ⟨.trlChk, 0x00000004#32, 0x0000FFFF#32⟩ (by decide) h
  case reserved => exact (reservedBitSet_iff w).1 (.inr (.inr (.inr (.inl ⟨hop, hbits⟩))))
  case zeroRemainder =>
    obtain ⟨n, hn⟩ := Nat.exists_eq_add_of_le' hk
    rw [hn, State.crc16_rxBytesFrom_add_two_eq_zero_iff, Nat.zero_add, eq_comm]
    rfl

end Sys2Proof.Machine
end

section
/-! What ENCODE writes, byte by byte, and what it leaves (spec/42_framer.md R115). -/

namespace Sys2Proof.Machine

/-- The header and the id are TX's first four bytes. -/
theorem encodeHeader_txByte (ty id : Byte) (s : State) (j : Nat) :
    (encodeHeader ty id s).txByte j =
      if h : j < 4 then (packetHead ty id s.encodeCount)[j]'h else s.txByte j := by
  rw [encodeHeader, State.setTxBytes_txByte]
  simp [packetHead]

/-- The trailer's two bytes follow the data, and every other byte is as the header's writing left it. -/
theorem pktEncResult_txByte_eq_ite (ty id : Byte) (s : State) (j : Nat) :
    (pktEncResult ty id s).txByte j =
      if j = 4 + s.encodeCount then hiByte (encodeCrc ty id s)
      else if j = 4 + s.encodeCount + 1 then loByte (encodeCrc ty id s) else (encodeHeader ty id s).txByte j :=
  (pktEncResult_txByte ty id s j).trans (State.setTxBytes_be16_txByte ..)

theorem pktEncResult_txByte_of_lt (ty id : Byte) (s : State) (j : Nat) (hj : j < 4 + s.encodeCount) :
    (pktEncResult ty id s).txByte j = (encodeHeader ty id s).txByte j := by
  rw [pktEncResult_txByte_eq_ite, if_neg (by omega), if_neg (by omega)]

theorem pktEncResult_txByte_head (ty id : Byte) (s : State) (j : Nat) (hj : j < 4) :
    (pktEncResult ty id s).txByte j = (packetHead ty id s.encodeCount)[j]'hj := by
  rw [pktEncResult_txByte_of_lt ty id s j (by omega), encodeHeader_txByte, dif_pos hj]

theorem pktEncResult_txByte_data (ty id : Byte) (s : State) (j : Nat) (hlow : 4 ≤ j) (hhigh : j < 4 + s.encodeCount) :
    (pktEncResult ty id s).txByte j = s.txByte j := by
  rw [pktEncResult_txByte_of_lt ty id s j hhigh, encodeHeader_txByte, dif_neg (by omega)]

theorem pktEncResult_txByte_after (ty id : Byte) (s : State) (j : Nat) (hj : s.encodeCount + 6 ≤ j) :
    (pktEncResult ty id s).txByte j = s.txByte j := by
  rw [pktEncResult_txByte_eq_ite, if_neg (by omega), if_neg (by omega), encodeHeader_txByte, dif_neg (by omega)]

theorem pktEncResult_crc (ty id : Byte) (s : State) : (pktEncResult ty id s).crc = encodeCrc ty id s := rfl

theorem pktEncResult_txByte_trailerHigh (ty id : Byte) (s : State) :
    (pktEncResult ty id s).txByte (4 + s.encodeCount) = hiByte (pktEncResult ty id s).crc := by
  rw [pktEncResult_txByte_eq_ite, if_pos rfl, pktEncResult_crc]

theorem pktEncResult_txByte_trailerLow (ty id : Byte) (s : State) :
    (pktEncResult ty id s).txByte (5 + s.encodeCount) = loByte (pktEncResult ty id s).crc := by
  rw [pktEncResult_txByte_eq_ite, if_neg (by omega), if_pos (by omega), pktEncResult_crc]

/-- The trailer lies after the bytes that the CRC is over, so they still have that CRC. -/
theorem pktEncResult_crc_eq_crc16 (ty id : Byte) (s : State) :
    (pktEncResult ty id s).crc = crc16 ((pktEncResult ty id s).txBytesFrom 0 (4 + s.encodeCount)) := by
  rw [pktEncResult_crc, encodeCrc,
    State.txBytesFrom_congr 0 _ fun j _ hj => pktEncResult_txByte_of_lt ty id s j (by omega)]

theorem encodeHeader_eq (ty id : Byte) (s : State) :
    encodeHeader ty id s = { s with tx := (encodeHeader ty id s).tx } := State.setTxBytes_eq ..

theorem pktEncResult_eq (ty id : Byte) (s : State) :
    pktEncResult ty id s = { s with
      tx := (pktEncResult ty id s).tx
      crc := (pktEncResult ty id s).crc
      txlen := (pktEncResult ty id s).txlen } := by
  rw [pktEncResult, State.setTxBytes_eq, encodeHeader_eq]
  rfl

/-- Settles O23: in range, `pktEncResult` holds the head, the data and the trailer of the packet, and changes TX, CRC
and TXLEN only; the words are the opcode map's row of ENCODE, and bits 31:24 are its format's reserved bits. -/
theorem encodeFramesThePacket : Obligations.EncodeFramesThePacket := by
  refine ⟨fun ty id s hz hn => ?inRange, fun ty id s hn => ?outOfRange, fun w h => ?words, fun w hop hbits => ?reserved⟩
  case inRange =>
    have hhead := pktEncResult_txByte_head ty id s
    have hexec := execPktEnc_inRange ty id s hn
    have hframe := exec_frame (.pktEnc ty id) s _ hexec
    exact ⟨pktEncResult ty id s, hexec, hhead 0 (by decide), hhead 1 (by decide), hhead 2 (by decide),
      hhead 3 (by decide), pktEncResult_crc_eq_crc16 ty id s,
      pktEncResult_txByte_trailerHigh ty id s, pktEncResult_txByte_trailerLow ty id s, pktEncResult_txlen ty id s hz hn,
      pktEncResult_txByte_data ty id s, pktEncResult_txByte_after ty id s, State.rxByte_congr hframe.rx hframe.resets,
      pktEncResult_eq ty id s⟩
  case outOfRange =>
    rw [← State.raiseCmdError_eRange]
    exact execPktEnc_outOfRange ty id s (Nat.not_le.2 hn)
  case words => exact decode_of_opcodeRow_match ⟨.pktEnc, 0x00000005#32, 0xFF0000FF#32⟩ (by decide) h
  case reserved => exact (reservedBitSet_iff w).1 (.inr (.inr (.inr (.inr (.inl ⟨hop, hbits⟩)))))

end Sys2Proof.Machine
end

section
/-! The host sequence of Encode, step by step (spec/42_framer.md R117). -/

namespace Sys2Proof.Machine

/-- Two runs in a row. -/
theorem runSteps_add_of_next {s t : State} (m n : Nat) (h : runSteps m s = .next t) :
    runSteps (m + n) s = runSteps n t := by
  induction m generalizing s with
  | zero =>
    obtain rfl : s = t := Host.Outcome.next.inj h
    rw [Nat.zero_add]
  | succ m ih =>
    rw [runSteps] at h
    rw [Nat.succ_add, runSteps]
    cases hs : step s with
    | next u => rw [hs] at h; exact ih h
    | fault f => rw [hs] at h; cases h
    | refused r => rw [hs] at h; cases h

/-- `tx.fill` in the queue: one step per byte, and only the filled bytes of TX change. -/
theorem runSteps_txFillEvents (s : State) (j : Nat) (bs : List Byte) (rest : List PortEvent) (hz : s.sizes.Legal)
    (h : j + bs.length ≤ s.sizes.txBytes) (hp : s.pending = txFillEvents j bs ++ rest) :
    ∃ t, runSteps bs.length s = .next t ∧ t.txBytesFrom j bs.length = bs ∧
      (∀ i, i < j ∨ j + bs.length ≤ i → t.txByte i = s.txByte i) ∧ t = { s with pending := rest, tx := t.tx } := by
  induction bs generalizing s j with
  | nil =>
    obtain rfl : s.pending = rest := hp
    exact ⟨s, rfl, rfl, fun _ _ => rfl, rfl⟩
  | cons b bs ih =>
    rw [List.length_cons] at h ⊢
    obtain ⟨u, hstep, hbyte, hother, hu⟩ :=
      step_writeTx s j (b.setWidth 32) (txFillEvents (j + 1) bs ++ rest) hz (by omega) hp
    have hsizes : u.sizes = s.sizes := by rw [hu]
    obtain ⟨t, hrun, hdata, hframe, ht⟩ := ih u (j + 1) (hsizes ▸ hz) (by rw [hsizes]; omega) (by rw [hu])
    refine ⟨t, (runSteps_succ_of_next _ hstep).trans hrun, ?_, fun i hi => ?_, by rw [ht, hu]⟩
    · rw [State.txBytesFrom, hdata, hframe j (.inl (by omega)), hbyte, extractLsb'_zeroExtended_byte]
    · rw [hframe i (by omega), hother i (by omega)]

/-- The end of the host sequence, with the data in place: a write of its length to TXPLEN, and ENCODE. -/
theorem runSteps_txplen_pktEnc (s : State) (ty id : Byte) (n : Nat) (rest : List PortEvent) (hz : s.sizes.Legal)
    (hn : n + 6 ≤ s.sizes.txBytes)
    (hp : s.pending = [wr (regOffset .txplen) (BitVec.ofNat 32 n), cmdWrite (encode (.pktEnc ty id))] ++ rest) :
    ∃ u, u = { s with txplen := u.txplen, pending := rest } ∧ u.encodeCount = n ∧
      runSteps 2 s = .next (pktEncResult ty id u) := by
  have htx : s.sizes.txBytes ≤ 16384 := hz.2.1
  have hcount := toNat_extractLsb'_ofNat n (by omega)
  have hlength := step_writeReg s .txplen (BitVec.ofNat 32 n) (cmdWrite (encode (.pktEnc ty id)) :: rest) hz hp
  have hencode := step_cmdWrite_encode
    ((s.setPending (cmdWrite (encode (.pktEnc ty id)) :: rest)).setTxplen ((BitVec.ofNat 32 n).extractLsb' 0 16))
    (.pktEnc ty id) rest hz rfl
  refine ⟨(s.setPending rest).setTxplen ((BitVec.ofNat 32 n).extractLsb' 0 16), rfl, hcount, ?_⟩
  have hexec := execPktEnc_inRange ty id ((s.setPending rest).setTxplen ((BitVec.ofNat 32 n).extractLsb' 0 16))
    (by rwa [State.encodeCount, State.setTxplen_txplen, hcount])
  exact (runSteps_succ_of_next 1 hlength).trans (runSteps_succ_of_next 0 (hencode.trans hexec))

/-- Settles O55: `tx.fill` puts the data from TX[4], the length goes to TXPLEN, and ENCODE, which is then in range,
leaves the packet of TXPLEN's data. -/
theorem encodeRecipeBuildsThePacket : Obligations.EncodeRecipeBuildsThePacket := by
  intro s ty id data rest hz hfit hp
  rw [pktFrameEvents, List.append_assoc] at hp
  obtain ⟨f, hfill, hdata, -, hf⟩ := runSteps_txFillEvents s 4 data _ hz (by omega) hp
  have hfsizes : f.sizes = s.sizes := by rw [hf]
  obtain ⟨u, hu, hcount, hencode⟩ :=
    runSteps_txplen_pktEnc f ty id data.length rest (hfsizes ▸ hz) (by rwa [hfsizes]) (by rw [hf])
  have husizes : u.sizes = s.sizes := by rw [hu, hfsizes]
  have hudata : u.txBytesFrom 4 u.encodeCount = data := by
    rw [hcount, State.txBytesFrom_congr (s := f) 4 _ fun j _ _ => by rw [hu]; rfl, hdata]
  have hlen := pktEncResult_txlen ty id u (husizes ▸ hz) (by rwa [husizes, hcount])
  refine ⟨pktEncResult ty id u, (runSteps_add_of_next _ 2 hfill).trans hencode, ?pending, ?txplen, ?txlen, ?packet⟩
  case pending => rw [pktEncResult_eq, hu]
  case txplen => rw [pktEncResult_eq]; exact hcount
  case txlen => rw [hlen, hcount]
  case packet => rw [hlen, pktEncResult_txBytesFrom, hudata]

end Sys2Proof.Machine
end

section
/-! DECODE's verdict, path by path (spec/43_deframer.md R125 to R130). -/

namespace Sys2Proof.Machine

theorem remainderVerdict_zero (l : Half) :
    remainderVerdict l 0x0000#16 =
      { eflag := .none, lenbad := false, dlen := l - 3#16, remainder := some 0x0000#16 } := if_pos rfl

theorem remainderVerdict_of_ne_zero (l : Half) {c : Half} (hc : c ≠ 0x0000#16) :
    remainderVerdict l c = { eflag := .checksumError, lenbad := false, dlen := 0#16, remainder := some c } := if_neg hc

/-- The checksum step keeps its remainder, whatever it reports. -/
theorem remainderVerdict_remainder (l c : Half) : (remainderVerdict l c).remainder = some c := by
  by_cases hc : c = 0x0000#16
  · rw [hc, remainderVerdict_zero]
  · rw [remainderVerdict_of_ne_zero l hc]

theorem remainderVerdict_eflag (l c : Half) :
    (remainderVerdict l c).eflag = if c = 0x0000#16 then .none else .checksumError := by
  by_cases hc : c = 0x0000#16
  · rw [hc, remainderVerdict_zero, if_pos rfl]
  · rw [remainderVerdict_of_ne_zero l hc, if_neg hc]

theorem remainderVerdict_eflag_eq_none_iff (l c : Half) : (remainderVerdict l c).eflag = .none ↔ c = 0x0000#16 := by
  rw [remainderVerdict_eflag]
  simp

theorem remainderVerdict_eflag_eq_none_or_checksumError (l c : Half) :
    (remainderVerdict l c).eflag = .none ∨ (remainderVerdict l c).eflag = .checksumError := by
  rw [remainderVerdict_eflag]
  exact ite_eq_or_eq ..

variable {ty id : Byte} {s : State}

theorem decodeVerdict_of_mismatch (h : s.rxByte 0 ≠ ty ∨ s.rxByte 3 ≠ id) :
    decodeVerdict ty id s = { eflag := .communicationError, lenbad := false, dlen := 0#16, remainder := none } :=
  if_pos h

theorem decodeVerdict_of_badLength (hty : s.rxByte 0 = ty) (hid : s.rxByte 3 = id)
    (hl : ¬ lengthInRange s.sizes s.declaredLength) :
    decodeVerdict ty id s = { eflag := .checksumError, lenbad := true, dlen := 0#16, remainder := none } := by
  rw [decodeVerdict, if_neg (not_or.2 ⟨not_not.2 hty, not_not.2 hid⟩), if_neg hl]

theorem decodeVerdict_of_lengthInRange (hty : s.rxByte 0 = ty) (hid : s.rxByte 3 = id)
    (hl : lengthInRange s.sizes s.declaredLength) :
    decodeVerdict ty id s =
      remainderVerdict s.declaredLength (crc16 (s.rxBytesFrom 0 (s.declaredLength.toNat + 3))) := by
  rw [decodeVerdict, if_neg (not_or.2 ⟨not_not.2 hty, not_not.2 hid⟩), if_pos hl]

/-- All that EFLAG can be after DECODE. -/
theorem decodeVerdict_eflag_cases (ty id : Byte) (s : State) :
    ((s.rxByte 0 ≠ ty ∨ s.rxByte 3 ≠ id) ∧ (decodeVerdict ty id s).eflag = .communicationError) ∨
    (s.rxByte 0 = ty ∧ s.rxByte 3 = id ∧
      ((decodeVerdict ty id s).eflag = .none ∨ (decodeVerdict ty id s).eflag = .checksumError)) := by
  by_cases h : s.rxByte 0 ≠ ty ∨ s.rxByte 3 ≠ id
  · exact .inl ⟨h, by rw [decodeVerdict_of_mismatch h]⟩
  · obtain ⟨hty, hid⟩ : s.rxByte 0 = ty ∧ s.rxByte 3 = id := by simpa using h
    refine .inr ⟨hty, hid, ?_⟩
    by_cases hl : lengthInRange s.sizes s.declaredLength
    · rw [decodeVerdict_of_lengthInRange hty hid hl]
      exact remainderVerdict_eflag_eq_none_or_checksumError ..
    · exact .inr (by rw [decodeVerdict_of_badLength hty hid hl])

/-- The next state of DECODE, for a verdict already known: RXDECL is the declared length on every path. -/
theorem exec_pktDec_of_verdict {v : Verdict} (h : decodeVerdict ty id s = v) :
    exec (.pktDec ty id) s = .next { s with
      rxdecl := s.declaredLength, eflag := v.eflag, lenbad := v.lenbad, rxdlen := v.dlen,
      crc := v.remainder.getD s.crc } := by
  subst h
  rfl

/-- RXDLEN of a length that is not below 3: the subtraction does not wrap (R129). -/
theorem sub_three_eq_ofNat {l : Half} (h : 3 ≤ l.toNat) : l - 3#16 = BitVec.ofNat 16 (l.toNat - 3) := by
  rw [← BitVec.ofNat_sub_ofNat_of_le l.toNat 3 (by decide) h, BitVec.ofNat_toNat, BitVec.setWidth_eq]

end Sys2Proof.Machine
end

section
/-! The obligations on DECODE (spec/43_deframer.md). -/

namespace Sys2Proof.Machine

/-- Settles O25: each path has its verdict, and a verdict is the whole of what DECODE writes but RXDECL; the words are
the opcode map's row of DECODE, and bits 31:24 are its format's reserved bits. -/
theorem decodeReportsTheVerdict : Obligations.DecodeReportsTheVerdict := by
  refine ⟨fun ty id s h => ?mismatch, ?badLength, ?remainder, ?success, fun w h => ?words, fun w hop hbits => ?reserved⟩
  case mismatch => exact exec_pktDec_of_verdict (decodeVerdict_of_mismatch h)
  case badLength =>
    rintro ty id s l rfl hty hid hl
    exact exec_pktDec_of_verdict (decodeVerdict_of_badLength hty hid (by unfold State.declaredLength; omega))
  case remainder =>
    rintro ty id s l c rfl rfl hty hid hlow hhigh hc
    have hv := decodeVerdict_of_lengthInRange hty hid ⟨hlow, hhigh⟩
    exact exec_pktDec_of_verdict (hv.trans (remainderVerdict_of_ne_zero _ hc))
  case success =>
    rintro ty id s l rfl hc hty hid hlow hhigh
    have hv : decodeVerdict ty id s = remainderVerdict s.declaredLength 0x0000#16 :=
      (decodeVerdict_of_lengthInRange hty hid ⟨hlow, hhigh⟩).trans (congrArg _ hc)
    rw [← sub_three_eq_ofNat hlow]
    exact exec_pktDec_of_verdict (hv.trans (remainderVerdict_zero _))
  case words => exact decode_of_opcodeRow_match ⟨.pktDec, 0x00000006#32, 0xFF0000FF#32⟩ (by decide) h
  case reserved => exact (reservedBitSet_iff w).1 (.inr (.inr (.inr (.inr (.inr ⟨hop, hbits⟩)))))

/-- Settles O27: on the checksum path the verdict is the remainder's, and the remainder is 0 exactly when the last two
bytes are the CRC they are folded into (R96). -/
theorem decodeAcceptsExactlyAMatchingTrailer : Obligations.DecodeAcceptsExactlyAMatchingTrailer := by
  rintro ty id s l rfl hty hid hlow hhigh
  refine ⟨_, exec_pktDec_of_verdict (decodeVerdict_of_lengthInRange hty hid ⟨hlow, hhigh⟩), ?crc,
    remainderVerdict_eflag_eq_none_or_checksumError .., ?trailer⟩
  case crc => exact congrArg (Option.getD · s.crc) (remainderVerdict_remainder ..)
  case trailer =>
    calc (remainderVerdict s.declaredLength (crc16 (s.rxBytesFrom 0 (s.declaredLength.toNat + 3)))).eflag = .none
        ↔ crc16 (s.rxBytesFrom 0 (s.declaredLength.toNat + 1 + 2)) = 0x0000#16 := remainderVerdict_eflag_eq_none_iff ..
      _ ↔ pair (s.rxByte (s.declaredLength.toNat + 1)) (s.rxByte (s.declaredLength.toNat + 2)) =
          crc16 (s.rxBytesFrom 0 (s.declaredLength.toNat + 1)) := by
        rw [State.crc16_rxBytesFrom_add_two_eq_zero_iff, Nat.zero_add, eq_comm]

/-- Settles O26: EFLAG is the verdict's, which on a match is None or ChecksumError. -/
theorem mismatchIsCommunicationErrorWhateverTheChecksum :
    Obligations.MismatchIsCommunicationErrorWhateverTheChecksum := by
  intro ty id s
  refine ⟨_, execPktDec_eq ty id s, ?_⟩
  rw [State.setVerdict_eflag]
  obtain ⟨h, he⟩ | ⟨hty, hid, he | he⟩ := decodeVerdict_eflag_cases ty id s
  · exact iff_of_true he h
  all_goals simp [he, hty, hid]

theorem decodeVerdict_eflag_ne_notReady (ty id : Byte) (s : State) : (decodeVerdict ty id s).eflag ≠ .notReady := by
  obtain ⟨-, he⟩ | ⟨-, -, he | he⟩ := decodeVerdict_eflag_cases ty id s
  all_goals simp [he]

/-- The host reads 0b11 for NotReady alone (spec/10_state.md R31). -/
theorem eflag_eq_notReady_of_regWord_result {s : State} (h : (s.regWord .result).extractLsb' 0 2 = 0b11#2) :
    s.eflag = .notReady := by
  have hcode : errorFlagCode s.eflag = 0b11#2 := (resultWord_eflag s).symm.trans h
  rw [← errorFlagOf_errorFlagCode s.eflag, hcode]
  rfl

/-- Settles O28: EFLAG is the verdict's, which is never NotReady, and RESULT shows EFLAG's code. -/
theorem decodeNeverReportsNotReady : Obligations.DecodeNeverReportsNotReady := by
  intro ty id s
  have hne := decodeVerdict_eflag_ne_notReady ty id s
  exact ⟨_, execPktDec_eq ty id s, hne, fun h => hne (eflag_eq_notReady_of_regWord_result h)⟩

end Sys2Proof.Machine
end

section
/-! What DECODE leaves, and how the packet that a buffer holds decodes (spec/42_framer.md R116, spec/43_deframer.md
R125, R127). -/

namespace Sys2Proof.Machine

/-- A shorter slice from the same index is the front of a longer one. -/
theorem State.rxBytesFrom_take (s : State) (a : Nat) {k n : Nat} (h : k ≤ n) :
    (s.rxBytesFrom a n).take k = s.rxBytesFrom a k := by
  obtain ⟨m, rfl⟩ := Nat.exists_eq_add_of_le h
  rw [State.rxBytesFrom_add, List.take_left' (State.rxBytesFrom_length ..)]

/-- The state after a DECODE. -/
def pktDecResult (ty id : Byte) (s : State) : State :=
  (s.setRxdecl s.declaredLength).setVerdict (decodeVerdict ty id s)

theorem exec_pktDec (ty id : Byte) (s : State) : exec (.pktDec ty id) s = .next (pktDecResult ty id s) :=
  execPktDec_eq ty id s

theorem pktDecResult_rxBytesFrom (ty id : Byte) (s : State) (a n : Nat) :
    (pktDecResult ty id s).rxBytesFrom a n = s.rxBytesFrom a n := State.rxBytesFrom_congr a n fun _ _ _ => rfl

theorem pktDecResult_eflag (ty id : Byte) (s : State) :
    (pktDecResult ty id s).eflag = (decodeVerdict ty id s).eflag := rfl

theorem pktDecResult_rxdlen (ty id : Byte) (s : State) :
    (pktDecResult ty id s).rxdlen = (decodeVerdict ty id s).dlen := rfl

/-- Only a declared length that fits RX gives a length of usable data: that data lies in RX (R127, R129). -/
theorem decodeVerdict_dlen_fits (ty id : Byte) (s : State) (h : 6 ≤ s.sizes.rxBytes) :
    (decodeVerdict ty id s).dlen.toNat + 6 ≤ s.sizes.rxBytes := by
  by_cases hm : s.rxByte 0 ≠ ty ∨ s.rxByte 3 ≠ id
  · rw [decodeVerdict_of_mismatch hm]
    simpa using h
  obtain ⟨hty, hid⟩ : s.rxByte 0 = ty ∧ s.rxByte 3 = id := by simpa using hm
  by_cases hl : lengthInRange s.sizes s.declaredLength
  · rw [decodeVerdict_of_lengthInRange hty hid hl]
    by_cases hc : crc16 (s.rxBytesFrom 0 (s.declaredLength.toNat + 3)) = 0x0000#16
    · rw [hc, remainderVerdict_zero, sub_three_eq_ofNat hl.1, BitVec.toNat_ofNat, Nat.mod_eq_of_lt (by omega)]
      omega
    · rw [remainderVerdict_of_ne_zero _ hc]
      simpa using h
  · rw [decodeVerdict_of_badLength hty hid hl]
    simpa using h

/-- After any DECODE, `RX[4..4+RXDLEN)` lies in RX. -/
theorem pktDecResult_payload_fits (ty id : Byte) (s : State) (hz : s.sizes.Legal) :
    (pktDecResult ty id s).rxdlen.toNat + 4 ≤ s.sizes.rxBytes := by
  obtain ⟨-, -, hrx, -⟩ := hz
  have hfits := decodeVerdict_dlen_fits ty id s hrx
  rw [pktDecResult_rxdlen]
  omega

@[simp] theorem packetBytes_length (ty id : Byte) (data : List Byte) :
    (packetBytes ty id data).length = data.length + 6 := by
  simp [packetBytes, packetHead, be16]

/-- A packet's CRC, its trailer included, is 0 (R96, R116). -/
theorem crc16_packetBytes (ty id : Byte) (data : List Byte) : crc16 (packetBytes ty id data) = 0x0000#16 := by
  rw [packetBytes, be16, crc16_append_two_eq_zero_iff, pair_hiByte_loByte]

/-- The head and the data of the packet that RX holds. -/
theorem State.packetFields_of_rxBytesFrom {s : State} {ty id : Byte} {data : List Byte}
    (h : s.rxBytesFrom 0 (data.length + 6) = packetBytes ty id data) :
    s.rxByte 0 = ty ∧ s.declaredLength = lengthField data.length ∧ s.rxByte 3 = id ∧
      s.rxBytesFrom 4 data.length = data := by
  rw [show data.length + 6 = 4 + data.length + 2 by omega, State.rxBytesFrom_add, State.rxBytesFrom_add, Nat.zero_add,
    packetBytes] at h
  obtain ⟨hfront, -⟩ := List.append_inj' h rfl
  obtain ⟨hhead, hdata⟩ := List.append_inj hfront rfl
  simp only [State.rxBytesFrom, packetHead, List.cons.injEq, and_true] at hhead
  obtain ⟨h0, h1, h2, h3⟩ := hhead
  exact ⟨h0, by rw [State.declaredLength, h1, h2, pair_hiByte_loByte], h3, hdata⟩

/-- DECODE of the packet of its own type and id accepts it with its data's length (R116). -/
theorem decodeVerdict_of_packetBytes {s : State} {ty id : Byte} {data : List Byte} (hz : s.sizes.Legal)
    (hfit : data.length + 6 ≤ s.sizes.rxBytes) (h : s.rxBytesFrom 0 (data.length + 6) = packetBytes ty id data) :
    decodeVerdict ty id s =
      { eflag := .none, lenbad := false, dlen := BitVec.ofNat 16 data.length, remainder := some 0x0000#16 } := by
  obtain ⟨-, -, -, hrx⟩ := hz
  obtain ⟨hty, hlen, hid, -⟩ := State.packetFields_of_rxBytesFrom h
  have hl : s.declaredLength.toNat = data.length + 3 := by
    rw [hlen, lengthField, BitVec.toNat_ofNat]
    exact Nat.mod_eq_of_lt (by omega)
  have hcrc : crc16 (s.rxBytesFrom 0 (s.declaredLength.toNat + 3)) = 0x0000#16 := by
    rw [hl, h, crc16_packetBytes]
  rw [decodeVerdict_of_lengthInRange hty hid (by unfold lengthInRange; omega), hcrc, remainderVerdict_zero,
    sub_three_eq_ofNat (by omega), hl, Nat.add_sub_cancel]

theorem pktDecResult_payload_of_packetBytes {s : State} {ty id : Byte} {data : List Byte} (hz : s.sizes.Legal)
    (hfit : data.length + 6 ≤ s.sizes.rxBytes) (h : s.rxBytesFrom 0 (data.length + 6) = packetBytes ty id data) :
    (pktDecResult ty id s).payload = data := by
  have hverdict := decodeVerdict_of_packetBytes hz hfit h
  obtain ⟨-, -, -, hrx⟩ := hz
  obtain ⟨-, -, -, hdata⟩ := State.packetFields_of_rxBytesFrom h
  rw [State.payload, pktDecResult_rxBytesFrom, pktDecResult_rxdlen, hverdict, BitVec.toNat_ofNat,
    Nat.mod_eq_of_lt (by omega), hdata]

end Sys2Proof.Machine
end

section
/-! The typed results, read from RX and RXDLEN (spec/45_host_protocol.md R150 to R157). -/

namespace Sys2Proof.Machine

/-- The usable data, where there is some, begins at `RX[4]`. -/
theorem State.payload_eq_cons {s : State} (h : 1 ≤ s.rxdlen.toNat) :
    s.payload = s.rxByte 4 :: s.rxBytesFrom 5 (s.rxdlen.toNat - 1) := by
  rw [State.payload, ← Nat.sub_add_cancel h]
  rfl

/-- The first byte of the usable data (R152, R153, R156, R157). -/
theorem State.resultByte_payload {s : State} (draw : Nat) (h : 1 ≤ s.rxdlen.toNat) :
    resultByte draw s.payload = s.rxByte 4 := by
  rw [State.payload_eq_cons h]
  rfl

/-- The count-prefixed list of the usable data (R150). -/
theorem State.errorCodesOf_payload {s : State} {errMax : Nat} (draw : Nat)
    (hlen : (s.rxByte 4).toNat + 1 ≤ s.rxdlen.toNat) (hmax : (s.rxByte 4).toNat ≤ errMax) :
    errorCodesOf errMax draw s.payload = s.rxBytesFrom 5 (s.rxByte 4).toNat := by
  have hcount : (s.rxByte 4).toNat ≤ s.rxdlen.toNat - 1 := Nat.le_sub_one_of_lt hlen
  rw [State.payload_eq_cons (by omega), errorCodesOf, State.rxBytesFrom_length, if_pos hcount,
    State.rxBytesFrom_take s 5 hcount, List.take_of_length_le (by rwa [State.rxBytesFrom_length])]

/-- The first two bytes of the usable data (R151). -/
theorem State.temperatureOf_payload {s : State} (draw : Nat) (h : 2 ≤ s.rxdlen.toNat) :
    temperatureOf draw s.payload = pair (s.rxByte 4) (s.rxByte 5) := by
  rw [State.payload, ← Nat.sub_add_cancel h]
  rfl

/-- Settles O60: each result is read from the front of the usable data, which is `RX[4..4+RXDLEN)`. -/
theorem typedResultsReadThePayload : Obligations.TypedResultsReadThePayload := by
  intro p draw s
  have hbyte := State.resultByte_payload (s := s) draw
  refine ⟨fun hlen hmax => ?errorCodes, fun h => ?temperature, fun h => ?execute, fun h => ?status, ?science, rfl,
    fun id slot d => ⟨rfl, fun h => ?create⟩, fun id => ⟨rfl, rfl, fun h => ?delete⟩⟩
  all_goals rw [Operation.typedResult, Operation.resultOf]
  case errorCodes => rw [State.errorCodesOf_payload draw hlen hmax]
  case temperature => rw [State.temperatureOf_payload draw h]
  case science => rw [State.payload, State.rxBytesFrom_length]
  all_goals rw [hbyte h]

end Sys2Proof.Machine
end

section
/-! A whole Command API call: receive, deframe and extract after the send (spec/45_host_protocol.md R147). -/

namespace Sys2Proof.Machine

/-- Receive and deframe (R147 steps 3 and 4): RX holds the reply, cut at the response maximum, and the host goes on
after a DECODE of it. -/
theorem Operation.run_receive {α : Type} (p : HostParams) (op : Operation) (respMax : Nat) (bytes : List Byte)
    (next : HostProgram α) (s : State) (hz : s.sizes.Legal) (h : respMax ≤ s.sizes.rxBytes) :
    ∃ f, (issueAll (op.receiveEvents p respMax bytes) next).run s =
        next.run (pktDecResult (op.expectedType p) (op.commandId p) f) ∧
      f.rxBytesFrom 0 (bytes.take respMax).length = bytes.take respMax ∧
      (∀ i, (bytes.take respMax).length ≤ i → f.rxByte i = s.rxByte i) ∧ f = { s with rx := f.rx } := by
  have hlen : (bytes.take respMax).length ≤ respMax := List.length_take_le ..
  obtain ⟨f, hrun, hreply, hother, hf⟩ := HostProgram.run_rxFill 0 (bytes.take respMax)
    (issueAll [cmdWrite (encode (.pktDec (op.expectedType p) (op.commandId p)))] next) s hz (by omega)
  have hzf : f.sizes.Legal := by rw [hf]; exact hz
  refine ⟨f, ?_, hreply, fun i hi => hother i (.inr (by omega)), hf⟩
  rw [Operation.receiveEvents, issueAll_append, hrun]
  exact HostProgram.run_cmdWrite _ _ next f _ hzf (decode_encode _) (exec_pktDec ..)

theorem Operation.callResult_of_none (p : HostParams) (draw : Nat) {s : State} (op : Operation) (h : s.eflag = .none) :
    op.callResult p draw s = .ok (op.typedResult p draw s) := by
  rw [Operation.callResult, h]

theorem State.setReads_eflag (s : State) (rs : List Word) : (s.setReads rs).eflag = s.eflag := rfl

theorem State.setReads_rxBytesFrom (s : State) (rs : List Word) (a n : Nat) :
    (s.setReads rs).rxBytesFrom a n = s.rxBytesFrom a n := State.rxBytesFrom_congr a n fun _ _ _ => rfl

theorem State.setReads_payload (s : State) (rs : List Word) : (s.setReads rs).payload = s.payload :=
  s.setReads_rxBytesFrom rs 4 s.rxdlen.toNat

theorem State.logRead_payload (s : State) (v : Word) : (s.logRead v).payload = s.payload :=
  s.setReads_payload (v :: s.reads)

theorem Operation.callResult_setReads (p : HostParams) (draw : Nat) (op : Operation) (s : State) (rs : List Word) :
    op.callResult p draw (s.setReads rs) = op.callResult p draw s := by
  rw [Operation.callResult, Operation.typedResult, State.setReads_eflag, State.setReads_payload]
  rfl

/-- The host reads RXDLEN and then `RX[4..4+RXDLEN)`: it goes on with the usable data, and only what it has read
changes. -/
theorem HostProgram.run_readPayload {α : Type} (next : List Byte → HostProgram α) (s : State) (hz : s.sizes.Legal)
    (h : s.rxdlen.toNat + 4 ≤ s.sizes.rxBytes) :
    ∃ rs, (HostProgram.read (regOffset .rxdlen) fun n => readBytes rxBase 4 n.toNat next).run s =
      (next s.payload).run (s.setReads rs) := by
  have hn : (s.portWord (.reg .rxdlen)).toNat = s.rxdlen.toNat := toNat_zeroExtended_half s.rxdlen
  obtain ⟨t, hrun, ht⟩ := HostProgram.run_readRx 4 s.rxdlen.toNat next (s.logRead (s.portWord (.reg .rxdlen))) hz
    (show 4 + s.rxdlen.toNat ≤ s.sizes.rxBytes by omega)
  have hreads : t = s.setReads t.reads := ht
  have hdata : (s.logRead (s.portWord (.reg .rxdlen))).rxBytesFrom 4 s.rxdlen.toNat = s.payload :=
    s.logRead_payload _
  exact ⟨t.reads, by rw [HostProgram.run_read _ _ s _ hz (locate_reg s.sizes .rxdlen), hn, hrun, hdata, ← hreads]⟩

/-- Extract (R147 step 5), the usable data lying in RX: the host's reads change nothing else, and its result is the one
that the state holds. -/
theorem Operation.run_extract (p : HostParams) (draw : Nat) (op : Operation) (s : State) (hz : s.sizes.Legal)
    (h : s.rxdlen.toNat + 4 ≤ s.sizes.rxBytes) :
    ∃ rs, (op.extract p draw).run s = .next (op.callResult p draw s, s.setReads rs) := by
  have hflag : errorFlagOf ((s.portWord (.reg .result)).extractLsb' 0 2) = s.eflag :=
    (congrArg errorFlagOf (resultWord_eflag s)).trans (errorFlagOf_errorFlagCode s.eflag)
  rw [Operation.extract, HostProgram.run_read _ _ s _ hz (locate_reg s.sizes .result), hflag]
  cases he : s.eflag
  case none =>
    obtain ⟨rs, hdata⟩ := HostProgram.run_readPayload
      (fun data => HostProgram.done (CallResult.ok (op.resultOf p draw data)))
      (s.logRead (s.portWord (.reg .result))) hz h
    exact ⟨rs, hdata.trans (by rw [s.logRead_payload, op.callResult_of_none p draw he]; rfl)⟩
  all_goals exact ⟨s.portWord (.reg .result) :: s.reads, by rw [Operation.callResult, he]; rfl⟩

/-- A whole call that fits (R147): after the send and the receive, DECODE has run on a block whose RX holds the reply,
and the call's result is the one that this DECODE leaves. -/
theorem Operation.run_call (p : HostParams) (op : Operation) (respMax draw : Nat)
    (exchange : List Byte → List Byte) (s : State) (hz : s.sizes.Legal) (h : op.Fits p s.sizes respMax)
    {reply : List Byte}
    (hreply : reply =
      (exchange (packetBytes (op.family.requestType.code p) (op.commandId p) (op.requestData p))).take respMax) :
    ∃ f t rs, t = (pktDecResult (op.expectedType p) (op.commandId p) f).setReads rs ∧
      (op.call p respMax draw exchange).run s = .next (op.callResult p draw t, t) ∧
      f.sizes = s.sizes ∧ f.pending = s.pending ∧ f.rxBytesFrom 0 reply.length = reply ∧
      ∀ i, reply.length ≤ i → f.rxByte i = s.rxByte i := by
  subst hreply
  obtain ⟨hreq, hresp⟩ := h
  obtain ⟨u, hsend, -, hpacket, husizes, hupending, hurx, huresets⟩ := op.run_send_of_fits p
    (fun request => issueAll (op.receiveEvents p respMax (exchange request)) (op.extract p draw)) s hz hreq
  rw [hpacket] at hsend
  obtain ⟨f, hreceive, hreply, hother, hf⟩ := op.run_receive p respMax
    (exchange (packetBytes (op.family.requestType.code p) (op.commandId p) (op.requestData p)))
    (op.extract p draw) u (husizes ▸ hz) (husizes ▸ hresp)
  have hfsizes : f.sizes = s.sizes := by rw [hf, husizes]
  have hfz : f.sizes.Legal := hfsizes ▸ hz
  obtain ⟨rs, hextract⟩ := op.run_extract p draw (pktDecResult (op.expectedType p) (op.commandId p) f) hfz
    (pktDecResult_payload_fits _ _ f hfz)
  refine ⟨f, _, rs, rfl, ?_, hfsizes, by rw [hf, hupending], hreply, fun i hi => ?_⟩
  · rw [Operation.call, hsend, hreceive, hextract, Operation.callResult_setReads]
  · rw [hother i hi, State.rxByte_congr hurx huresets]

/-- Settles O57: the state at the end is DECODE's of the reply in RX, up to what the host has read. -/
theorem everyCallEndsWithItsVerdict : Obligations.EveryCallEndsWithItsVerdict := by
  intro s p op respMax draw exchange reply hz hfits hreply
  obtain ⟨f, t, rs, rfl, hrun, -, hpending, hrx, hother⟩ := op.run_call p respMax draw exchange s hz hfits hreply
  exact ⟨_, hrun, hpending, by rw [State.setReads_rxBytesFrom, pktDecResult_rxBytesFrom, hrx], hother⟩

/-- Settles O58: the reply is the whole report, which DECODE accepts with the report's data as the usable data. -/
theorem matchedCallDeliversTheData : Obligations.MatchedCallDeliversTheData := by
  intro s p op respMax draw exchange data hz hfits hlen hreport
  have hreply : packetBytes (op.expectedType p) (op.commandId p) data =
      (exchange (packetBytes (op.family.requestType.code p) (op.commandId p) (op.requestData p))).take respMax := by
    rw [hreport, List.take_of_length_le (by rwa [packetBytes_length])]
  obtain ⟨f, t, rs, ht, hrun, hsizes, hpending, hrx, -⟩ := op.run_call p respMax draw exchange s hz hfits hreply
  rw [packetBytes_length] at hrx
  have hfit : data.length + 6 ≤ f.sizes.rxBytes := hsizes ▸ hlen.trans hfits.2
  have hzf : f.sizes.Legal := hsizes ▸ hz
  have hflag : t.eflag = .none := by
    rw [ht, State.setReads_eflag, pktDecResult_eflag, decodeVerdict_of_packetBytes hzf hfit hrx]
  have hpayload : t.payload = data := by
    rw [ht, State.setReads_payload, pktDecResult_payload_of_packetBytes hzf hfit hrx]
  have hresult : op.typedResult p draw t = op.resultOf p draw data := by rw [Operation.typedResult, hpayload]
  refine ⟨t, ?_, by rw [ht]; exact hpending, hflag, hpayload, hresult⟩
  rw [hrun, op.callResult_of_none p draw hflag, hresult]

end Sys2Proof.Machine
end

section
/-! A command in range and the error registers (spec/60_exceptions.md R177): it does to the rest of the block what it
does under any ERR and ERRCMD, and it keeps both. -/

namespace Sys2Proof.Machine

/-- The state with other contents of ERR and ERRCMD. -/
def State.setErr (s : State) (opc rsv range : Bool) (cmd : Word) : State :=
  { s with errOpc := opc, errRsv := rsv, errRange := range, errcmd := cmd }

section
variable (s : State) (opc rsv range : Bool) (cmd : Word)

@[simp] theorem State.setErr_sizes : (s.setErr opc rsv range cmd).sizes = s.sizes := rfl
@[simp] theorem State.setErr_encodeCount : (s.setErr opc rsv range cmd).encodeCount = s.encodeCount := rfl
@[simp] theorem State.setErr_rxByte (i : Nat) : (s.setErr opc rsv range cmd).rxByte i = s.rxByte i := rfl
@[simp] theorem State.setErr_declaredLength :
    (s.setErr opc rsv range cmd).declaredLength = s.declaredLength := rfl

theorem State.setErr_self : s.setErr s.errOpc s.errRsv s.errRange s.errcmd = s := rfl

@[simp] theorem State.setErr_txBytesFrom (a n : Nat) :
    (s.setErr opc rsv range cmd).txBytesFrom a n = s.txBytesFrom a n :=
  State.txBytesFrom_congr a n fun _ _ _ => rfl

@[simp] theorem State.setErr_rxBytesFrom (a n : Nat) :
    (s.setErr opc rsv range cmd).rxBytesFrom a n = s.rxBytesFrom a n :=
  State.rxBytesFrom_congr a n fun _ _ _ => rfl

@[simp] theorem State.setErr_setTxBytes (i : Nat) (bs : List Byte) :
    (s.setErr opc rsv range cmd).setTxBytes i bs = (s.setTxBytes i bs).setErr opc rsv range cmd := by
  induction bs generalizing s i with
  | nil => rfl
  | cons b bs ih => exact ih (s.setTxByte i b) (i + 1)

theorem trlGenResult_setErr (k : Half) :
    trlGenResult k (s.setErr opc rsv range cmd) = (trlGenResult k s).setErr opc rsv range cmd := by
  simp only [trlGenResult, State.setErr_txBytesFrom, State.setErr_setTxBytes]
  rfl

theorem trlChkResult_setErr (k : Half) :
    trlChkResult k (s.setErr opc rsv range cmd) = (trlChkResult k s).setErr opc rsv range cmd := by
  simp only [trlChkResult, State.setErr_rxBytesFrom]
  rfl

theorem pktEncResult_setErr (ty id : Byte) :
    pktEncResult ty id (s.setErr opc rsv range cmd) = (pktEncResult ty id s).setErr opc rsv range cmd := by
  simp only [pktEncResult, encodeCrc, encodeHeader, State.setErr_encodeCount, State.setErr_setTxBytes,
    State.setErr_txBytesFrom]
  rfl

theorem pktDecResult_setErr (ty id : Byte) :
    pktDecResult ty id (s.setErr opc rsv range cmd) = (pktDecResult ty id s).setErr opc rsv range cmd := by
  have hverdict : decodeVerdict ty id (s.setErr opc rsv range cmd) = decodeVerdict ty id s := by
    simp only [decodeVerdict, State.setErr_rxByte, State.setErr_sizes, State.setErr_declaredLength,
      State.setErr_rxBytesFrom]
  rw [pktDecResult, hverdict]
  rfl

end

/-- A command in range reads nothing of ERR and ERRCMD. -/
theorem exec_setErr (i : Instr) (s : State) (h : ¬ OutOfRange s i) :
    ∃ t, exec i s = .next t ∧
      ∀ opc rsv range cmd, exec i (s.setErr opc rsv range cmd) = .next (t.setErr opc rsv range cmd) := by
  cases i with
  | crcInit => exact ⟨_, rfl, fun _ _ _ _ => rfl⟩
  | crcByte b => exact ⟨_, rfl, fun _ _ _ _ => rfl⟩
  | trlGen k =>
    have hk : trlGenInRange s.sizes k := Nat.not_lt.1 h
    refine ⟨_, execTrlGen_inRange k s hk, fun opc rsv range cmd => ?_⟩
    rw [← trlGenResult_setErr]
    exact execTrlGen_inRange k _ hk
  | trlChk k =>
    have hk : trlChkInRange s.sizes k := by rwa [OutOfRange, not_or, Nat.not_lt, Nat.not_lt] at h
    refine ⟨_, execTrlChk_inRange k s hk, fun opc rsv range cmd => ?_⟩
    rw [← trlChkResult_setErr]
    exact execTrlChk_inRange k _ hk
  | pktEnc ty id =>
    have hn : encodeInRange s.sizes s.encodeCount := Nat.not_lt.1 h
    refine ⟨_, execPktEnc_inRange ty id s hn, fun opc rsv range cmd => ?_⟩
    rw [← pktEncResult_setErr]
    exact execPktEnc_inRange ty id _ hn
  | pktDec ty id =>
    refine ⟨_, exec_pktDec ty id s, fun opc rsv range cmd => ?_⟩
    rw [← pktDecResult_setErr]
    exact exec_pktDec ty id _

/-- So it keeps them: run under the state's own ERR and ERRCMD, it ends under the same. -/
theorem eq_setErr_of_exec_inRange {i : Instr} {s t : State} (h : ¬ OutOfRange s i) (ht : exec i s = .next t) :
    t = t.setErr s.errOpc s.errRsv s.errRange s.errcmd := by
  obtain ⟨u, hu, herr⟩ := exec_setErr i s h
  have hself := herr s.errOpc s.errRsv s.errRange s.errcmd
  rw [State.setErr_self, ht] at hself
  obtain rfl : t = u := Host.Outcome.next.inj (ht.symm.trans hu)
  exact Host.Outcome.next.inj hself

/-- A command that fails its range check raises E_RANGE for its own word (R171). -/
theorem exec_of_outOfRange {i : Instr} {s : State} (h : OutOfRange s i) :
    exec i s = .next (s.raiseCmdError .eRange (encode i)) := by
  cases i with
  | crcInit => exact h.elim
  | crcByte b => exact h.elim
  | trlGen k => exact execTrlGen_outOfRange k s (Nat.not_le.2 h)
  | trlChk k =>
    refine execTrlChk_outOfRange k s ?_
    rwa [OutOfRange, ← Nat.not_le, ← Nat.not_le, ← not_and_or] at h
  | pktEnc ty id => exact execPktEnc_outOfRange ty id s (Nat.not_le.2 h)
  | pktDec ty id => exact h.elim

end Sys2Proof.Machine
end

section
/-! The cause for which a word written to CMD is rejected, and what the rejection writes (spec/60_exceptions.md R170 to
R172). -/

namespace Sys2Proof.Machine

/-- The ERR bit of a cause (R171). -/
def State.errBit (s : State) : CmdError → Bool
  | .eOpc => s.errOpc
  | .eRsv => s.errRsv
  | .eRange => s.errRange

/-- The check that a word fails for each cause (R171). -/
def RejectedFor (s : State) (w : Word) : CmdError → Prop
  | .eOpc => UnassignedOp w
  | .eRsv => ReservedBitSet w
  | .eRange => ∃ i, decode w = .command i ∧ OutOfRange s i

theorem State.raiseCmdError_errBit (s : State) (c d : CmdError) (w : Word) :
    (s.raiseCmdError c w).errBit d = true ↔ s.errBit d = true ∨ c = d := by
  cases d <;> simp [State.errBit]

theorem State.raiseCmdError_eOpc (s : State) (w : Word) :
    s.raiseCmdError .eOpc w = { s with errOpc := true, errcmd := w } := by simp [State.raiseCmdError]

theorem State.raiseCmdError_eRsv (s : State) (w : Word) :
    s.raiseCmdError .eRsv w = { s with errRsv := true, errcmd := w } := by simp [State.raiseCmdError]

theorem runCommandWord_of_rejectedFor {s : State} {w : Word} {c : CmdError} (h : RejectedFor s w c) :
    runCommandWord w s = .next (s.raiseCmdError c w) := by
  cases c with
  | eOpc => exact runCommandWord_of_rejected s ((unassignedOp_iff w).1 h)
  | eRsv => exact runCommandWord_of_rejected s ((reservedBitSet_iff w).1 h)
  | eRange =>
    obtain ⟨i, hd, hi⟩ := h
    rw [runCommandWord_of_command s hd, exec_of_outOfRange hi, encode_of_decode hd]

/-- The only cause for which a word can be rejected, by its decoding: a command has a range check alone. -/
def rejectionCause : Decoded → CmdError
  | .command _ => .eRange
  | .rejected c => c

theorem RejectedFor.eq_rejectionCause {s : State} {w : Word} {c : CmdError} (h : RejectedFor s w c) :
    c = rejectionCause (decode w) := by
  cases c with
  | eOpc => rw [(unassignedOp_iff w).1 h, rejectionCause]
  | eRsv => rw [(reservedBitSet_iff w).1 h, rejectionCause]
  | eRange =>
    obtain ⟨i, hd, -⟩ := h
    rw [hd, rejectionCause]

/-- The three checks exclude each other (R172). -/
theorem RejectedFor.unique {s : State} {w : Word} {c d : CmdError} (hc : RejectedFor s w c) (hd : RejectedFor s w d) :
    c = d := hc.eq_rejectionCause.trans hd.eq_rejectionCause.symm

theorem RejectedFor.outOfRange {s : State} {w : Word} {c : CmdError} {i : Instr} (h : RejectedFor s w c)
    (hd : decode w = .command i) : OutOfRange s i := by
  obtain rfl : c = .eRange := by rw [h.eq_rejectionCause, hd, rejectionCause]
  obtain ⟨j, hj, hout⟩ := h
  obtain rfl := Decoded.command.inj (hj.symm.trans hd)
  exact hout

/-- A word is rejected for one of the causes or is a command in range. -/
theorem rejectedFor_or_inRange (s : State) (w : Word) :
    (∃ c, RejectedFor s w c) ∨ ∃ i, decode w = .command i ∧ ¬ OutOfRange s i := by
  obtain ⟨-, hd⟩ | ⟨op, -, -, hd⟩ | ⟨op, -, -, hd⟩ := decode_cases w
  · exact .inl ⟨.eOpc, (unassignedOp_iff w).2 hd⟩
  · exact .inl ⟨.eRsv, (reservedBitSet_iff w).2 hd⟩
  · by_cases hout : OutOfRange s (commandOf op w)
    · exact .inl ⟨.eRange, _, hd, hout⟩
    · exact .inr ⟨_, hd, hout⟩

theorem rejected_iff_exists_rejectedFor (s : State) (w : Word) : Rejected s w ↔ ∃ c, RejectedFor s w c := by
  constructor
  · intro hrej
    obtain h | ⟨i, hd, hin⟩ := rejectedFor_or_inRange s w
    · exact h
    · obtain ⟨c, hc⟩ | ⟨j, hj, hout⟩ := hrej
      · rw [hc] at hd
        cases hd
      · exact ⟨.eRange, j, hj, hout⟩
  · rintro ⟨c, h⟩
    cases c with
    | eOpc => exact .inl ⟨_, (unassignedOp_iff w).1 h⟩
    | eRsv => exact .inl ⟨_, (reservedBitSet_iff w).1 h⟩
    | eRange => exact .inr h

/-- All that a word written to CMD does to ERR: a bit is set after it exactly when it was, or when the word is rejected
for the bit's cause. -/
theorem runCommandWord_errBit {s t : State} {w : Word} (h : runCommandWord w s = .next t) (c : CmdError) :
    t.errBit c = true ↔ s.errBit c = true ∨ RejectedFor s w c := by
  obtain ⟨d, hd⟩ | ⟨i, hd, hin⟩ := rejectedFor_or_inRange s w
  · obtain rfl := Host.Outcome.next.inj ((runCommandWord_of_rejectedFor hd).symm.trans h)
    have hcause : d = c ↔ RejectedFor s w c := ⟨fun hdc => hdc ▸ hd, hd.unique⟩
    rw [State.raiseCmdError_errBit, hcause]
  · have hno : ¬ RejectedFor s w c := fun hc => hin (hc.outOfRange hd)
    rw [runCommandWord_of_command s hd] at h
    rw [eq_setErr_of_exec_inRange hin h, or_iff_left hno]
    cases c <;> rfl

/-- A word that is not rejected keeps ERRCMD. -/
theorem runCommandWord_errcmd_of_not_rejected {s t : State} {w : Word} (h : runCommandWord w s = .next t)
    (hw : ¬ Rejected s w) : t.errcmd = s.errcmd := by
  obtain hrej | ⟨i, hd, hin⟩ := rejectedFor_or_inRange s w
  · exact absurd ((rejected_iff_exists_rejectedFor s w).2 hrej) hw
  · rw [runCommandWord_of_command s hd] at h
    rw [eq_setErr_of_exec_inRange hin h]
    rfl

end Sys2Proof.Machine
end

section
/-! What one step does to the error registers (spec/60_exceptions.md R177). -/

namespace Sys2Proof.Machine

/-- Only a write to CMD, a write to ERR or a reset can change ERR or ERRCMD, and a write to ERR keeps ERRCMD. -/
theorem step_err_cases {s t : State} (h : step s = .next t) :
    s.NextIsReset ∨
    (∃ w rest, s.NextWrites 0x000 w ∧ runCommandWord w (s.setPending rest) = .next t) ∨
    (∃ v, s.NextWrites 0x01C v ∧ t.errcmd = s.errcmd) ∨
    (t.errBit = s.errBit ∧ t.errcmd = s.errcmd) := by
  obtain ⟨-, ⟨-, rfl⟩ | ⟨rest, hp, -⟩ | ⟨_, _, rest, x, -, -, rfl⟩ | ⟨width, o, v, rest, x, hp, hl, hw⟩⟩ :=
    step_cases s t h
  · exact .inr (.inr (.inr ⟨rfl, rfl⟩))
  · exact .inl ⟨rest, hp⟩
  · exact .inr (.inr (.inr ⟨rfl, rfl⟩))
  · have hreg : ∀ r, x = .reg r → s.NextWrites (regOffset r) v := by
      rintro r rfl
      obtain ⟨rfl, ⟨_, hr, rfl⟩ | ⟨_, hr, -⟩ | ⟨_, hr, -⟩ | ⟨_, hr, -⟩⟩ := locate_ok_cases _ _ _ _ hl
      all_goals cases hr
      exact ⟨rest, hp⟩
    obtain ⟨rfl, -⟩ | ⟨-, rfl⟩ | ⟨rfl, rfl⟩ | ⟨i, -, rfl⟩ | ⟨i, -, rfl⟩ | rfl := writeTarget_cases x v _ t hw
    · exact .inr (.inl ⟨v, rest, hreg .cmd rfl, hw⟩)
    · exact .inr (.inr (.inr ⟨rfl, rfl⟩))
    · exact .inr (.inr (.inl ⟨v, hreg .err rfl, rfl⟩))
    all_goals exact .inr (.inr (.inr ⟨rfl, rfl⟩))

/-- A set bit stays set over a step that is neither a reset nor a write to ERR. -/
theorem step_keeps_errBit {s t : State} (h : step s = .next t) (hr : ¬ s.NextIsReset)
    (he : ∀ v, ¬ s.NextWrites 0x01C v) (c : CmdError) (hc : s.errBit c = true) : t.errBit c = true := by
  obtain hreset | ⟨w, rest, -, hrun⟩ | ⟨v, hv, -⟩ | ⟨hbits, -⟩ := step_err_cases h
  · exact absurd hreset hr
  · exact (runCommandWord_errBit hrun c).2 (.inl hc)
  · exact absurd hv (he v)
  · rwa [hbits]

/-- ERRCMD stays over a step that neither resets nor rejects a word. -/
theorem step_keeps_errcmd {s t : State} (h : step s = .next t) (hr : ¬ s.NextIsReset)
    (hw : ∀ w, s.NextWrites 0x000 w → ¬ Rejected s w) : t.errcmd = s.errcmd := by
  obtain hreset | ⟨w, rest, hnext, hrun⟩ | ⟨v, -, hcmd⟩ | ⟨-, hcmd⟩ := step_err_cases h
  · exact absurd hreset hr
  · exact runCommandWord_errcmd_of_not_rejected (s := s.setPending rest) hrun (hw w hnext)
  · exact hcmd
  · exact hcmd

end Sys2Proof.Machine
end

section
/-! The obligations on command errors (spec/60_exceptions.md). -/

namespace Sys2Proof.Machine

/-- Settles O34: a step touches the error registers only as `step_err_cases` says, a rejection adds its cause's bit, and
a command in range reads none of them. -/
theorem errorsAreStickyAndNeverBlock : Obligations.ErrorsAreStickyAndNeverBlock := by
  refine ⟨fun s t h hr => ⟨fun he => ?sticky, step_keeps_errcmd h hr⟩, fun s w hrej => ?rejection,
    fun i s a b c hin => ?neverBlocks⟩
  case sticky =>
    have hkeep := step_keeps_errBit h hr he
    exact ⟨hkeep .eOpc, hkeep .eRsv, hkeep .eRange⟩
  case rejection =>
    obtain ⟨d, hd⟩ := (rejected_iff_exists_rejectedFor s w).1 hrej
    have hrun := runCommandWord_of_rejectedFor hd
    have hsets : ∀ c, RejectedFor s w c → (s.raiseCmdError d w).errBit c = true :=
      fun c hc => (runCommandWord_errBit hrun c).2 (.inr hc)
    have hkeeps : ∀ c, s.errBit c = true → (s.raiseCmdError d w).errBit c = true :=
      fun c hc => (runCommandWord_errBit hrun c).2 (.inl hc)
    exact ⟨_, hrun, rfl, hsets .eOpc, hsets .eRsv, hsets .eRange, hkeeps .eOpc, hkeeps .eRsv, hkeeps .eRange⟩
  case neverBlocks =>
    obtain ⟨t, ht, herr⟩ := exec_setErr i s hin
    have hcmd : t.errcmd = s.errcmd := by rw [eq_setErr_of_exec_inRange hin ht]; rfl
    refine ⟨t, ht, (herr a b c s.errcmd).trans ?_⟩
    rw [← hcmd]
    rfl

/-- Settles O33: from a clear ERR the bits set are those of the causes, and the causes exclude each other. -/
theorem exactlyTheFirstCauseIsReported : Obligations.ExactlyTheFirstCauseIsReported := by
  intro w s t hopc hrsv hrange hrun
  have hclear : ∀ c, s.errBit c = false := by rintro (_ | _ | _) <;> assumption
  have hbit : ∀ c, t.errBit c = true ↔ RejectedFor s w c := fun c => by
    rw [runCommandWord_errBit hrun, hclear, or_iff_right Bool.false_ne_true]
  have hother : ∀ {c} d, RejectedFor s w c → c ≠ d → ¬ RejectedFor s w d := fun _ hc hne hd => hne (hc.unique hd)
  refine ⟨hbit .eOpc, (hbit .eRsv).trans ⟨fun h => ⟨?_, h⟩, And.right⟩,
    (hbit .eRange).trans ⟨fun h => ⟨?_, ?_, h⟩, fun h => h.2.2⟩⟩
  · exact hother .eOpc h (by decide)
  · exact hother .eOpc h (by decide)
  · exact hother .eRsv h (by decide)

/-- Settles O32: the step of a write to CMD runs the word, which is rejected for its cause or is a command in range. -/
theorem rejectionWritesOnlyErrAndErrcmd : Obligations.RejectionWritesOnlyErrAndErrcmd := by
  intro s w rest hz hp
  have hstep : step s = runCommandWord w (s.setPending rest) := step_writeReg s .cmd w rest hz hp
  have hrange : ∀ i, decode w = .command i → OutOfRange s i →
      step s = .next { s with pending := rest, errRange := true, errcmd := w } := fun i hd hout => by
    have hfor : RejectedFor (s.setPending rest) w .eRange := ⟨i, hd, hout⟩
    rw [hstep, runCommandWord_of_rejectedFor hfor, State.raiseCmdError_eRange]
    rfl
  refine ⟨fun h => ?unassigned, fun h => ?reserved, fun k hd => hrange _ hd, fun k hd => hrange _ hd,
    fun t d hd => hrange _ hd, fun i t hd hin ht => ?inRange⟩
  case unassigned =>
    rw [hstep, runCommandWord_of_rejectedFor (c := .eOpc) h, State.raiseCmdError_eOpc]
    rfl
  case reserved =>
    rw [hstep, runCommandWord_of_rejectedFor (c := .eRsv) h, State.raiseCmdError_eRsv]
    rfl
  case inRange =>
    rw [hstep, runCommandWord_of_command _ hd] at ht
    rw [eq_setErr_of_exec_inRange (s := s.setPending rest) hin ht]
    exact ⟨rfl, rfl, rfl, rfl⟩

end Sys2Proof.Machine
end

section
/-! The reset input (spec/70_reset_and_hazards.md R190): every register at its reset value, the constants kept. -/

namespace Sys2Proof.Machine

theorem resetWith_atReset (z : BufferSizes) : AtReset (State.resetWith z) where
  crc := rfl
  txplen := rfl
  txlen := rfl
  rxdlen := rfl
  rxdecl := rfl
  eflag := rfl
  lenbad := rfl
  chkok := rfl
  errOpc := rfl
  errRsv := rfl
  errRange := rfl
  errcmd := rfl

/-- The counter, the queue and the log of reads, in which the two reset states differ, are no registers. -/
theorem applyReset_atReset (s : State) : AtReset s.applyReset := { resetWith_atReset s.sizes with }

theorem step_reset (s : State) (rest : List PortEvent) (hz : s.sizes.Legal) (hp : s.pending = .reset :: rest) :
    step s = .next (s.setPending rest).applyReset := by
  rw [step_event s hz .reset rest hp, takeEvent_reset]

/-- TABLE is a constant of the block (R24): what a read of it answers does not depend on the state. -/
theorem portWord_table_eq (s t : State) (i : Byte) : t.portWord (.table i) = s.portWord (.table i) := rfl

/-- Settles O50: power-on and the reset input both leave the registers at their reset values; PARAM is kept as by every
step (O52), and TABLE is constant. -/
theorem resetSetsEveryRegister : Obligations.ResetSetsEveryRegister := by
  refine ⟨fun z => ⟨resetWith_atReset z, rfl⟩, fun s rest hz hp => ?_⟩
  have hstep := step_reset s rest hz hp
  obtain ⟨-, hparam⟩ := configurationNeverChanges.1 s _ hstep
  exact ⟨_, hstep, applyReset_atReset _, hparam, portWord_table_eq s _⟩

end Sys2Proof.Machine
end

section
/-! The invariant of the machine: it holds at reset (spec/70_reset_and_hazards.md R190), and every operation keeps it
(spec/10_state.md section 2, spec/20_memory.md section 5). -/

namespace Sys2Proof.Machine

theorem resetWith_inv (z : BufferSizes) (hz : z.Legal) : (State.resetWith z).Inv where
  sizesLegal := hz
  txCanonical := rfl
  txWithin := rfl
  rxCanonical := rfl
  rxWithin := rfl
  notReadyNever := ErrorFlag.noConfusion
  lenbadRefinesChecksum := Bool.noConfusion
  dlenZeroOnFailure := fun _ => rfl
  dlenOfDeclared := fun _ => .inr ⟨rfl, rfl⟩
  dlenFits := hz.2.2.1
  txlenFits := .inl rfl

/-- Settles O53: the reference configuration is legal. -/
theorem invariantHoldsAtReset : Obligations.InvariantHoldsAtReset :=
  ⟨resetWith_inv, resetWith_inv BufferSizes.reference (by decide)⟩

namespace State.Inv

variable {s : State} (h : s.Inv)
include h

theorem setCrc (c : Half) : (s.setCrc c).Inv := { h with }

theorem setTxplen (n : Half) : (s.setTxplen n).Inv := { h with }

theorem setChkok (b : Bool) : (s.setChkok b).Inv := { h with }

theorem raiseCmdError (c : CmdError) (w : Word) : (s.raiseCmdError c w).Inv := { h with }

theorem clearErr (v : Word) : (s.clearErr v).Inv := { h with }

theorem setPending (es : List PortEvent) : (s.setPending es).Inv := { h with }

theorem logRead (v : Word) : (s.logRead v).Inv := { h with }

theorem applyReset : s.applyReset.Inv := { resetWith_inv s.sizes h.sizesLegal with }

theorem setTxlen {n : Half} (hn : 6 ≤ n.toNat ∧ n.toNat ≤ s.sizes.txBytes) : (s.setTxlen n).Inv :=
  { h with txlenFits := .inr hn }

theorem setTxByte {i : Nat} (b : Byte) (hi : i < s.sizes.txBytes) : (s.setTxByte i b).Inv :=
  { h with
    txCanonical := s.setTxByte_wf i b h.txCanonical
    txWithin := Memory.within_set _ s.tx i b h.txWithin hi }

theorem setRxByte {i : Nat} (b : Byte) (hi : i < s.sizes.rxBytes) : (s.setRxByte i b).Inv :=
  { h with
    rxCanonical := s.setRxByte_wf i b h.rxCanonical
    rxWithin := Memory.within_set _ s.rx i b h.rxWithin hi }

theorem setTxBytes {i : Nat} (bs : List Byte) (hi : i + bs.length ≤ s.sizes.txBytes) : (s.setTxBytes i bs).Inv := by
  induction bs generalizing s i with
  | nil => exact h
  | cons b bs ih =>
    rw [List.length_cons] at hi
    exact ih (h.setTxByte b (by omega)) (show i + 1 + bs.length ≤ s.sizes.txBytes by omega)

end State.Inv

theorem trlGenResult_inv {k : Half} {s : State} (h : s.Inv) (hk : trlGenInRange s.sizes k) : (trlGenResult k s).Inv :=
  (h.setTxBytes (be16 _) hk).setCrc _

theorem trlChkResult_inv (k : Half) {s : State} (h : s.Inv) : (trlChkResult k s).Inv := (h.setCrc _).setChkok _

/-- The head and the trailer of the packet lie in TX, and so does the whole packet, whose size TXLEN then is. -/
theorem pktEncResult_inv (ty id : Byte) {s : State} (h : s.Inv) (hn : encodeInRange s.sizes s.encodeCount) :
    (pktEncResult ty id s).Inv := by
  have hlen : (BitVec.ofNat 16 (s.encodeCount + 6)).toNat = s.encodeCount + 6 :=
    pktEncResult_txlen ty id s h.sizesLegal hn
  have hhead : (encodeHeader ty id s).Inv :=
    h.setTxBytes (packetHead ty id s.encodeCount) (show 0 + 4 ≤ s.sizes.txBytes by omega)
  have htrailer := hhead.setTxBytes (be16 (encodeCrc ty id s))
    (show 4 + s.encodeCount + 2 ≤ s.sizes.txBytes by omega)
  exact (htrailer.setCrc (encodeCrc ty id s)).setTxlen ⟨by omega, hlen.trans_le hn⟩

/-- All that DECODE's verdict can be: a failure, which reports no data, or the data of a length that fits RX. -/
theorem decodeVerdict_cases (ty id : Byte) (s : State) :
    decodeVerdict ty id s = { eflag := .communicationError, lenbad := false, dlen := 0#16, remainder := none } ∨
    decodeVerdict ty id s = { eflag := .checksumError, lenbad := true, dlen := 0#16, remainder := none } ∨
    (∃ c, decodeVerdict ty id s = { eflag := .checksumError, lenbad := false, dlen := 0#16, remainder := some c }) ∨
    (lengthInRange s.sizes s.declaredLength ∧ decodeVerdict ty id s =
      { eflag := .none, lenbad := false, dlen := s.declaredLength - 3#16, remainder := some 0x0000#16 }) := by
  by_cases hm : s.rxByte 0 ≠ ty ∨ s.rxByte 3 ≠ id
  · exact .inl (decodeVerdict_of_mismatch hm)
  obtain ⟨hty, hid⟩ : s.rxByte 0 = ty ∧ s.rxByte 3 = id := by simpa using hm
  by_cases hl : lengthInRange s.sizes s.declaredLength
  · rw [decodeVerdict_of_lengthInRange hty hid hl]
    by_cases hc : crc16 (s.rxBytesFrom 0 (s.declaredLength.toNat + 3)) = 0x0000#16
    · rw [hc, remainderVerdict_zero]
      exact .inr (.inr (.inr ⟨hl, rfl⟩))
    · rw [remainderVerdict_of_ne_zero _ hc]
      exact .inr (.inr (.inl ⟨_, rfl⟩))
  · exact .inr (.inl (decodeVerdict_of_badLength hty hid hl))

/-- Everything that the invariant says of DECODE's registers holds of any verdict. -/
theorem pktDecResult_inv (ty id : Byte) {s : State} (h : s.Inv) : (pktDecResult ty id s).Inv where
  sizesLegal := h.sizesLegal
  txCanonical := h.txCanonical
  txWithin := h.txWithin
  rxCanonical := h.rxCanonical
  rxWithin := h.rxWithin
  txlenFits := h.txlenFits
  notReadyNever := decodeVerdict_eflag_ne_notReady ty id s
  dlenFits := decodeVerdict_dlen_fits ty id s h.sizesLegal.2.2.1
  lenbadRefinesChecksum := by
    change (decodeVerdict ty id s).lenbad = true → (decodeVerdict ty id s).eflag = .checksumError
    obtain hv | hv | ⟨c, hv⟩ | ⟨-, hv⟩ := decodeVerdict_cases ty id s <;> simp [hv]
  dlenZeroOnFailure := by
    change (decodeVerdict ty id s).eflag ≠ .none → (decodeVerdict ty id s).dlen = 0#16
    obtain hv | hv | ⟨c, hv⟩ | ⟨-, hv⟩ := decodeVerdict_cases ty id s <;> simp [hv]
  dlenOfDeclared := by
    change (decodeVerdict ty id s).eflag = .none →
      (decodeVerdict ty id s).dlen.toNat + 3 = s.declaredLength.toNat ∨ _
    obtain hv | hv | ⟨c, hv⟩ | ⟨hl, hv⟩ := decodeVerdict_cases ty id s
    case inr.inr.inr =>
      have hdlen : (s.declaredLength - 3#16).toNat = s.declaredLength.toNat - 3 := BitVec.toNat_sub_of_le hl.1
      rw [hv]
      exact fun _ => .inl ((congrArg (· + 3) hdlen).trans (Nat.sub_add_cancel hl.1))
    all_goals simp [hv]

theorem exec_inv {i : Instr} {s t : State} (h : s.Inv) (ht : exec i s = .next t) : t.Inv := by
  obtain ⟨-, he⟩ | ⟨b, -, he⟩ | ⟨k, -, hk, he⟩ | ⟨k, -, -, he⟩ | ⟨k, -, -, he⟩ | ⟨k, -, -, he⟩ | ⟨ty, id, -, hn, he⟩ |
    ⟨ty, id, -, -, he⟩ | ⟨ty, id, -, he⟩ := exec_cases i s
  all_goals obtain rfl := Host.Outcome.next.inj (he.symm.trans ht)
  · exact h.setCrc _
  · exact h.setCrc _
  · exact trlGenResult_inv h hk
  · exact h.raiseCmdError _ _
  · exact trlChkResult_inv k h
  · exact h.raiseCmdError _ _
  · exact pktEncResult_inv ty id h hn
  · exact h.raiseCmdError _ _
  · exact pktDecResult_inv ty id h

/-- What a served access to a word of the TX window is. -/
theorem locate_ok_tx {z : BufferSizes} {width offset i : Nat} (h : locate z width offset = .ok (.tx i)) :
    width = 32 ∧ offset = 0x10000 + 4 * i ∧ i < z.txBytes := by
  simpa using locate_ok_cases _ _ _ _ h

/-- What a served access to a word of the RX window is. -/
theorem locate_ok_rx {z : BufferSizes} {width offset i : Nat} (h : locate z width offset = .ok (.rx i)) :
    width = 32 ∧ offset = 0x20000 + 4 * i ∧ i < z.rxBytes := by
  simpa using locate_ok_cases _ _ _ _ h

/-- A served write: a buffer word lies in its buffer, so the byte that it sets does too. -/
theorem writeTarget_inv {width offset : Nat} {x : Target} {v : Word} {s t : State} (h : s.Inv)
    (hl : locate s.sizes width offset = .ok x) (hw : writeTarget x v s = .next t) : t.Inv := by
  obtain ⟨-, ⟨i, -, he⟩ | ⟨c, -, rfl⟩⟩ | ⟨-, rfl⟩ | ⟨-, rfl⟩ | ⟨i, rfl, rfl⟩ | ⟨i, rfl, rfl⟩ | rfl :=
    writeTarget_cases x v s t hw
  · exact exec_inv h he
  · exact h.raiseCmdError c v
  · exact h.setTxplen _
  · exact h.clearErr v
  · obtain ⟨-, -, hi⟩ := locate_ok_tx hl
    exact h.setTxByte _ hi
  · obtain ⟨-, -, hi⟩ := locate_ok_rx hl
    exact h.setRxByte _ hi
  · exact h

/-- Settles O54: the step idles, resets, answers a read, or does a served write. -/
theorem everyStepKeepsTheInvariant : Obligations.EveryStepKeepsTheInvariant := by
  intro s t h hstep
  obtain ⟨-, ⟨-, rfl⟩ | ⟨rest, -, rfl⟩ | ⟨_, _, rest, x, -, -, rfl⟩ | ⟨width, o, v, rest, x, -, hl, hw⟩⟩ :=
    step_cases s t hstep
  · exact h
  · exact (h.setPending rest).applyReset
  · exact (h.setPending rest).logRead _
  · exact writeTarget_inv (h.setPending rest) hl hw

end Sys2Proof.Machine
end

section
/-! The CRC as a linear map (spec/40_crc_engine.md R92, R95, R98, R99). -/

namespace Sys2Proof.Machine

/-- Settles O10: the two folds take the same step. -/
theorem tableFormEqualsBitSerialForm : Obligations.TableFormEqualsBitSerialForm := by
  intro bs
  have hstep : crcStep = fun c b => crcRounds 8 (c ^^^ (b.setWidth 16 : Half) <<< 8) :=
    funext₂ crcStep_eq_crcRounds
  rw [crc16, crcFrom, crcSerial, hstep]

/-- Settles O11: the two bytes appended are the CRC they are folded into. -/
theorem appendedCrcVerifies : Obligations.AppendedCrcVerifies := fun bs =>
  (crc16_append_two_eq_zero_iff bs _ _).2 (pair_hiByte_loByte (crc16 bs)).symm

/-- Settles O17: the fold, one step for each digit. -/
theorem checkValueOfTheNineDigits : Obligations.CheckValueOfTheNineDigits := by
  have h1 : crcStep 0x0000#16 0x31#8 = 0x80A5#16 := by decide
  have h2 : crcStep 0x80A5#16 0x32#8 = 0xA6AC#16 := by decide
  have h3 : crcStep 0xA6AC#16 0x33#8 = 0xAF7E#16 := by decide
  have h4 : crcStep 0xAF7E#16 0x34#8 = 0xFD59#16 := by decide
  have h5 : crcStep 0xFD59#16 0x35#8 = 0xDBB3#16 := by decide
  have h6 : crcStep 0xDBB3#16 0x36#8 = 0xB16E#16 := by decide
  have h7 : crcStep 0xB16E#16 0x37#8 = 0xED17#16 := by decide
  have h8 : crcStep 0xED17#16 0x38#8 = 0x95FD#16 := by decide
  have h9 : crcStep 0x95FD#16 0x39#8 = 0xFEE8#16 := by decide
  rw [Obligations.CheckValueOfTheNineDigits, crc16, crcFrom]
  simp only [List.foldl_cons, List.foldl_nil, h1, h2, h3, h4, h5, h6, h7, h8, h9]

theorem tableEntry_xor (i j : Byte) : tableEntry (i ^^^ j) = tableEntry i ^^^ tableEntry j := by
  rw [tableEntry, BitVec.setWidth_xor, BitVec.shiftLeft_xor_distrib, crcRounds_xor, tableEntry, tableEntry]

theorem crcStep_xor (c d : Half) (a b : Byte) : crcStep (c ^^^ d) (a ^^^ b) = crcStep c a ^^^ crcStep d b := by
  simp only [crcStep_eq_crcRounds, ← crcRounds_xor, BitVec.setWidth_xor, BitVec.shiftLeft_xor_distrib]
  ac_rfl

theorem foldl_crcStep_xorBytes (c d : Half) {as bs : List Byte} (h : as.length = bs.length) :
    (xorBytes as bs).foldl crcStep (c ^^^ d) = as.foldl crcStep c ^^^ bs.foldl crcStep d := by
  induction as generalizing bs c d with
  | nil =>
    obtain rfl := List.length_eq_zero_iff.1 h.symm
    rfl
  | cons a as ih =>
    cases bs with
    | nil => cases h
    | cons b bs =>
      rw [List.foldl_cons, List.foldl_cons, ← ih _ _ (Nat.succ.inj h), ← crcStep_xor]
      rfl

theorem crc16_xorBytes {as bs : List Byte} (h : as.length = bs.length) :
    crc16 (xorBytes as bs) = crc16 as ^^^ crc16 bs := foldl_crcStep_xorBytes 0x0000#16 0x0000#16 h

/-- Settles O14: the rounds of a table entry are linear, and so is each step of the fold. -/
theorem crcIsLinear : Obligations.CrcIsLinear := ⟨tableEntry_xor, fun _ _ => crc16_xorBytes⟩

theorem crcStep_zero : crcStep 0x0000#16 0x00#8 = 0x0000#16 := by
  rw [crcStep_eq_crcRounds]
  exact crcRounds_zero 8

theorem crc16_replicate_zero (n : Nat) : crc16 (List.replicate n 0x00#8) = 0x0000#16 := by
  induction n with
  | zero => rfl
  | succ n ih => rwa [List.replicate_succ, crc16, crcFrom, List.foldl_cons, crcStep_zero]

theorem State.rxBytesFrom_eq_replicate {s : State} {a n : Nat} {b : Byte} (h : ∀ i, i < n → s.rxByte (a + i) = b) :
    s.rxBytesFrom a n = List.replicate n b := by
  refine List.ext_getElem (by simp) fun i hi _ => ?_
  rw [State.rxBytesFrom_length] at hi
  rw [State.rxBytesFrom_getElem, List.getElem_replicate, h i hi]

/-- TRAILER_CHK of a region whose remainder is 0 (spec/41_trailer.md R106). -/
theorem exec_trlChk_of_crc16_eq_zero {k : Half} {s : State} (hk : trlChkInRange s.sizes k)
    (h : crc16 (s.rxBytesFrom 0 k.toNat) = 0x0000#16) :
    exec (.trlChk k) s = .next { s with crc := 0x0000#16, chkok := true } := by
  have hexec := trailerChkReportsTheRemainder.1 k s hk.1 hk.2
  rw [h] at hexec
  exact hexec

/-- Settles O15: 0 is the linear map's own 0, and a region of zeros has that remainder. -/
theorem zeroBytesLeaveTheCrcZero : Obligations.ZeroBytesLeaveTheCrcZero := by
  refine ⟨crcRounds_zero 8, crcStep_zero, fun n bs => ?_, crc16_replicate_zero, fun k s hlow hhigh hzero => ?_⟩
  · rw [crc16_append, crc16_replicate_zero]
    rfl
  · refine exec_trlChk_of_crc16_eq_zero ⟨hlow, hhigh⟩ ?_
    rw [State.rxBytesFrom_eq_replicate (b := 0x00#8) fun i hi => by rw [Nat.zero_add, hzero i hi],
      crc16_replicate_zero]

end Sys2Proof.Machine
end

section
/-! The parity of a CRC (spec/40_crc_engine.md R100): the polynomial has a factor `x + 1`, so a CRC has as many ones as
its bytes, up to an even number. -/

namespace Sys2Proof.Machine

/-- The xor of the low `n` bits. -/
def lowParity {w : Nat} (c : BitVec w) : Nat → Bool
  | 0 => false
  | n + 1 => lowParity c n ^^ c.getLsbD n

theorem lowParity_xor {w : Nat} (c d : BitVec w) (n : Nat) :
    lowParity (c ^^^ d) n = (lowParity c n ^^ lowParity d n) := by
  induction n with
  | zero => rfl
  | succ n ih =>
    simp only [lowParity, ih, BitVec.getLsbD_xor, Bool.xor_assoc, Bool.xor_left_comm]

theorem lowParity_shiftLeft_one {w : Nat} (c : BitVec w) {n : Nat} (h : n < w) :
    lowParity (c <<< 1) (n + 1) = lowParity c n := by
  induction n with
  | zero => simp [lowParity]
  | succ n ih =>
    rw [lowParity, ih (by omega), lowParity, BitVec.getLsbD_shiftLeft]
    simp [h]

/-- The bit that a round shifts out comes back with the polynomial, whose other ones are even in number. -/
theorem lowParity_crcRound (c : Half) : lowParity (crcRound c) 16 = lowParity c 16 := by
  have hshift : lowParity (c <<< 1) 16 = lowParity c 15 := lowParity_shiftLeft_one c (by decide)
  have hpoly : lowParity 0x8005#16 16 = true := by decide
  have hlast : lowParity c 16 = (lowParity c 15 ^^ c.getLsbD 15) := rfl
  rw [crcRound, hlast]
  cases c.getLsbD 15 <;> simp [lowParity_xor, hshift, hpoly]

theorem lowParity_crcRounds (n : Nat) (c : Half) : lowParity (crcRounds n c) 16 = lowParity c 16 := by
  induction n generalizing c with
  | zero => rfl
  | succ n ih => rw [crcRounds, ih, lowParity_crcRound]

theorem lowParity_byte (b : Byte) : lowParity ((b.setWidth 16 : Half) <<< 8) 16 = (byteWeight b).bodd := by
  revert b
  decide

theorem lowParity_foldl_crcStep (c : Half) (bs : List Byte) :
    lowParity (bs.foldl crcStep c) 16 = (lowParity c 16 ^^ (weight bs).bodd) := by
  induction bs generalizing c with
  | nil => simp [weight]
  | cons b bs ih =>
    have hweight : weight (b :: bs) = byteWeight b + weight bs := rfl
    rw [List.foldl_cons, ih, crcStep_eq_crcRounds, lowParity_crcRounds, lowParity_xor, lowParity_byte, hweight,
      Nat.bodd_add, Bool.xor_assoc]

theorem crc16_ne_zero_of_odd_weight {bs : List Byte} (h : weight bs % 2 = 1) : crc16 bs ≠ 0x0000#16 := by
  intro hzero
  have hparity : lowParity (crc16 bs) 16 = (lowParity 0x0000#16 16 ^^ (weight bs).bodd) := lowParity_foldl_crcStep _ bs
  have hodd : (weight bs).bodd = true := by rwa [Nat.mod_two_of_bodd, Bool.toNat_eq_one] at h
  rw [hzero, hodd] at hparity
  exact absurd hparity (by decide)

/-- One flipped bit, as an error pattern. -/
theorem set_xor_eq_xorBytes (p : List Byte) (j : Nat) (h : j < p.length) (m : Byte) :
    p.set j (p[j] ^^^ m) = xorBytes p ((List.replicate p.length 0x00#8).set j m) := by
  refine List.ext_getElem (by simp [xorBytes]) fun i hi _ => ?_
  simp only [xorBytes, List.getElem_zipWith, List.getElem_set, List.getElem_replicate]
  split
  · subst_vars; rfl
  · rw [BitVec.xor_zero]

theorem weight_replicate_set (n j : Nat) (h : j < n) (m : Byte) :
    weight ((List.replicate n 0x00#8).set j m) = byteWeight m := by
  have hzero : byteWeight 0x00#8 = 0 := by decide
  simp [weight, List.map_set, hzero, List.sum_set, h]

theorem byteWeight_oneBit {k : Nat} (hk : k < 8) : byteWeight (0x01#8 <<< k) = 1 := by
  interval_cases k <;> decide

/-- An error pattern with an odd number of ones changes a remainder of 0 (R98, R100). -/
theorem crc16_xorBytes_ne_zero {p e : List Byte} (hlen : p.length = e.length) (hp : crc16 p = 0x0000#16)
    (he : weight e % 2 = 1) : crc16 (xorBytes p e) ≠ 0x0000#16 := by
  rw [crc16_xorBytes hlen, hp, BitVec.zero_xor]
  exact crc16_ne_zero_of_odd_weight he

theorem crc16_flipBit_ne_zero {p : List Byte} {j k : Nat} (h : j < p.length) (hk : k < 8) (hp : crc16 p = 0x0000#16) :
    crc16 (p.set j (p[j] ^^^ (0x01#8 <<< k))) ≠ 0x0000#16 := by
  rw [set_xor_eq_xorBytes p j h]
  refine crc16_xorBytes_ne_zero (by simp) hp ?_
  rw [weight_replicate_set _ _ h, byteWeight_oneBit hk]

/-- Settles O16: the CRC of the error pattern is what is left of the remainder, and it has an odd number of ones. One
flipped bit is such a pattern. -/
theorem oddBitErrorsAreDetected : Obligations.OddBitErrorsAreDetected :=
  ⟨fun _ _ _ => crc16_flipBit_ne_zero, fun _ _ => crc16_xorBytes_ne_zero⟩

end Sys2Proof.Machine
end

section
/-! A copy of TX in RX (spec/41_trailer.md R107, spec/42_framer.md R116, spec/43_deframer.md R133). -/

namespace Sys2Proof.Machine

/-- A faithful copy in RX of the front of TX has its bytes. -/
theorem rxBytesFrom_of_copy {t u : State} {n : Nat} (h : ∀ i, i < n → u.rxByte i = t.txByte i) :
    u.rxBytesFrom 0 n = t.txBytesFrom 0 n := by
  refine List.ext_getElem (by simp) fun i hi _ => ?_
  rw [State.rxBytesFrom_length] at hi
  simp only [State.rxBytesFrom_getElem, State.txBytesFrom_getElem, Nat.zero_add, h i hi]

/-- A copy in RX of the front of TX, the bits `m` of byte `j` flipped. -/
theorem rxBytesFrom_of_flippedCopy {t u : State} {n j : Nat} {m : Byte}
    (h : ∀ i, i < n → u.rxByte i = if i = j then t.txByte i ^^^ m else t.txByte i) :
    u.rxBytesFrom 0 n = (t.txBytesFrom 0 n).set j (t.txByte j ^^^ m) := by
  refine List.ext_getElem (by simp) fun i hi _ => ?_
  rw [State.rxBytesFrom_length] at hi
  rw [State.rxBytesFrom_getElem, List.getElem_set, State.txBytesFrom_getElem, Nat.zero_add, h i hi]
  by_cases hij : i = j
  · subst hij
    rw [if_pos rfl]
  · rw [if_neg hij, if_neg (Ne.symm hij)]

/-- The bytes that TRAILER_GEN's CRC is over, which it does not write. -/
theorem trlGenResult_txBytesFrom (k : Half) (s : State) :
    (trlGenResult k s).txBytesFrom 0 k.toNat = s.txBytesFrom 0 k.toNat :=
  State.txBytesFrom_congr 0 _ fun j _ hj => by rw [trlGenResult_txByte, if_neg (by omega), if_neg (by omega)]

theorem trlGenResult_crc (k : Half) (s : State) : (trlGenResult k s).crc = crc16 (s.txBytesFrom 0 k.toNat) := rfl

/-- A generated trailer leaves remainder 0 (R105). -/
theorem crc16_trlGenResult (k : Half) (s : State) :
    crc16 ((trlGenResult k s).txBytesFrom 0 (k.toNat + 2)) = 0x0000#16 := by
  have htrailer : (trlGenResult k s).txBytesFrom (0 + k.toNat) 2 = be16 (crc16 (s.txBytesFrom 0 k.toNat)) := by
    simp [State.txBytesFrom, trlGenResult_txByte, trlGenResult_crc, be16]
  rw [State.txBytesFrom_add, trlGenResult_txBytesFrom, htrailer]
  exact appendedCrcVerifies _

/-- Settles O22: the trailer leaves remainder 0, and one flipped bit makes it another. -/
theorem trailerChkAcceptsACopyAndDetectsOneChangedBit :
    Obligations.TrailerChkAcceptsACopyAndDetectsOneChangedBit := by
  intro k s t u hk ht hz hfit
  obtain rfl := Host.Outcome.next.inj ((execTrlGen_inRange k s hk).symm.trans ht)
  have hzero := crc16_trlGenResult k s
  have hcount : (k + 2#16).toNat = k.toNat + 2 := by
    obtain ⟨-, -, -, hrx⟩ := hz
    rw [BitVec.toNat_add]
    exact Nat.mod_eq_of_lt (show k.toNat + 2 < 2 ^ 16 by omega)
  have hrange : trlChkInRange u.sizes (k + 2#16) := by rw [trlChkInRange]; omega
  refine ⟨hzero, fun hcopy => ?copy, fun j b hj hb hchanged => ?changed⟩
  case copy =>
    refine exec_trlChk_of_crc16_eq_zero hrange ?_
    rw [hcount, rxBytesFrom_of_copy hcopy, hzero]
  case changed =>
    refine ⟨_, execTrlChk_inRange _ u hrange, decide_eq_false ?_⟩
    have hlen : j < ((trlGenResult k s).txBytesFrom 0 (k.toNat + 2)).length := by rwa [State.txBytesFrom_length]
    have hflip := crc16_flipBit_ne_zero hlen hb hzero
    rwa [State.txBytesFrom_getElem, Nat.zero_add, ← rxBytesFrom_of_flippedCopy hchanged, ← hcount] at hflip

/-- DECODE of a packet of its own type and id in RX accepts it with its data's length, in any configuration whose RX
holds the packet (R116). -/
theorem exec_pktDec_of_packetBytes {s : State} {ty id : Byte} {data : List Byte} (hlen : data.length + 3 < 2 ^ 16)
    (hfit : data.length + 6 ≤ s.sizes.rxBytes) (h : s.rxBytesFrom 0 (data.length + 6) = packetBytes ty id data) :
    exec (.pktDec ty id) s = .next { s with
      rxdecl := lengthField data.length, eflag := .none, lenbad := false, rxdlen := BitVec.ofNat 16 data.length,
      crc := 0x0000#16 } := by
  obtain ⟨hty, hdecl, hid, -⟩ := State.packetFields_of_rxBytesFrom h
  have hl : (lengthField data.length).toNat = data.length + 3 := by
    rw [lengthField, BitVec.toNat_ofNat, Nat.mod_eq_of_lt hlen]
  have hcrc : crc16 (s.rxBytesFrom 0 (s.declaredLength.toNat + 3)) = 0x0000#16 := by
    rw [hdecl, hl, h, crc16_packetBytes]
  have hverdict := decodeVerdict_of_lengthInRange hty hid (by rw [hdecl, lengthInRange, hl]; omega)
  rw [hcrc, remainderVerdict_zero, hdecl, sub_three_eq_ofNat (by omega), hl, Nat.add_sub_cancel] at hverdict
  rw [exec_pktDec_of_verdict hverdict, hdecl]
  rfl

/-- A faithful copy in RX of what ENCODE framed is the packet. -/
theorem rxBytesFrom_of_pktEncResult_copy {ty id : Byte} {s u : State} (hz : s.sizes.Legal)
    (hn : encodeInRange s.sizes s.encodeCount)
    (hcopy : ∀ i, i < (pktEncResult ty id s).txlen.toNat → u.rxByte i = (pktEncResult ty id s).txByte i) :
    u.rxBytesFrom 0 (s.encodeCount + 6) = packetBytes ty id (s.txBytesFrom 4 s.encodeCount) := by
  rw [pktEncResult_txlen ty id s hz hn] at hcopy
  rw [rxBytesFrom_of_copy hcopy, pktEncResult_txBytesFrom]

/-- DECODE of a faithful copy of ENCODE's packet accepts it with ENCODE's length (R116, R133). -/
theorem exec_pktDec_of_pktEncResult_copy {ty id : Byte} {s u : State} (hz : s.sizes.Legal)
    (hn : encodeInRange s.sizes s.encodeCount) (hfit : s.encodeCount + 6 ≤ u.sizes.rxBytes)
    (hcopy : ∀ i, i < (pktEncResult ty id s).txlen.toNat → u.rxByte i = (pktEncResult ty id s).txByte i) :
    ∃ v, exec (.pktDec ty id) u = .next v ∧ v.eflag = .none ∧ v.rxdlen = s.txplen := by
  have hpacket := rxBytesFrom_of_pktEncResult_copy hz hn hcopy
  obtain ⟨-, htx, -, -⟩ := hz
  refine ⟨_, exec_pktDec_of_packetBytes (s := u) (data := s.txBytesFrom 4 s.encodeCount) ?_ ?_ ?_, rfl, ?_⟩
  · rw [State.txBytesFrom_length]; omega
  · rwa [State.txBytesFrom_length]
  · rwa [State.txBytesFrom_length]
  · rw [State.txBytesFrom_length]
    exact (BitVec.ofNat_toNat 16 s.txplen).trans (BitVec.setWidth_eq _)

/-- Settles O24: TX holds the packet, whose remainder is 0, and its copy in RX is the packet. -/
theorem encodeOutputIsAWellFormedPacket : Obligations.EncodeOutputIsAWellFormedPacket := by
  intro ty id s t hz hn ht
  obtain rfl := Host.Outcome.next.inj ((execPktEnc_inRange ty id s hn).symm.trans ht)
  have hlen := pktEncResult_txlen ty id s hz hn
  have hbytes := pktEncResult_txBytesFrom ty id s
  have hhead := pktEncResult_txByte_head ty id s
  refine ⟨?packet, ?length, ?remainder, ?trailer, fun u hfit hcopy => ⟨?chk, ?dec⟩⟩
  case packet => rw [hlen, hbytes]; rfl
  case length =>
    obtain ⟨-, htx, -, -⟩ := hz
    have hfield :
        pair ((pktEncResult ty id s).txByte 1) ((pktEncResult ty id s).txByte 2) = lengthField s.encodeCount := by
      rw [hhead 1 (by decide), hhead 2 (by decide)]
      exact pair_hiByte_loByte _
    rw [hfield, hlen, lengthField, BitVec.toNat_ofNat, Nat.mod_eq_of_lt (by omega)]
  case remainder => rw [hlen, hbytes, crc16_packetBytes]
  case trailer =>
    rw [hlen, show s.encodeCount + 6 - 2 = 4 + s.encodeCount by omega,
      show s.encodeCount + 6 - 1 = 5 + s.encodeCount by omega, pktEncResult_txByte_trailerHigh,
      pktEncResult_txByte_trailerLow, pair_hiByte_loByte]
  case chk =>
    refine exec_trlChk_of_crc16_eq_zero ⟨by omega, hfit⟩ ?_
    rw [rxBytesFrom_of_copy hcopy, hlen, hbytes, crc16_packetBytes]
  case dec =>
    obtain ⟨v, hv, heflag, -⟩ := exec_pktDec_of_pktEncResult_copy hz hn (hlen ▸ hfit) hcopy
    exact ⟨v, hv, heflag⟩

/-- Settles O30: DECODE keeps RX, which holds the packet and so its data. -/
theorem decodeRecoversWhatEncodeFramed : Obligations.DecodeRecoversWhatEncodeFramed := by
  intro ty id s t u hz hn ht hfit hcopy
  obtain rfl := Host.Outcome.next.inj ((execPktEnc_inRange ty id s hn).symm.trans ht)
  obtain ⟨v, hv, heflag, hdlen⟩ := exec_pktDec_of_pktEncResult_copy hz hn hfit hcopy
  have hpacket := rxBytesFrom_of_pktEncResult_copy hz hn hcopy
  have hframe := exec_frame _ u v hv
  refine ⟨v, hv, heflag, hdlen, ?_⟩
  obtain ⟨-, -, -, hdata⟩ := State.packetFields_of_rxBytesFrom (data := s.txBytesFrom 4 s.encodeCount)
    (by rwa [State.txBytesFrom_length])
  rw [State.txBytesFrom_length] at hdata
  exact (State.rxBytesFrom_congr 4 _ fun j _ _ => State.rxByte_congr hframe.rx hframe.resets j).trans hdata

end Sys2Proof.Machine
end

section
/-! What the framing commands and DECODE read (spec/41_trailer.md, spec/42_framer.md, spec/43_deframer.md R134). -/

namespace Sys2Proof.Machine

/-- Run again, TRAILER_GEN computes the same CRC. -/
theorem trlGenResult_trlGenResult_crc (k : Half) (s : State) :
    (trlGenResult k (trlGenResult k s)).crc = (trlGenResult k s).crc := by
  rw [trlGenResult_crc, trlGenResult_txBytesFrom, trlGenResult_crc]

theorem trlGenResult_trlGenResult_txByte (k : Half) (s : State) (j : Nat) :
    (trlGenResult k (trlGenResult k s)).txByte j = (trlGenResult k s).txByte j := by
  rw [trlGenResult_txByte, trlGenResult_trlGenResult_crc, trlGenResult_txByte k s]
  split_ifs <;> rfl

theorem pktEncResult_encodeCount (ty id : Byte) (s : State) : (pktEncResult ty id s).encodeCount = s.encodeCount := by
  simp [State.encodeCount, pktEncResult, encodeHeader]

theorem pktEncResult_sizes (ty id : Byte) (s : State) : (pktEncResult ty id s).sizes = s.sizes := by
  simp [pktEncResult, encodeHeader]

/-- Run again, ENCODE computes the same CRC: its head is the same, and it does not write the data. -/
theorem pktEncResult_pktEncResult_crc (ty id : Byte) (s : State) :
    (pktEncResult ty id (pktEncResult ty id s)).crc = (pktEncResult ty id s).crc := by
  have hdata : (pktEncResult ty id s).txBytesFrom 4 s.encodeCount = s.txBytesFrom 4 s.encodeCount :=
    State.txBytesFrom_congr 4 _ fun j hlow hhigh => pktEncResult_txByte_data ty id s j hlow hhigh
  rw [pktEncResult_crc, encodeCrc, encodeHeader_txBytesFrom, pktEncResult_encodeCount, hdata,
    ← encodeHeader_txBytesFrom, pktEncResult_crc, encodeCrc]

theorem pktEncResult_txByte_fields (ty id : Byte) (s : State) (j : Nat) :
    (pktEncResult ty id s).txByte j =
      if j = 4 + s.encodeCount then hiByte (pktEncResult ty id s).crc
      else if j = 4 + s.encodeCount + 1 then loByte (pktEncResult ty id s).crc
      else if h : j < 4 then (packetHead ty id s.encodeCount)[j]'h else s.txByte j := by
  rw [pktEncResult_txByte_eq_ite, encodeHeader_txByte, pktEncResult_crc]

theorem pktEncResult_pktEncResult_txByte (ty id : Byte) (s : State) (j : Nat) :
    (pktEncResult ty id (pktEncResult ty id s)).txByte j = (pktEncResult ty id s).txByte j := by
  rw [pktEncResult_txByte_fields, pktEncResult_pktEncResult_crc, pktEncResult_txByte_fields ty id s]
  simp only [pktEncResult_encodeCount]
  split_ifs <;> rfl

theorem pktEncResult_pktEncResult_txlen (ty id : Byte) (s : State) :
    (pktEncResult ty id (pktEncResult ty id s)).txlen = (pktEncResult ty id s).txlen :=
  congrArg (fun n => BitVec.ofNat 16 (n + 6)) (pktEncResult_encodeCount ty id s)

/-- Settles O31: run again, each writes the bytes and the registers that it wrote, as it wrote them. -/
theorem framingTwiceIsFramingOnce : Obligations.FramingTwiceIsFramingOnce := by
  refine ⟨fun k s t hk ht => ?trlGen, fun ty id s t hz hn ht => ?pktEnc⟩
  case trlGen =>
    obtain rfl := Host.Outcome.next.inj ((execTrlGen_inRange k s hk).symm.trans ht)
    refine ⟨_, execTrlGen_inRange k (trlGenResult k s) hk, trlGenResult_trlGenResult_txByte k s, ?_⟩
    rw [trlGenResult_eq, trlGenResult_trlGenResult_crc]
  case pktEnc =>
    obtain rfl := Host.Outcome.next.inj ((execPktEnc_inRange ty id s hn).symm.trans ht)
    have hagain := execPktEnc_inRange ty id (pktEncResult ty id s)
      (by rwa [pktEncResult_sizes, pktEncResult_encodeCount])
    refine ⟨_, hagain, pktEncResult_pktEncResult_txByte ty id s, ?_⟩
    rw [pktEncResult_eq ty id (pktEncResult ty id s), pktEncResult_pktEncResult_crc, pktEncResult_pktEncResult_txlen]

/-- Settles O29: on each path the verdict is a function of the bytes that the states share. -/
theorem decodeReadsOnlyThePacket : Obligations.DecodeReadsOnlyThePacket := by
  intro ty id s u hsizes hcrc hhead hpacket
  have hlen : u.declaredLength = s.declaredLength := by
    rw [State.declaredLength, hhead 1 (by decide), hhead 2 (by decide), State.declaredLength]
  have hverdict : decodeVerdict ty id u = decodeVerdict ty id s := by
    have h0 := hhead 0 (by decide)
    have h3 := hhead 3 (by decide)
    by_cases hm : s.rxByte 0 ≠ ty ∨ s.rxByte 3 ≠ id
    · rw [decodeVerdict_of_mismatch hm, decodeVerdict_of_mismatch (by rwa [h0, h3])]
    obtain ⟨hty, hid⟩ : s.rxByte 0 = ty ∧ s.rxByte 3 = id := by simpa using hm
    by_cases hl : lengthInRange s.sizes s.declaredLength
    · have hbytes := State.rxBytesFrom_congr 0 (s.declaredLength.toNat + 3) fun i _ hi =>
        hpacket hty hid hl.1 hl.2 i (hi.trans_eq (Nat.zero_add _))
      rw [decodeVerdict_of_lengthInRange hty hid hl,
        decodeVerdict_of_lengthInRange (h0.trans hty) (h3.trans hid) (by rwa [hsizes, hlen]), hlen, hbytes]
    · rw [decodeVerdict_of_badLength hty hid hl,
        decodeVerdict_of_badLength (h0.trans hty) (h3.trans hid) (by rwa [hsizes, hlen])]
  refine ⟨_, _, exec_pktDec_of_verdict rfl, exec_pktDec_of_verdict hverdict, rfl, rfl, rfl, hlen,
    congrArg (decodeVerdict ty id s).remainder.getD hcrc⟩

end Sys2Proof.Machine
end

section
/-! What the block does with its oldest event (spec/20_memory.md R51, R57, R60; spec/70_reset_and_hazards.md R190). -/

namespace Sys2Proof.Machine

theorem writeTarget_pending {x : Target} {v : Word} {s t : State} (h : writeTarget x v s = .next t) :
    t.pending = s.pending := by
  obtain ⟨-, ⟨i, -, he⟩ | ⟨c, -, rfl⟩⟩ | ⟨-, rfl⟩ | ⟨-, rfl⟩ | ⟨i, -, rfl⟩ | ⟨i, -, rfl⟩ | rfl :=
    writeTarget_cases x v s t h
  · exact (exec_frame i s t he).pending
  all_goals rfl

/-- Settles O38: the step takes the event off the queue before it acts, and no event touches the rest. -/
theorem eachStepTakesTheOldestEvent : Obligations.EachStepTakesTheOldestEvent := by
  intro s t h
  obtain ⟨-, ⟨hp, rfl⟩ | ⟨rest, hp, rfl⟩ | ⟨_, _, rest, x, hp, -, rfl⟩ | ⟨_, _, v, rest, x, hp, -, hw⟩⟩ :=
    step_cases s t h
  · rw [hp, List.tail_nil]
  · rw [hp]; rfl
  · rw [hp]; rfl
  · rw [writeTarget_pending hw, hp]; rfl

/-- A safe block answers a next state, and any other a bus error (R51, R54). -/
theorem step_safe_or_busError (s : State) (hz : s.sizes.Legal) :
    (s.Safe ∧ ∃ t, step s = .next t) ∨ (¬ s.Safe ∧ ∃ c, step s = .fault (.busError c)) := by
  match hp : s.pending with
  | [] => exact .inl ⟨fun a rest h => by simp [hp] at h, _, step_idle s hz hp⟩
  | .reset :: rest => exact .inl ⟨fun a rest h => by simp [hp] at h, _, step_reset s rest hz hp⟩
  | .access a :: rest =>
    obtain ⟨hserved, hfault⟩ := onlyAlignedMappedWordsAreServed s a rest hz hp
    by_cases ha : Servable s.sizes a.width a.offset
    · refine .inl ⟨fun b rest' h => ?_, hserved ha⟩
      rw [hp] at h
      cases h
      exact ha
    · exact .inr ⟨fun hsafe => ha (hsafe a rest hp), hfault ha⟩

/-- Settles O40: the two outcomes exclude each other. -/
theorem onlyABusErrorStopsTheBlock : Obligations.OnlyABusErrorStopsTheBlock := by
  intro s hz
  obtain ⟨hsafe, hnext⟩ | ⟨hstops, c, hfault⟩ := step_safe_or_busError s hz
  · exact ⟨iff_of_true hsafe hnext, fun h => absurd hsafe h⟩
  · refine ⟨iff_of_false hstops ?_, fun _ => ⟨c, hfault⟩⟩
    rintro ⟨t, ht⟩
    cases hfault.symm.trans ht

/-- Settles O47: one step per byte, by O45's write of one byte. -/
theorem rxFillPlacesItsBytes : Obligations.RxFillPlacesItsBytes := by
  intro s j bs rest hz hfit hp
  induction bs generalizing s j with
  | nil =>
    obtain rfl : s.pending = rest := hp
    exact ⟨s, rfl, rfl, fun _ _ => rfl, rfl⟩
  | cons b bs ih =>
    rw [List.length_cons] at hfit ⊢
    obtain ⟨u, hstep, hbyte, hother, hu⟩ :=
      step_writeRx s j (b.setWidth 32) (rxFillEvents (j + 1) bs ++ rest) hz (by omega) hp
    have hsizes : u.sizes = s.sizes := by rw [hu]
    obtain ⟨t, hrun, hdata, hframe, ht⟩ := ih u (j + 1) (hsizes ▸ hz) (by rw [hsizes]; omega) (by rw [hu])
    refine ⟨t, (runSteps_succ_of_next _ hstep).trans hrun, ?_, fun i hi => ?_, by rw [ht, hu]⟩
    · rw [State.rxBytesFrom, hdata, hframe j (.inl (by omega)), hbyte, extractLsb'_zeroExtended_byte]
    · rw [hframe i (by omega), hother i (by omega)]

/-- Settles O49: the step's own case of an empty queue. -/
theorem idleBlockKeepsItsState : Obligations.IdleBlockKeepsItsState := step_idle

/-- Settles O51: nothing is listed in the buffers after a reset, so each byte is the free value of the count. -/
theorem resetInputRestoresTheResetState : Obligations.ResetInputRestoresTheResetState :=
  ⟨fun s rest hz hp => ⟨_, step_reset s rest hz hp, rfl, fun _ => ⟨rfl, rfl⟩⟩, fun _ _ => ⟨rfl, rfl⟩⟩

end Sys2Proof.Machine
end

section
/-! Words and values that the spec writes out (spec/30_encoding.md Part A, spec/45_host_protocol.md sections 3, 4). -/

namespace Sys2Proof.Machine

/-- Settles O8: by computation. -/
theorem wordsOfTheSpecDecode : Obligations.WordsOfTheSpecDecode := by
  unfold Obligations.WordsOfTheSpecDecode
  decide

/-- What a call gives after any EFLAG but None (R158). -/
theorem Operation.callResult_of_ne_none (p : HostParams) (draw : Nat) {s : State} (op : Operation)
    (h : s.eflag ≠ .none) : op.callResult p draw s = .failed s.eflag op.sentinel := by
  rw [Operation.callResult]
  cases he : s.eflag
  case none => exact absurd he h
  all_goals rfl

theorem requestSize_createScenario (p : HostParams) (id slot : Byte) {d : List Byte}
    (h : (Operation.createScenario id slot d).wellFormed = true) :
    (Operation.createScenario id slot d).requestSize p = 22 := by
  have hlen : d.length = 13 := of_decide_eq_true h
  simp [Operation.requestSize, Operation.requestData, hlen]

/-- Settles O59: a request packet has 6 bytes more than its data, and a failed call gives the operation's sentinel. -/
theorem requestSizesAndFailureValue : Obligations.RequestSizesAndFailureValue := by
  refine ⟨fun p id slot d => requestSize_createScenario p id slot, fun _ _ => rfl, fun p op h => ?empty,
    fun p draw s h => ?failure⟩
  case empty => rw [Operation.requestSize, h, List.length_nil]
  case failure =>
    have hfail := fun op => Operation.callResult_of_ne_none p draw op h
    exact ⟨hfail _, hfail _, hfail _, hfail _, hfail _, hfail _, fun _ _ _ => hfail _, fun _ => hfail _⟩

end Sys2Proof.Machine
end

section
/-! The flags (spec/10_state.md R40): no command reads one. -/

namespace Sys2Proof.Machine

/-- The state after a command that is in range. -/
def inRangeResult : Instr → State → State
  | .crcInit, s => s.setCrc 0x0000#16
  | .crcByte b, s => s.setCrc (crcStep s.crc b)
  | .trlGen k, s => trlGenResult k s
  | .trlChk k, s => trlChkResult k s
  | .pktEnc ty id, s => pktEncResult ty id s
  | .pktDec ty id, s => pktDecResult ty id s

theorem exec_of_inRange {i : Instr} {s : State} (h : ¬ OutOfRange s i) : exec i s = .next (inRangeResult i s) := by
  cases i with
  | crcInit => rfl
  | crcByte b => rfl
  | trlGen k => exact execTrlGen_inRange k s (Nat.not_lt.1 h)
  | trlChk k => exact execTrlChk_inRange k s (by rwa [OutOfRange, not_or, Nat.not_lt, Nat.not_lt] at h)
  | pktEnc ty id => exact execPktEnc_inRange ty id s (Nat.not_lt.1 h)
  | pktDec ty id => exact exec_pktDec ty id s

namespace SameButFlags

variable {s u : State} (h : SameButFlags s u)
include h

theorem txByte (i : Nat) : u.txByte i = s.txByte i := State.txByte_congr h.tx h.resets i

theorem rxByte (i : Nat) : u.rxByte i = s.rxByte i := State.rxByte_congr h.rx h.resets i

theorem txBytesFrom (a n : Nat) : u.txBytesFrom a n = s.txBytesFrom a n :=
  State.txBytesFrom_congr a n fun j _ _ => h.txByte j

theorem rxBytesFrom (a n : Nat) : u.rxBytesFrom a n = s.rxBytesFrom a n :=
  State.rxBytesFrom_congr a n fun j _ _ => h.rxByte j

theorem encodeCount : u.encodeCount = s.encodeCount := congrArg BitVec.toNat h.txplen

theorem declaredLength : u.declaredLength = s.declaredLength := congrArg₂ pair (h.rxByte 1) (h.rxByte 2)

theorem decodeVerdict (ty id : Byte) : decodeVerdict ty id u = decodeVerdict ty id s := by
  simp only [Machine.decodeVerdict, h.rxByte, h.sizes, h.declaredLength, h.rxBytesFrom]

theorem outOfRange_iff (i : Instr) : OutOfRange u i ↔ OutOfRange s i := by
  cases i <;> simp only [OutOfRange, h.sizes, h.txplen]

theorem setCrc (c : Half) : SameButFlags (s.setCrc c) (u.setCrc c) := { h with crc := rfl }

theorem setTxlen (n : Half) : SameButFlags (s.setTxlen n) (u.setTxlen n) := { h with txlen := rfl }

theorem setRxdecl (l : Half) : SameButFlags (s.setRxdecl l) (u.setRxdecl l) := { h with rxdecl := rfl }

theorem setChkok (b : Bool) : SameButFlags (s.setChkok b) (u.setChkok b) := { h with }

theorem setVerdict (v : Verdict) : SameButFlags (s.setVerdict v) (u.setVerdict v) :=
  { h with rxdlen := rfl, crc := congrArg v.remainder.getD h.crc }

theorem raiseCmdError (c : CmdError) (w : Word) : SameButFlags (s.raiseCmdError c w) (u.raiseCmdError c w) :=
  { h with errcmd := rfl }

theorem setTxByte (i : Nat) (b : Byte) : SameButFlags (s.setTxByte i b) (u.setTxByte i b) :=
  { h with tx := congrArg (Memory.set · i b) h.tx }

theorem setTxBytes (i : Nat) (bs : List Byte) : SameButFlags (s.setTxBytes i bs) (u.setTxBytes i bs) := by
  induction bs generalizing s u i with
  | nil => exact h
  | cons b bs ih => exact ih (h.setTxByte i b) (i + 1)

theorem encodeHeader (ty id : Byte) : SameButFlags (encodeHeader ty id s) (encodeHeader ty id u) := by
  rw [Machine.encodeHeader, Machine.encodeHeader, h.encodeCount]
  exact h.setTxBytes 0 _

theorem encodeCrc (ty id : Byte) : encodeCrc ty id u = encodeCrc ty id s := by
  rw [Machine.encodeCrc, (h.encodeHeader ty id).txBytesFrom, h.encodeCount, Machine.encodeCrc]

end SameButFlags

/-- What a command computes, and so what it writes but flags, is the same. -/
theorem inRangeResult_sameButFlags {s u : State} (h : SameButFlags s u) (i : Instr) :
    SameButFlags (inRangeResult i s) (inRangeResult i u) := by
  cases i with
  | crcInit => exact h.setCrc _
  | crcByte b =>
    rw [inRangeResult, inRangeResult, h.crc]
    exact h.setCrc _
  | trlGen k =>
    rw [inRangeResult, inRangeResult, trlGenResult, trlGenResult, h.txBytesFrom]
    exact (h.setTxBytes _ _).setCrc _
  | trlChk k =>
    rw [inRangeResult, inRangeResult, trlChkResult, trlChkResult, h.rxBytesFrom]
    exact (h.setCrc _).setChkok _
  | pktEnc ty id =>
    rw [inRangeResult, inRangeResult, pktEncResult, pktEncResult, h.encodeCount, h.encodeCrc]
    exact (((h.encodeHeader ty id).setTxBytes _ _).setCrc _).setTxlen _
  | pktDec ty id =>
    rw [inRangeResult, inRangeResult, pktDecResult, pktDecResult, h.declaredLength, h.decodeVerdict]
    exact (h.setRxdecl _).setVerdict _

/-- The flags of DECODE and of TRAILER_CHK are computed from what the two states share; the other commands keep them. -/
theorem inRangeResult_flags {s u : State} (h : SameButFlags s u) (i : Instr) :
    ((inRangeResult i u).eflag = (inRangeResult i s).eflag ∨
      ((inRangeResult i s).eflag = s.eflag ∧ (inRangeResult i u).eflag = u.eflag)) ∧
    ((inRangeResult i u).lenbad = (inRangeResult i s).lenbad ∨
      ((inRangeResult i s).lenbad = s.lenbad ∧ (inRangeResult i u).lenbad = u.lenbad)) ∧
    ((inRangeResult i u).chkok = (inRangeResult i s).chkok ∨
      ((inRangeResult i s).chkok = s.chkok ∧ (inRangeResult i u).chkok = u.chkok)) := by
  cases i with
  | crcInit => exact ⟨.inr ⟨rfl, rfl⟩, .inr ⟨rfl, rfl⟩, .inr ⟨rfl, rfl⟩⟩
  | crcByte b => exact ⟨.inr ⟨rfl, rfl⟩, .inr ⟨rfl, rfl⟩, .inr ⟨rfl, rfl⟩⟩
  | trlGen k => exact ⟨.inr ⟨rfl, rfl⟩, .inr ⟨rfl, rfl⟩, .inr ⟨rfl, rfl⟩⟩
  | trlChk k =>
    have hbytes := h.rxBytesFrom 0 k.toNat
    exact ⟨.inr ⟨rfl, rfl⟩, .inr ⟨rfl, rfl⟩, .inl (congrArg (fun bs => chkokOf (crc16 bs)) hbytes)⟩
  | pktEnc ty id =>
    rw [inRangeResult, inRangeResult, pktEncResult_eq ty id s, pktEncResult_eq ty id u]
    exact ⟨.inr ⟨rfl, rfl⟩, .inr ⟨rfl, rfl⟩, .inr ⟨rfl, rfl⟩⟩
  | pktDec ty id =>
    have hverdict := h.decodeVerdict ty id
    exact ⟨.inl (congrArg Verdict.eflag hverdict), .inl (congrArg Verdict.lenbad hverdict), .inr ⟨rfl, rfl⟩⟩

/-- A command in range keeps ERR. -/
theorem inRangeResult_err {i : Instr} {s : State} (h : ¬ OutOfRange s i) :
    (inRangeResult i s).errOpc = s.errOpc ∧ (inRangeResult i s).errRsv = s.errRsv ∧
      (inRangeResult i s).errRange = s.errRange ∧ (inRangeResult i s).errcmd = s.errcmd := by
  rw [eq_setErr_of_exec_inRange h (exec_of_inRange h)]
  exact ⟨rfl, rfl, rfl, rfl⟩

/-- Settles O35: a rejection sets E_RANGE in both and keeps the other flags, and a command in range computes alike. -/
theorem noCommandReadsAFlag : Obligations.NoCommandReadsAFlag := by
  intro i s u h
  by_cases hout : OutOfRange s i
  · refine ⟨_, _, exec_of_outOfRange hout, exec_of_outOfRange ((h.outOfRange_iff i).2 hout),
      h.raiseCmdError _ _, .inr ⟨rfl, rfl⟩, .inr ⟨rfl, rfl⟩, .inr ⟨rfl, rfl⟩, .inr ⟨?_, ?_⟩, .inr ⟨?_, ?_⟩, .inl ?_⟩
    all_goals simp
  · have hout' : ¬ OutOfRange u i := fun hu => hout ((h.outOfRange_iff i).1 hu)
    obtain ⟨heflag, hlenbad, hchkok⟩ := inRangeResult_flags h i
    obtain ⟨hopc, hrsv, hrange, -⟩ := inRangeResult_err hout
    obtain ⟨hopc', hrsv', hrange', -⟩ := inRangeResult_err hout'
    exact ⟨_, _, exec_of_inRange hout, exec_of_inRange hout', inRangeResult_sameButFlags h i, heflag, hlenbad, hchkok,
      .inr ⟨hopc, hopc'⟩, .inr ⟨hrsv, hrsv'⟩, .inr ⟨hrange, hrange'⟩⟩

end Sys2Proof.Machine
end

section
/-! Which operations write which piece of state (spec/10_state.md R39). -/

namespace Sys2Proof.Machine

/-- What a step that is no reset can write: nothing but the queue and the log of reads, what a command in range writes,
ERR and ERRCMD for a rejected word, or the word that the host writes. -/
theorem step_write_cases {s t : State} (h : step s = .next t) (hr : ¬ s.NextIsReset) :
    (∃ es vs, t = { s with pending := es, reads := vs }) ∨
    (∃ i es, s.NextRuns i ∧ ¬ OutOfRange s i ∧ t = inRangeResult i (s.setPending es)) ∨
    (∃ w c es, s.NextWrites 0x000 w ∧ Rejected s w ∧ t = (s.setPending es).raiseCmdError c w) ∨
    (∃ v es, s.NextWrites 0x008 v ∧ t = (s.setPending es).setTxplen (v.extractLsb' 0 16)) ∨
    (∃ v es, s.NextWrites 0x01C v ∧ t = (s.setPending es).clearErr v) ∨
    (∃ v es i, s.NextWrites (0x10000 + 4 * i) v ∧ t = (s.setPending es).setTxByte i (v.extractLsb' 0 8)) ∨
    (∃ v es i, s.NextWrites (0x20000 + 4 * i) v ∧ t = (s.setPending es).setRxByte i (v.extractLsb' 0 8)) := by
  obtain ⟨-, ⟨-, rfl⟩ | ⟨rest, hp, -⟩ | ⟨_, _, rest, x, -, -, rfl⟩ | ⟨width, o, v, rest, x, hp, hl, hw⟩⟩ :=
    step_cases s t h
  · exact .inl ⟨_, _, rfl⟩
  · exact absurd ⟨rest, hp⟩ hr
  · exact .inl ⟨_, _, rfl⟩
  obtain ⟨rfl, hx⟩ := locate_ok_cases _ _ _ _ hl
  have hwrites : s.NextWrites o v := ⟨rest, hp⟩
  obtain ⟨rfl, -⟩ | ⟨rfl, rfl⟩ | ⟨rfl, rfl⟩ | ⟨i, rfl, rfl⟩ | ⟨i, rfl, rfl⟩ | rfl := writeTarget_cases x v _ t hw
  · obtain rfl : o = regOffset .cmd := by simpa using hx
    obtain ⟨c, hc⟩ | ⟨i, hd, hin⟩ := rejectedFor_or_inRange s v
    · have hrun := runCommandWord_of_rejectedFor (s := s.setPending rest) (c := c) hc
      obtain rfl := Host.Outcome.next.inj (hrun.symm.trans hw)
      exact .inr (.inr (.inl ⟨v, c, rest, hwrites, (rejected_iff_exists_rejectedFor s v).2 ⟨c, hc⟩, rfl⟩))
    · have hrun := (runCommandWord_of_command (s.setPending rest) hd).trans (exec_of_inRange hin)
      obtain rfl := Host.Outcome.next.inj (hrun.symm.trans hw)
      exact .inr (.inl ⟨i, rest, ⟨v, hwrites, hd⟩, hin, rfl⟩)
  · obtain rfl : o = regOffset .txplen := by simpa using hx
    exact .inr (.inr (.inr (.inl ⟨v, rest, hwrites, rfl⟩)))
  · obtain rfl : o = regOffset .err := by simpa using hx
    exact .inr (.inr (.inr (.inr (.inl ⟨v, rest, hwrites, rfl⟩))))
  · obtain ⟨-, rfl, -⟩ := locate_ok_tx hl
    exact .inr (.inr (.inr (.inr (.inr (.inl ⟨v, rest, i, hwrites, rfl⟩)))))
  · obtain ⟨-, rfl, -⟩ := locate_ok_rx hl
    exact .inr (.inr (.inr (.inr (.inr (.inr ⟨v, rest, i, hwrites, rfl⟩)))))
  · exact .inl ⟨_, _, rfl⟩

/-- ENCODE in range writes TX's head and the two bytes of the trailer (R115). -/
theorem pktEncResult_txByte_of_not_written (ty id : Byte) (s : State) {j : Nat}
    (h : ¬ (j < 4 ∨ j = 4 + s.txplen.toNat ∨ j = 5 + s.txplen.toNat)) :
    (pktEncResult ty id s).txByte j = s.txByte j := by
  obtain ⟨hhead, hhigh, hlow⟩ : ¬ j < 4 ∧ j ≠ 4 + s.encodeCount ∧ j ≠ 4 + s.encodeCount + 1 := by
    unfold State.encodeCount
    omega
  rw [pktEncResult_txByte_fields, if_neg hhigh, if_neg hlow, dif_neg hhead]

/-- TRAILER_GEN in range writes the two bytes of the trailer (R105). -/
theorem trlGenResult_txByte_of_not_written (k : Half) (s : State) {j : Nat} (h : ¬ (j = k.toNat ∨ j = k.toNat + 1)) :
    (trlGenResult k s).txByte j = s.txByte j := by
  rw [not_or] at h
  rw [trlGenResult_txByte, if_neg h.1, if_neg h.2]

section
variable {s : State}

/-- A write of one byte changes no other. -/
theorem eq_of_setTxByte_txByte_ne {i j : Nat} {b : Byte} (h : (s.setTxByte i b).txByte j ≠ s.txByte j) : j = i := by
  rw [State.setTxByte_txByte] at h
  exact of_not_not fun hji => h (if_neg hji)

theorem eq_of_setRxByte_rxByte_ne {i j : Nat} {b : Byte} (h : (s.setRxByte i b).rxByte j ≠ s.rxByte j) : j = i := by
  rw [State.setRxByte_rxByte] at h
  exact of_not_not fun hji => h (if_neg hji)

/-- Nothing of DECODE's registers differs from itself. -/
theorem verdict_same {P : Prop}
    (h : s.eflag ≠ s.eflag ∨ s.lenbad ≠ s.lenbad ∨ s.rxdlen ≠ s.rxdlen ∨ s.rxdecl ≠ s.rxdecl) : P := by
  simp at h

/-- Nothing of ERR differs from itself. -/
theorem err_same {P : Prop} (h : s.errOpc ≠ s.errOpc ∨ s.errRsv ≠ s.errRsv ∨ s.errRange ≠ s.errRange) : P := by
  simp at h

/-- The registers but CRC that a command in range writes. -/
theorem inRangeResult_registers (i : Instr) :
    ((inRangeResult i s).txlen ≠ s.txlen → ∃ ty id, i = .pktEnc ty id) ∧
    ((inRangeResult i s).chkok ≠ s.chkok → ∃ k, i = .trlChk k) ∧
    ((inRangeResult i s).eflag ≠ s.eflag ∨ (inRangeResult i s).lenbad ≠ s.lenbad ∨
      (inRangeResult i s).rxdlen ≠ s.rxdlen ∨ (inRangeResult i s).rxdecl ≠ s.rxdecl → ∃ ty id, i = .pktDec ty id) := by
  cases i with
  | crcInit => exact ⟨absurd rfl, absurd rfl, verdict_same⟩
  | crcByte b => exact ⟨absurd rfl, absurd rfl, verdict_same⟩
  | trlGen k => exact ⟨absurd rfl, absurd rfl, verdict_same⟩
  | trlChk k => exact ⟨absurd rfl, fun _ => ⟨k, rfl⟩, verdict_same⟩
  | pktEnc ty id =>
    rw [inRangeResult, pktEncResult_eq]
    exact ⟨fun _ => ⟨ty, id, rfl⟩, absurd rfl, verdict_same⟩
  | pktDec ty id => exact ⟨absurd rfl, absurd rfl, fun _ => ⟨ty, id, rfl⟩⟩

/-- The bytes of TX that a command in range writes. -/
theorem inRangeResult_txByte (i : Instr) (j : Nat) (h : (inRangeResult i s).txByte j ≠ s.txByte j) :
    (∃ k, i = .trlGen k ∧ (j = k.toNat ∨ j = k.toNat + 1)) ∨
    ∃ ty id, i = .pktEnc ty id ∧ (j < 4 ∨ j = 4 + s.txplen.toNat ∨ j = 5 + s.txplen.toNat) := by
  cases i with
  | crcInit => exact absurd rfl h
  | crcByte b => exact absurd rfl h
  | trlGen k => exact .inl ⟨k, rfl, not_imp_comm.1 (trlGenResult_txByte_of_not_written k s) h⟩
  | trlChk k => exact absurd rfl h
  | pktEnc ty id => exact .inr ⟨ty, id, rfl, not_imp_comm.1 (pktEncResult_txByte_of_not_written ty id s) h⟩
  | pktDec ty id => exact absurd rfl h

end

/-- Settles O36: by what the step can write, each kind of write in its case, and in the case of a command by the
command. -/
theorem stateIsWrittenOnlyByItsOperations : Obligations.StateIsWrittenOnlyByItsOperations := by
  intro s t h hr
  obtain ⟨es, vs, rfl⟩ | ⟨i, es, hrun, hin, rfl⟩ | ⟨w, c, es, hw, hrej, rfl⟩ | ⟨v, es, hw, rfl⟩ | ⟨v, es, hw, rfl⟩ |
    ⟨v, es, i, hw, rfl⟩ | ⟨v, es, i, hw, rfl⟩ := step_write_cases h hr
  · exact ⟨absurd rfl, absurd rfl, absurd rfl, verdict_same, absurd rfl, absurd rfl, err_same, fun _ => absurd rfl,
      fun _ => absurd rfl⟩
  · obtain ⟨hopc, hrsv, hrange, hcmd⟩ := inRangeResult_err (s := s.setPending es) hin
    obtain ⟨htxlen, hchkok, hverdict⟩ := inRangeResult_registers (s := s.setPending es) i
    have hframe := exec_frame i _ _ (exec_of_inRange (s := s.setPending es) hin)
    refine ⟨fun _ => ⟨i, hrun, hin⟩, ?txlen, ?chkok, ?verdict, absurd hframe.txplen, absurd hcmd, ?err, fun j => ?tx,
      fun j => absurd (State.rxByte_congr hframe.rx hframe.resets j)⟩
    case err =>
      rw [hopc, hrsv, hrange]
      exact err_same
    case txlen =>
      intro hne
      obtain ⟨ty, id, rfl⟩ := htxlen hne
      exact ⟨ty, id, hrun, hin⟩
    case chkok =>
      intro hne
      obtain ⟨k, rfl⟩ := hchkok hne
      exact ⟨k, hrun, hin⟩
    case verdict =>
      intro hne
      obtain ⟨ty, id, rfl⟩ := hverdict hne
      exact ⟨ty, id, hrun⟩
    case tx =>
      intro hne
      obtain ⟨k, rfl, hj⟩ | ⟨ty, id, rfl, hj⟩ := inRangeResult_txByte i j hne
      · exact .inr (.inl ⟨k, hrun, hin, hj⟩)
      · exact .inr (.inr ⟨ty, id, hrun, hin, hj⟩)
  · exact ⟨absurd rfl, absurd rfl, absurd rfl, verdict_same, absurd rfl, fun _ => ⟨w, hw, hrej⟩,
      fun _ => .inr ⟨w, hw, hrej⟩, fun _ => absurd rfl, fun _ => absurd rfl⟩
  · exact ⟨absurd rfl, absurd rfl, absurd rfl, verdict_same, fun _ => ⟨v, hw⟩, absurd rfl, err_same,
      fun _ => absurd rfl, fun _ => absurd rfl⟩
  · exact ⟨absurd rfl, absurd rfl, absurd rfl, verdict_same, absurd rfl, absurd rfl, fun _ => .inl ⟨v, hw⟩,
      fun _ => absurd rfl, fun _ => absurd rfl⟩
  · refine ⟨absurd rfl, absurd rfl, absurd rfl, verdict_same, absurd rfl, absurd rfl, err_same, fun j hj => .inl ?_,
      fun _ => absurd rfl⟩
    obtain rfl := eq_of_setTxByte_txByte_ne hj
    exact ⟨v, hw⟩
  · refine ⟨absurd rfl, absurd rfl, absurd rfl, verdict_same, absurd rfl, absurd rfl, err_same, fun _ => absurd rfl,
      fun j hj => ?_⟩
    obtain rfl := eq_of_setRxByte_rxByte_ne hj
    exact ⟨v, hw⟩

end Sys2Proof.Machine
end
